-- ==== Sys2Proof/Word.lean ====
section
/-! DEFINITION. The word types of HUFFCORE and its fixed parameters (00_scope.md R5, R9: every quantity is unsigned). -/

namespace Sys2Proof

/-- A byte; also a symbol of the 8-bit alphabet (`SYM_W` = 8). -/
abbrev Byte := BitVec 8

/-- A byte address or a byte count in `IN` and `OUT` (`ADDR_W` = 38). -/
abbrev Addr := BitVec 38

/-- An index into the node store, or `NIL` (10_state.md R31). -/
abbrev NodeIx := BitVec 9

/-- A node's frequency (`NODE_FREQ_W` = 40). -/
abbrev Freq := BitVec 40

/-- The number of symbol values, `ALPHA`. -/
abbrev alpha : Nat := 256

/-- The number of entries of the node store, `MAX_NODES` (10_state.md R31). -/
abbrev maxNodes : Nat := 511

/-- The number of entries of the queue array (10_state.md R33). -/
abbrev maxQueue : Nat := 256

/-- The 9-bit value that means "no node". -/
abbrev nil : NodeIx := 511#9

/-- `HDR_SIZE`: bytes of header. -/
abbrev hdrSize : Nat := 5

/-- `LEAF_SIZE`: bytes of one serialized leaf. -/
abbrev leafSize : Nat := 5

/-- `ceil8(b)`: the number of bytes that hold `b` bits (00_scope.md R9). -/
def ceil8 (b : Nat) : Nat := (b + 7) / 8

end Sys2Proof
end

