-- ==== Sys2Proof/Config.lean ====
section
/-! DEFINITION. What an implementation fixes (the buffer capacities, 00_scope.md R6) and the free values: the values the
spec leaves unspecified (10_state.md R39, 60 R229, 70 R252, R260). -/

namespace Sys2Proof

/-- The open parameters of 00_scope.md R6: how many bytes `IN` and `OUT` hold. 38 bits are exactly the stated range. -/
structure Params where
  inCap : Addr
  outCap : Addr
deriving DecidableEq, Repr

/-- DESIGN CHOICE (log 3): the capacities of `State.reset`, which 92_eei_decisions.md offers a model as its default for
tests. Unsafe for a claim that rests on them; the statements about the machine are for every value. -/
def Params.testDefault : Params := ⟨65536#38, 65536#38⟩

/-- Where the spec leaves a value unspecified: what a table entry or buffer byte holds that nothing has written since
reset (10_state.md R39), and what the host reads where 70_reset_and_hazards.md R260 gives no value. -/
inductive FreeSite where
  | ft | nodeFreq | nodeSym | nodeLeft | nodeRight | nodeParent | queue | codeBits | codeLen | inByte | outByte
  | hostOutByte | hostOrigLen | hostNleaf
deriving DecidableEq, Repr

/-- DESIGN CHOICE (log 4, log 5): the free values. There is one of `w` bits for each place, each occasion (the count of
resets, or of the host's turns) and each index. It has no body, so nothing can evaluate it or prove a value of it. -/
opaque Config.free (w : Nat) (site : FreeSite) (occasion index : Nat) : BitVec w

end Sys2Proof
end

