-- ==== Sys2Proof/Syntax.lean ====
section
/-! DEFINITION. The instructions of spec/opcode_table.json, the two instruction formats and the two record formats of the
compressed buffer (30_encoding.md R80). -/

namespace Sys2Proof

/-- The instruction formats of 30_encoding.md R80: the command code the host writes (R81) and the micro-operation
selector held in `PHASE` (R84). -/
inductive Format where
  | cmd8 | phase4
deriving DecidableEq, Repr

/-- One constructor per row of the opcode table. No instruction has an operand field (R81, R84): its operands are the
registers and tables its rule names. -/
inductive Instr where
  | compress | decompress
  | idle | fclr | fcnt | seed | merge | assign | serh | serl | pack | flush | parse | loadl | unpk
deriving DecidableEq, Repr

/-- The thirteen values of the `PHASE` register (30_encoding.md R85); R86 asks that the reserved codes be
inexpressible. -/
inductive Phase where
  | idle | fclr | fcnt | seed | merge | assign | serh | serl | pack | flush | parse | loadl | unpk
deriving DecidableEq, Repr

/-- The format a row of the table has. -/
def Instr.format : Instr → Format
  | .compress | .decompress => .cmd8
  | .idle | .fclr | .fcnt | .seed | .merge | .assign | .serh | .serl | .pack | .flush | .parse | .loadl | .unpk => .phase4

/-- The bits of a format's one field (R81, R84). -/
def Format.bits : Format → Nat
  | .cmd8 => 8
  | .phase4 => 4

/-- Format `HDR` (30_encoding.md R89): `originalLength` and the leaf count minus one. -/
structure HdrRecord where
  origlen : BitVec 32
  nm1 : Byte
deriving DecidableEq, Repr

/-- Format `LEAF` (30_encoding.md R90): a leaf's frequency and its symbol. -/
structure LeafRecord where
  freq : BitVec 32
  sym : Byte
deriving DecidableEq, Repr

end Sys2Proof
end

