-- ==== Sys2Proof/WellFormed.lean ====
section
/-! DEFINITION. What is well formed. An instruction has no operand, so every term of `Instr` is; the checks are on the
words that stand for one (30_encoding.md R82, R83, R85, R86) and on leaf counts
(R91); what a host may do is in Safety.lean. -/

namespace Sys2Proof

/-- A command code that names an operation (R82); the others are reserved (R83). -/
def wellFormedCmd (c : Byte) : Bool := c = 0x01#8 || c = 0x02#8

/-- A `PHASE` code of R85; 0xD, 0xE and 0xF are reserved (R86). -/
def wellFormedPhase (p : BitVec 4) : Bool := p.toNat ≤ 12

/-- A word of `bits` bits holds an instruction of the format: no bit set above the field, and a code the table lists. -/
def wellFormedWord (f : Format) (w : Nat) : Bool :=
  decide (w < 2 ^ f.bits) &&
    match f with
    | .cmd8 => wellFormedCmd (BitVec.ofNat 8 w)
    | .phase4 => wellFormedPhase (BitVec.ofNat 4 w)

/-- A leaf count the header can carry (30_encoding.md R91): 0 exactly with an empty original, else 1 to 256. -/
def wellFormedLeafCount (origlen : BitVec 32) (n : Nat) : Bool :=
  if origlen = 0 then n = 0 else decide (1 ≤ n ∧ n ≤ 256)

end Sys2Proof
end

