-- ==== Sys2Proof/Decode.lean ====
section
/-! DEFINITION. Decoding and encoding: commands (30_encoding.md R81 to R83), micro-operation selectors (R84 to R86), and
the header and leaf records of the compressed buffer (R87 to R91). Total on any bytes; what is rejected is rejected by name. -/

namespace Sys2Proof

/-- Why bytes decode to nothing. -/
inductive DecodeError where
  /-- a reserved command code (R83) -/
  | reservedCommand (c : Byte)
  /-- a reserved `PHASE` code (R86) -/
  | reservedPhase (p : BitVec 4)
  /-- a `PHASE4` word with a bit set above its four -/
  | phaseTooWide (b : Byte)
  /-- fewer bytes than the format has -/
  | truncated
deriving DecidableEq, Repr

/-- The instruction a command code names (R82). -/
def decodeCmd (c : Byte) : Except DecodeError Instr :=
  if c = 0x01#8 then .ok .compress
  else if c = 0x02#8 then .ok .decompress
  else .error (.reservedCommand c)

/-- The micro-operation a `PHASE` code names (R85). -/
def decodePhase (p : BitVec 4) : Except DecodeError Instr :=
  if p = 0x0#4 then .ok .idle
  else if p = 0x1#4 then .ok .fclr
  else if p = 0x2#4 then .ok .fcnt
  else if p = 0x3#4 then .ok .seed
  else if p = 0x4#4 then .ok .merge
  else if p = 0x5#4 then .ok .assign
  else if p = 0x6#4 then .ok .serh
  else if p = 0x7#4 then .ok .serl
  else if p = 0x8#4 then .ok .pack
  else if p = 0x9#4 then .ok .flush
  else if p = 0xA#4 then .ok .parse
  else if p = 0xB#4 then .ok .loadl
  else if p = 0xC#4 then .ok .unpk
  else .error (.reservedPhase p)

/-- The code the `PHASE` register holds for each of its thirteen values (R85). -/
def phaseCode : Phase → BitVec 4
  | .idle => 0x0#4 | .fclr => 0x1#4 | .fcnt => 0x2#4 | .seed => 0x3#4 | .merge => 0x4#4 | .assign => 0x5#4
  | .serh => 0x6#4 | .serl => 0x7#4 | .pack => 0x8#4 | .flush => 0x9#4 | .parse => 0xA#4 | .loadl => 0xB#4
  | .unpk => 0xC#4

/-- The value of `PHASE` that selects a micro-operation; a command has none. -/
def phaseOf : Instr → Option Phase
  | .compress | .decompress => none
  | .idle => some .idle | .fclr => some .fclr | .fcnt => some .fcnt | .seed => some .seed | .merge => some .merge
  | .assign => some .assign | .serh => some .serh | .serl => some .serl | .pack => some .pack | .flush => some .flush
  | .parse => some .parse | .loadl => some .loadl | .unpk => some .unpk

/-- One instruction from the front of a byte string, and the rest. A `PHASE4` word stands in the low four bits of a
byte whose high bits are zero. -/
def decodeBytes (f : Format) : List Byte → Except DecodeError (Instr × List Byte)
  | [] => .error .truncated
  | b :: rest =>
    match f with
    | .cmd8 => (decodeCmd b).map (·, rest)
    | .phase4 =>
      if b.toNat < 16 then (decodePhase (b.setWidth 4)).map (·, rest) else .error (.phaseTooWide b)

/-- The code of an instruction, in its own format (R82, R85). -/
def encodeWord : Instr → Byte
  | .compress => 0x01#8 | .decompress => 0x02#8
  | .idle => 0x00#8 | .fclr => 0x01#8 | .fcnt => 0x02#8 | .seed => 0x03#8 | .merge => 0x04#8 | .assign => 0x05#8
  | .serh => 0x06#8 | .serl => 0x07#8 | .pack => 0x08#8 | .flush => 0x09#8 | .parse => 0x0A#8 | .loadl => 0x0B#8
  | .unpk => 0x0C#8

/-- The words of an instruction: one byte. -/
def encode (i : Instr) : List Byte := [encodeWord i]

/-- DESIGN CHOICE (log 11): the pipeline's question, on a word of the opcode table. Four bits (or fewer) are a `PHASE4`
word. More are a `CMD8` word or, where `CMD8` reserves the code, a `PHASE4` word widened to a whole byte with zeros: 0x01
and 0x02 have a meaning in both formats, and only the width tells the two apart. -/
def decodeTableWord (nbits w : Nat) : Option Instr :=
  if nbits ≤ 4 then
    if w < 16 then (decodeBytes .phase4 [BitVec.ofNat 8 w]).toOption.map (·.1) else none
  else if w < 256 then
    match decodeBytes .cmd8 [BitVec.ofNat 8 w] with
    | .ok (i, _) => some i
    | .error _ => (decodeBytes .phase4 [BitVec.ofNat 8 w]).toOption.map (·.1)
  else none

/-! ## The records of the compressed buffer -/

/-- Byte `k` of a 32-bit field, byte 0 the least significant (20_memory.md R64, R65). -/
def byteOf32 (v : BitVec 32) (k : Nat) : Byte := (v >>> (8 * k)).setWidth 8

/-- The four bytes of a 32-bit field at ascending addresses: little-endian (20_memory.md R64, R65). -/
def bytes32 (v : BitVec 32) : List Byte := [byteOf32 v 0, byteOf32 v 1, byteOf32 v 2, byteOf32 v 3]

/-- The 32-bit field whose bytes at ascending addresses are these (20_memory.md R65). -/
def join32 (b0 b1 b2 b3 : Byte) : BitVec 32 := b3 ++ b2 ++ b1 ++ b0

/-- The 40-bit view of a header (30_encoding.md R89): bits 31:0 `origlen`, bits 39:32 `nm1`. -/
def hdrView (h : HdrRecord) : BitVec 40 := h.nm1 ++ h.origlen

/-- The 40-bit view of a leaf record (30_encoding.md R90): bits 31:0 `freq`, bits 39:32 `sym`. -/
def leafView (l : LeafRecord) : BitVec 40 := l.sym ++ l.freq

/-- The five bytes of a header (30_encoding.md R89, 20_memory.md R68). -/
def encodeHdr (h : HdrRecord) : List Byte := bytes32 h.origlen ++ [h.nm1]

/-- The five bytes of a leaf record (30_encoding.md R90). -/
def encodeLeaf (l : LeafRecord) : List Byte := bytes32 l.freq ++ [l.sym]

/-- A header from the front of a byte string, and the rest. -/
def decodeHdr : List Byte → Except DecodeError (HdrRecord × List Byte)
  | b0 :: b1 :: b2 :: b3 :: b4 :: rest => .ok (⟨join32 b0 b1 b2 b3, b4⟩, rest)
  | _ => .error .truncated

/-- A leaf record from the front of a byte string, and the rest. -/
def decodeLeaf : List Byte → Except DecodeError (LeafRecord × List Byte)
  | b0 :: b1 :: b2 :: b3 :: b4 :: rest => .ok (⟨join32 b0 b1 b2 b3, b4⟩, rest)
  | _ => .error .truncated

/-- `n` leaf records from the front of a byte string, in stored order, and the rest. -/
def decodeLeaves : Nat → List Byte → Except DecodeError (List LeafRecord × List Byte)
  | 0, bytes => .ok ([], bytes)
  | n + 1, bytes =>
    match decodeLeaf bytes with
    | .error e => .error e
    | .ok (l, rest) =>
      match decodeLeaves n rest with
      | .error e => .error e
      | .ok (ls, rest) => .ok (l :: ls, rest)

/-- The byte `nm1` for a leaf count: N − 1 for N ≥ 1, and 0x00 for N = 0 (30_encoding.md R91, 43 R152, conflict C1). -/
def leafCountByte (n : BitVec 9) : Byte := if n = 0#9 then 0x00#8 else (n - 1#9).setWidth 8

/-- The leaf count a header declares: 0 where the original is empty, `nm1` then not interpreted; else `nm1` + 1, exact
in nine bits (30_encoding.md R91). -/
def leafCountOf (origlen : BitVec 32) (nm1 : Byte) : BitVec 9 :=
  if origlen = 0#32 then 0#9 else nm1.setWidth 9 + 1#9

end Sys2Proof
end

