-- ==== Sys2Proof/Machine/State.lean ====
section
/-! DEFINITION. The state of HUFFCORE (10_state.md R20 to R37), the host's pending moves, the reasons a step can stop,
and the state after reset (R39). -/

namespace Sys2Proof.Machine

/-- `STATUS.ERR` (60_exceptions.md R221); the codes 4 to 7 are never produced and not expressible (93 U11). -/
inductive ErrCode where
  | ok | invalidInput | corruptStream | capacityExceeded
deriving DecidableEq, Repr

/-- `MODE` (10_state.md R26): 0 in a COMPRESS, 1 in a DECOMPRESS. -/
inductive Mode where
  | compress | decompress
deriving DecidableEq, Repr

/-- An entry of the node store (10_state.md R31). -/
structure Node where
  freq : Freq
  sym : Byte
  left : NodeIx
  right : NodeIx
  parent : NodeIx
deriving DecidableEq, Repr

/-- An entry of the code table (10_state.md R34): bit `i` of `bits` is `c_i`. -/
structure CodeEntry where
  bits : BitVec 255
  len : BitVec 8
deriving DecidableEq, Repr

/-- What the host can do at its next turn (10_state.md R21, 70_reset_and_hazards.md R250, R260; 30_encoding.md R98,
R99). Register numbers have three bits (20_memory.md R60). -/
inductive HostMove where
  /-- no access: the sequencer has the turn -/
  | yield
  /-- polls `STATUS` until `DONE` = 1, the sequencer stepping meanwhile (R98) -/
  | await
  /-- reads a host register -/
  | readReg (hr : BitVec 3)
  /-- writes a whole host register; the register takes the low bits of its width -/
  | writeReg (hr : BitVec 3) (v : BitVec 38)
  /-- reads a byte of `IN` -/
  | readIn (a : Addr)
  /-- writes a byte of `IN` -/
  | writeIn (a : Addr) (b : Byte)
  /-- reads a byte of `OUT` -/
  | readOut (a : Addr)
  /-- writes a byte of `OUT` -/
  | writeOut (a : Addr) (b : Byte)
  /-- the pseudo-instruction FEEDBACK (R99), replaced by its accesses when its turn comes -/
  | feedback
  /-- the reset event (R250) -/
  | reset
deriving DecidableEq, Repr

/-- The state. Fields are in the order of 10_state.md R20; then come the configuration `params` and the five fields that are
the model's own (INVENTORY.md, State). -/
@[ext]
structure State where
  -- host registers (R21, R22); `CMD` holds no state (R23), and `NLEAF` is `n`
  busy : Bool
  done : Bool
  err : ErrCode
  inLen : Addr
  outLen : Addr
  origLen : BitVec 32
  -- sequencer registers (R25, R26)
  phase : Phase
  mode : Mode
  -- working registers (R24)
  n : BitVec 9
  ipos : Addr
  opos : Addr
  li : BitVec 9
  nn : BitVec 9
  qn : BitVec 9
  root : NodeIx
  cur : NodeIx
  bitpos : BitVec 41
  totbits : BitVec 40
  acc : Byte
  accn : BitVec 3
  -- tables (R30 to R34): entries written since reset, by index
  ft : List (Nat × BitVec 32)
  node : List (Nat × Node)
  q : List (Nat × NodeIx)
  code : List (Nat × CodeEntry)
  -- buffer memories (R36, R37): bytes written since reset, by address
  inMem : List Host.Cell
  outMem : List Host.Cell
  -- configuration (00_scope.md R6), which no step changes
  params : Params
  -- the host's pending moves, oldest first, and what its latest read returned
  host : List HostMove
  hostData : BitVec 38
  -- counts that pick free values: of resets, and of the events that can change what the host sees unspecified
  epoch : Nat
  turn : Nat
  -- bytes of `OUT` the host wrote since the latest such event
  hostOut : List Host.Cell
deriving DecidableEq, Repr

/-- Why a step stops the machine. None of these is an error of the spec: those are completions (60_exceptions.md R226).
Each is safe: the model stops where the spec gives no effect. -/
inductive Fault where
  /-- `InRead` at or beyond `IN_LEN` or `IN_CAP` (20_memory.md R62, R69): raised by `inRead`. Safe, and outside every
  state a run reaches. -/
  | inReadOutOfRange
  /-- `OutWrite` at or beyond `OUT_CAP` (20_memory.md R63, R70): raised by `outWrite`. Safe, and outside every state a
  run reaches. -/
  | outWriteOutOfRange
  /-- an index of `NODE` above 510 (20_memory.md R61): raised by `readNode` and `writeNode`. Safe, and outside every
  state a run reaches. -/
  | nodeIndexOutOfRange
  /-- an index of `Q` above 255 (20_memory.md R61): raised by `readQ` and `writeQ`. Safe, and outside every state a run
  reaches. -/
  | queueIndexOutOfRange
  /-- ASSIGN's walk meets no root, so it never ends (42_code_assigner.md R141; 10_state.md R38 rules it out): raised by
  `walkUp`. Safe, and outside every state a run reaches. -/
  | walkWithoutRoot
  /-- `PHASE` holds a reserved code (30_encoding.md R86; 93 U10: stuck): raised by `sequencerStep`. Safe, and no state has
  it. -/
  | reservedPhase
  /-- the host addresses a byte of `IN` or `OUT` that does not exist (10_state.md R36, R37): raised by `hostTurn`.
  Safe. -/
  | hostAddressOutOfRange
deriving DecidableEq, Repr

/-- Why a step has no meaning. -/
inductive Refusal where
  /-- an instruction that has no meaning yet: raised by `exec`'s own arms, and by none of them now. Safe. -/
  | notModelled (mnemonic : String)
  /-- the host writes `IN` or `OUT` while `BUSY` = 1, which it must not (70_reset_and_hazards.md R260, R261; 93 U7:
  refuse): raised by `hostTurn`. Safe. -/
  | hostBufferWriteWhileBusy
deriving DecidableEq, Repr

/-- The state reset leaves (10_state.md R39, 70_reset_and_hazards.md R251) in a block of the given capacities. Nothing is
listed in the tables and buffers: an entry nothing has written since the reset counted by `epoch` reads as a free value
(log 4). -/
def State.resetWith (p : Params) (epoch : Nat) : State where
  busy := false
  done := false
  err := .ok
  inLen := 0
  outLen := 0
  origLen := 0
  phase := .idle
  mode := .compress
  n := 0
  ipos := 0
  opos := 0
  li := 0
  nn := 0
  qn := 0
  root := nil
  cur := nil
  bitpos := 0
  totbits := 0
  acc := 0
  accn := 0
  ft := []
  node := []
  q := []
  code := []
  inMem := []
  outMem := []
  params := p
  host := []
  hostData := 0
  epoch := epoch
  turn := 0
  hostOut := []

/-- The machine right after its first reset. The host has no move pending (log 2), and the capacities are the spec's
default for tests (log 3). -/
def State.reset : State := State.resetWith Params.testDefault 0

end Sys2Proof.Machine
end

