-- ==== Sys2Proof/Machine/Ops.lean ====
section
/-! DEFINITION. The named operations over tables, memories and registers, and the one completion sequence that ends every
run (60_exceptions.md R226). -/

namespace Sys2Proof.Machine

/-! ## Sparse data: a list of index and value, indices strictly rising -/

/-- What is listed at an index. -/
def sparseGet {α : Type} : List (Nat × α) → Nat → Option α
  | [], _ => none
  | (k, v) :: rest, i => if k = i then some v else sparseGet rest i

/-- Lists a value at an index, in place of what was listed there, keeping the indices rising. -/
def sparseSet {α : Type} : List (Nat × α) → Nat → α → List (Nat × α)
  | [], i, v => [(i, v)]
  | (k, w) :: rest, i, v =>
    if i < k then (i, v) :: (k, w) :: rest
    else if k = i then (i, v) :: rest
    else (k, w) :: sparseSet rest i v

/-- The canonical form: indices strictly rising and below a bound. DESIGN CHOICE (log 4): an unlisted index reads
as no value of its own, so no entry can equal it. -/
abbrev sparseWf {α : Type} (bound : Nat) (t : List (Nat × α)) : Prop :=
  (t.map Prod.fst).Pairwise (· < ·) ∧ ∀ k ∈ t.map Prod.fst, k < bound

/-- The canonical form of a buffer memory of `cap` bytes. -/
abbrev Memory.wf (cap : Nat) (m : List Host.Cell) : Prop := sparseWf cap m

/-! ## Named updates of the state: the only writers of tables and memories -/

/-- Replaces the frequency table. -/
def State.setFt (s : State) (t : List (Nat × BitVec 32)) : State := { s with ft := t }
/-- Replaces the node store. -/
def State.setNode (s : State) (t : List (Nat × Node)) : State := { s with node := t }
/-- Replaces the queue array. -/
def State.setQ (s : State) (t : List (Nat × NodeIx)) : State := { s with q := t }
/-- Replaces the code table. -/
def State.setCode (s : State) (t : List (Nat × CodeEntry)) : State := { s with code := t }
/-- Replaces the input memory. -/
def State.setInMem (s : State) (m : List Host.Cell) : State := { s with inMem := m }
/-- Replaces the output memory. -/
def State.setOutMem (s : State) (m : List Host.Cell) : State := { s with outMem := m }

/-- Replaces the host's record of its own writes to `OUT`. -/
def State.setHostOut (s : State) (m : List Host.Cell) : State := { s with hostOut := m }

/-- The node count and the queue length. -/
def State.setCounts (s : State) (nn qn : BitVec 9) : State := { s with nn := nn, qn := qn }

/-! ## Tables (10_state.md R30 to R34, 20_memory.md R61) -/

/-- `FT[b]`. -/
def readFt (s : State) (b : Byte) : BitVec 32 :=
  (sparseGet s.ft b.toNat).getD (Config.free 32 .ft s.epoch b.toNat)

/-- `FT[b] <- v`. -/
def writeFt (s : State) (b : Byte) (v : BitVec 32) : State := s.setFt (sparseSet s.ft b.toNat v)

/-- A node-store entry nothing has written since reset (10_state.md R39): free in every field. -/
def freeNode (epoch i : Nat) : Node :=
  ⟨Config.free 40 .nodeFreq epoch i, Config.free 8 .nodeSym epoch i, Config.free 9 .nodeLeft epoch i,
    Config.free 9 .nodeRight epoch i, Config.free 9 .nodeParent epoch i⟩

/-- What `NODE[i]` holds, for an index that exists. -/
def nodeAt (s : State) (i : NodeIx) : Node := (sparseGet s.node i.toNat).getD (freeNode s.epoch i.toNat)

/-- `NODE[i]`; there is no entry 511. -/
def readNode (s : State) (i : NodeIx) : Except Fault Node :=
  if i.toNat < maxNodes then .ok (nodeAt s i) else .error .nodeIndexOutOfRange

/-- `NODE[i] <- v`, all fields. -/
def writeNode (s : State) (i : NodeIx) (v : Node) : Except Fault State :=
  if i.toNat < maxNodes then .ok (s.setNode (sparseSet s.node i.toNat v)) else .error .nodeIndexOutOfRange

/-- `NODE[i].parent <- p`. -/
def setParent (s : State) (i p : NodeIx) : Except Fault State := do
  let nd ← readNode s i
  writeNode s i { nd with parent := p }

/-- A node is a leaf exactly when its `left` is `NIL` (10_state.md R31). -/
def Node.isLeaf (nd : Node) : Bool := nd.left = nil

/-- A leaf not yet merged: no children, no parent (40 R113, 43 R160). -/
def leafNode (freq : Freq) (sym : Byte) : Node := ⟨freq, sym, nil, nil, nil⟩

/-- What `Q[i]` holds, for an index that exists. -/
def queueAt (s : State) (i : Nat) : NodeIx := (sparseGet s.q i).getD (Config.free 9 .queue s.epoch i)

/-- `Q[i]`; there are 256 entries. -/
def readQ (s : State) (i : Nat) : Except Fault NodeIx :=
  if i < maxQueue then .ok (queueAt s i) else .error .queueIndexOutOfRange

/-- `Q[i] <- v`. -/
def writeQ (s : State) (i : Nat) (v : NodeIx) : Except Fault State :=
  if i < maxQueue then .ok (s.setQ (sparseSet s.q i v)) else .error .queueIndexOutOfRange

/-- A code-table entry nothing has written since reset (10_state.md R39): free in both fields. -/
def freeCode (epoch i : Nat) : CodeEntry := ⟨Config.free 255 .codeBits epoch i, Config.free 8 .codeLen epoch i⟩

/-- `CODE[b]`. -/
def readCode (s : State) (b : Byte) : CodeEntry := (sparseGet s.code b.toNat).getD (freeCode s.epoch b.toNat)

/-- `CODE[b] <- v`, both fields. -/
def writeCode (s : State) (b : Byte) (v : CodeEntry) : State := s.setCode (sparseSet s.code b.toNat v)

/-! ## Buffer memories (10_state.md R36, R37; 20_memory.md R62, R63) -/

/-- What `IN[a]` holds, for an address that exists. -/
def inByte (s : State) (a : Nat) : Byte := (sparseGet s.inMem a).getD (Config.free 8 .inByte s.epoch a)

/-- What `OUT[a]` holds, for an address that exists. -/
def outByte (s : State) (a : Nat) : Byte := (sparseGet s.outMem a).getD (Config.free 8 .outByte s.epoch a)

/-- `InRead(a)` (20_memory.md R62): defined below `IN_LEN` ≤ `IN_CAP`; the block never issues another (R69).
DESIGN CHOICE (log 6): such a read stops by name, and so do the accesses below and above that name no entry. -/
def inRead (s : State) (a : Nat) : Except Fault Byte :=
  if a < s.inLen.toNat ∧ a < s.params.inCap.toNat then .ok (inByte s a) else .error .inReadOutOfRange

/-- `OutWrite(a, b)` (20_memory.md R63): changes `OUT[a]` and nothing else; the block never issues one at or beyond
`OUT_CAP` (R70). -/
def outWrite (s : State) (a : Nat) (b : Byte) : Except Fault State :=
  if a < s.params.outCap.toNat then .ok (s.setOutMem (sparseSet s.outMem a b)) else .error .outWriteOutOfRange

/-! ## Completion, rejection, acceptance: what stands here for taking an exception (60_exceptions.md section 2) -/

/-- `complete e with OUT_LEN = k` (60_exceptions.md R226): the last action of the step that ends a run. -/
def complete (e : ErrCode) (k : Addr) (s : State) : State :=
  { s with
    err := e
    outLen := if e = .ok then k else 0
    busy := false
    done := true
    phase := .idle }

/-- `raise e` (60_exceptions.md R226): completion with an error and no output. -/
def raiseError (e : ErrCode) (s : State) : State := complete e 0 s

/-- `reject e` (45_commands_and_sequencer.md R191): a completion with no run. -/
def reject (e : ErrCode) (s : State) : State := { s with err := e, outLen := 0, done := true }

/-- The part of `accept` both commands share (45_commands_and_sequencer.md R191); it is also all there is of a return to
running after a completion (60_exceptions.md R230). -/
def accept (m : Mode) (s : State) : State :=
  { s with err := .ok, outLen := 0, done := false, busy := true, mode := m }

/-- The reset event (70_reset_and_hazards.md R250 to R253): every spec field at its reset value, and new arbitrary tables
and buffers. DESIGN CHOICE (log 15): the capacities stay, and so do the host's own pending moves and what it read. -/
def applyReset (s : State) : State :=
  { State.resetWith s.params (s.epoch + 1) with host := s.host, hostData := s.hostData, turn := s.turn + 1 }

/-- DESIGN CHOICE (log 5): an event after which what the host reads where the spec gives no value can be another: a write
of `CMD` it takes, a reset, a sequencer step during a run. Between two such events it stays (20_memory.md R67, 60 R230). -/
def newTurn (s : State) : State := { s with turn := s.turn + 1, hostOut := [] }

/-- A step from the result of a micro-operation's rule. -/
def finish : Except Fault State → Host.Outcome State Fault Refusal
  | .ok s => .next s
  | .error f => .fault f

end Sys2Proof.Machine
end

