-- ==== Sys2Proof/Machine/Flags.lean ====
section
/-! DEFINITION. The status register and the event line (10_state.md R22, 60_exceptions.md R221, R232), and the exact
arithmetic behind the rules' tests (00_scope.md R13). -/

namespace Sys2Proof.Machine

/-- The three bits of an error code (60_exceptions.md R221). -/
def errBits : ErrCode → BitVec 3
  | .ok => 0#3
  | .invalidInput => 1#3
  | .corruptStream => 2#3
  | .capacityExceeded => 3#3

/-- The bit of `MODE` (10_state.md R26). -/
def modeBit : Mode → BitVec 1
  | .compress => 0#1
  | .decompress => 1#1

/-- `STATUS` as the host reads it (10_state.md R22): bit 0 `BUSY`, bit 1 `DONE`, bits 4:2 `ERR`, bits 7:5 zero. -/
def statusByte (s : State) : Byte :=
  0#3 ++ errBits s.err ++ BitVec.ofBool s.done ++ BitVec.ofBool s.busy

/-- The level of `done_o` (60_exceptions.md R232). -/
def doneLine (s : State) : Bool := s.done

/-- `need` of SERH (43 R151): the bytes a COMPRESS will write. DESIGN CHOICE (log 18): exact in every state, where a
register's own update wraps at its width. -/
def need (s : State) : Nat := 5 + 5 * s.n.toNat + ceil8 s.totbits.toNat

/-- 8 × `IN_LEN`: the end of the packed region in bits (44 R176, R179); exact. -/
def inBits (s : State) : Nat := 8 * s.inLen.toNat

end Sys2Proof.Machine
end

