-- ==== Sys2Proof/Machine/Operands.lean ====
section
/-! DEFINITION. The operand forms: four-byte fields and records in the buffers, the input byte at `IPOS`, the bit at
`BITPOS` (20_memory.md R65, R68; 44 R176). -/

namespace Sys2Proof.Machine

/-- `InRead32(a)`: four byte reads at ascending addresses, little-endian (20_memory.md R65). -/
def inRead32 (s : State) (a : Nat) : Except Fault (BitVec 32) := do
  let b0 ← inRead s a
  let b1 ← inRead s (a + 1)
  let b2 ← inRead s (a + 2)
  let b3 ← inRead s (a + 3)
  .ok (join32 b0 b1 b2 b3)

/-- `OutWrite32(a, v)`: four byte writes at ascending addresses, little-endian (20_memory.md R65). -/
def outWrite32 (s : State) (a : Nat) (v : BitVec 32) : Except Fault State := do
  let s ← outWrite s a (byteOf32 v 0)
  let s ← outWrite s (a + 1) (byteOf32 v 1)
  let s ← outWrite s (a + 2) (byteOf32 v 2)
  outWrite s (a + 3) (byteOf32 v 3)

/-- The address of leaf record `j` (20_memory.md R68): 5 + 5j. -/
def leafAddr (j : Nat) : Nat := hdrSize + leafSize * j

/-- Leaf record `j` of `IN` (30_encoding.md R90, 43 R160). -/
def readLeaf (s : State) (j : Nat) : Except Fault LeafRecord := do
  let freq ← inRead32 s (leafAddr j)
  let sym ← inRead s (leafAddr j + 4)
  .ok ⟨freq, sym⟩

/-- A leaf record written at an address of `OUT` (30_encoding.md R90, 43 R153). -/
def writeLeaf (s : State) (a : Nat) (l : LeafRecord) : Except Fault State := do
  let s ← outWrite32 s a l.freq
  outWrite s (a + 4) l.sym

/-- The bit of `IN` at bit position `p`: bit `p mod 8` of byte `p div 8` (30_encoding.md R93, 44 R176). -/
def inBit (s : State) (p : Nat) : Except Fault Bool := do
  let b ← inRead s (p / 8)
  .ok (b.getLsbD (p % 8))

end Sys2Proof.Machine
end

