-- ==== Sys2Proof/Machine/BitPacker.lean ====
section
/-! DEFINITION. The bit packer and the tree-walk decoder: PACK, FLUSH, UNPK (44_bit_packer_unpacker.md). -/

namespace Sys2Proof.Machine

/-- `ACC[i] <- v`: one bit of the accumulator, the others as they are (R171). -/
def setAccBit (acc : Byte) (i : Nat) (v : Bool) : Byte :=
  (acc &&& ~~~(1#8 <<< i)) ||| ((BitVec.ofBool v).setWidth 8 <<< i)

/-- One bit into the stream (R171, R172): when eight are collected the byte is written whole. -/
def packBit (v : Bool) (s : State) : Except Fault State :=
  let acc := setAccBit s.acc s.accn.toNat v
  let accn := s.accn + 1
  if accn = 0 then do
    let s ← outWrite s s.opos.toNat acc
    .ok { s with opos := s.opos + 1, acc := 0, accn := 0 }
  else
    .ok { s with acc := acc, accn := accn }

/-- `left` bits of a code from bit `k` on, the root-adjacent bit first (R171, 30_encoding.md R94). -/
def packBits (bits : BitVec 255) : (left k : Nat) → State → Except Fault State
  | 0, _, s => .ok s
  | left + 1, k, s => do
    let s ← packBit (bits.getLsbD k) s
    packBits bits left (k + 1) s

/-- PACK (R171): the code of one input byte, or the exit to FLUSH. -/
def execPack (s : State) : Host.Outcome State Fault Refusal := finish <|
  if s.ipos.toNat < s.origLen.toNat then do
    let b ← inRead s s.ipos.toNat
    let c := readCode s b
    let s ← packBits c.bits c.len.toNat 0 s
    .ok { s with ipos := s.ipos + 1 }
  else
    .ok { s with phase := .flush }

/-- FLUSH (R173): the partial last byte, if there is one, then completion. -/
def execFlush (s : State) : Host.Outcome State Fault Refusal := finish <|
  if s.accn = 0 then
    .ok (complete .ok s.opos s)
  else do
    let s ← outWrite s s.opos.toNat s.acc
    let s := { s with opos := s.opos + 1 }
    .ok (complete .ok s.opos s)

/-- UNPK emits the symbol of a leaf and goes back to the root (R176, second branch). -/
def unpkEmit (nd : Node) (s : State) : Except Fault State := do
  let s ← outWrite s s.opos.toNat nd.sym
  .ok { s with opos := s.opos + 1, cur := s.root }

/-- UNPK consumes one bit and descends one level (R176, fourth branch). -/
def unpkBit (nd : Node) (s : State) : Except Fault State := do
  let bit ← inBit s s.bitpos.toNat
  .ok { s with cur := if bit then nd.right else nd.left, bitpos := s.bitpos + 1 }

/-- UNPK (R176): completes, emits, runs out of bits, or descends, tested in this order (R177). -/
def execUnpk (s : State) : Host.Outcome State Fault Refusal := finish <|
  if s.opos.toNat = s.origLen.toNat then
    .ok (complete .ok (s.origLen.setWidth 38) s)
  else do
    let nd ← readNode s s.cur
    if nd.isLeaf then unpkEmit nd s
    else if inBits s ≤ s.bitpos.toNat then .ok (raiseError .corruptStream s)
    else unpkBit nd s

end Sys2Proof.Machine
end

