-- ==== Sys2Proof/Machine/CodeAssigner.lean ====
section
/-! DEFINITION. The code assigner: ASSIGN (42_code_assigner.md). -/

namespace Sys2Proof.Machine

/-- The walk from a node toward the root (R141): the newest bit, nearest the root, enters at position 0. A walk of more
than `MAX_NODES` levels has met a node twice and never ends. DESIGN CHOICE (log 7): it stops by name. -/
def walkUp (s : State) : Nat → NodeIx → BitVec 255 → BitVec 8 → Except Fault (BitVec 255 × BitVec 8)
  | fuel, n, bits, len => do
    let nd ← readNode s n
    if nd.parent = nil then .ok (bits, len)
    else
      match fuel with
      | 0 => .error .walkWithoutRoot
      | fuel + 1 => do
        let p ← readNode s nd.parent
        let bit : BitVec 255 := if p.right = n then 1 else 0
        walkUp s fuel nd.parent ((bits <<< 1) ||| bit) (len + 1)

/-- ASSIGN of one leaf (R141, R142): its code and length, and its share of `TOTBITS` (R144). -/
def assignLeaf (s : State) : Except Fault State := do
  let (bits, len) ← walkUp s maxNodes s.li 0 0
  let leaf ← readNode s s.li
  .ok { writeCode s leaf.sym ⟨bits, len⟩ with
    totbits := s.totbits + leaf.freq * len.setWidth 40
    li := s.li + 1 }

/-- ASSIGN (R141): one leaf, or the exit to SERH. -/
def execAssign (s : State) : Host.Outcome State Fault Refusal :=
  finish (if s.li < s.n then assignLeaf s else .ok { s with phase := .serh })

end Sys2Proof.Machine
end

