-- ==== Sys2Proof/Machine/Commands.lean ====
section
/-! DEFINITION. The two commands, as a host write of their code to `CMD`, and IDLE (45_commands_and_sequencer.md). -/

namespace Sys2Proof.Machine

/-- COMPRESS written to `CMD` (R191, R192, R195): ignored while busy, rejected when the length does not fit the buffer or
the header field, else a run from FCLR. -/
def execCompress (s : State) : Host.Outcome State Fault Refusal := .next <|
  if s.busy then s
  else if s.params.inCap < s.inLen then reject .invalidInput s
  else if 2 ^ 32 ≤ s.inLen.toNat then reject .invalidInput s
  else { accept .compress s with origLen := s.inLen.setWidth 32, phase := .fclr }

/-- DECOMPRESS written to `CMD` (R191, R193, R195): ignored while busy, rejected when the length does not fit the buffer,
else a run from PARSE. -/
def execDecompress (s : State) : Host.Outcome State Fault Refusal := .next <|
  if s.busy then s
  else if s.params.inCap < s.inLen then reject .invalidInput s
  else { accept .decompress s with phase := .parse }

/-- A reserved code written to `CMD` (R191, R194, R195): ignored while busy, else rejected whatever `IN_LEN` is. -/
def reservedCommand (s : State) : State := if s.busy then s else reject .invalidInput s

/-- IDLE (R196): nothing; the sequencer does not step. -/
def execIdle (s : State) : Host.Outcome State Fault Refusal := .next s

end Sys2Proof.Machine
end

