-- ==== Sys2Proof/Machine/Frequency.lean ====
section
/-! DEFINITION. Frequency table and queue seeding: FCLR, FCNT, SEED (40_frequency_table.md). -/

namespace Sys2Proof.Machine

/-- The byte values 0 to 255, ascending. -/
def allBytes : List Byte := (List.range alpha).map (BitVec.ofNat 8)

/-- The frequency table with every entry 0. -/
def clearedFt : List (Nat × BitVec 32) := (List.range alpha).map (·, 0#32)

/-- FCLR (R111). -/
def execFclr (s : State) : Host.Outcome State Fault Refusal :=
  .next { s.setFt clearedFt with ipos := 0, phase := .fcnt }

/-- FCNT (R112): counts one input byte, or exits to SEED. -/
def execFcnt (s : State) : Host.Outcome State Fault Refusal := finish <|
  if s.ipos.toNat < s.origLen.toNat then do
    let b ← inRead s s.ipos.toNat
    .ok { writeFt s b (readFt s b + 1) with ipos := s.ipos + 1 }
  else
    .ok { s with phase := .seed }

/-- The seed order of two symbols (R114): descending by frequency, then ascending by symbol value. -/
def seedBefore (ft : Byte → BitVec 32) (a b : Byte) : Bool := ft b < ft a || (ft a = ft b && a < b)

/-- Puts a symbol before the first one it precedes in the seed order. -/
def seedInsert (ft : Byte → BitVec 32) (a : Byte) : List Byte → List Byte
  | [] => [a]
  | b :: rest => if seedBefore ft a b then a :: b :: rest else b :: seedInsert ft a rest

/-- The symbols present, in seed order (R113, R114). How the hardware sorts is not specified (93 U24;
DEDUCED, log 17). -/
def seedOrder (ft : Byte → BitVec 32) : List Byte :=
  (allBytes.filter fun b => 0#32 < ft b).foldr (seedInsert ft) []

/-- The leaves of a list of symbols, from index `j` on: each becomes `NODE[j]` and `Q[j]` (R113). A list of symbols in
seed order has at most 256, so every index exists. -/
def seedLeaves (ft : Byte → BitVec 32) : List Byte → Nat → State → State
  | [], _, s => s
  | b :: rest, j, s =>
    seedLeaves ft rest (j + 1)
      ((s.setNode (sparseSet s.node j (leafNode ((ft b).setWidth 40) b))).setQ (sparseSet s.q j (BitVec.ofNat 9 j)))

/-- SEED (R113, R116): N = 0 goes straight to SERH. -/
def execSeed (s : State) : Host.Outcome State Fault Refusal :=
  let order := seedOrder (readFt s)
  let count := BitVec.ofNat 9 order.length
  .next { seedLeaves (readFt s) order 0 s with
    n := count
    qn := count
    nn := count
    totbits := 0
    li := 0
    phase := if order.length = 0 then .serh else .merge }

end Sys2Proof.Machine
end

