-- ==== Sys2Proof/Machine/Serializer.lean ====
section
/-! DEFINITION. The tree serializer and deserializer: SERH, SERL, PARSE, LOADL (43_tree_serializer.md). -/

namespace Sys2Proof.Machine

/-- The header of a COMPRESS (R152). -/
def writeHeader (s : State) : Except Fault State := do
  let s ← outWrite32 s 0 s.origLen
  outWrite s 4 (leafCountByte s.n)

/-- SERH (R151, R152): the capacity check, before anything is written, then the header. -/
def execSerh (s : State) : Host.Outcome State Fault Refusal := finish <|
  if s.params.outCap.toNat < need s then
    .ok (raiseError .capacityExceeded s)
  else do
    let s ← writeHeader s
    .ok { s with opos := 5, li := 0, phase := .serl }

/-- The record of a leaf (R153): the low 32 bits of its frequency, exact in a COMPRESS (R87). -/
def leafRecordOf (nd : Node) : LeafRecord := ⟨nd.freq.setWidth 32, nd.sym⟩

/-- SERL (R153): one leaf record, or the exit to PACK. -/
def execSerl (s : State) : Host.Outcome State Fault Refusal := finish <|
  if s.li < s.n then do
    let nd ← readNode s s.li
    let s ← writeLeaf s s.opos.toNat (leafRecordOf nd)
    .ok { s with opos := s.opos + 5, li := s.li + 1 }
  else
    .ok { s with ipos := 0, acc := 0, accn := 0, phase := .pack }

/-- PARSE after the header has been read (R158, R157, R159, in this order). -/
def parseChecks (nm1 : Byte) (s : State) : State :=
  if s.origLen = 0#32 then
    complete .ok 0 { s with n := leafCountOf s.origLen nm1 }
  else
    let s := { s with n := leafCountOf s.origLen nm1 }
    if s.inLen.toNat < 5 + 5 * s.n.toNat then raiseError .corruptStream s
    else if s.params.outCap.toNat < s.origLen.toNat then raiseError .capacityExceeded s
    else { s with li := 0, phase := .loadl }

/-- PARSE (R156, then `parseChecks`). -/
def execParse (s : State) : Host.Outcome State Fault Refusal := finish <|
  if s.inLen.toNat < 5 then
    .ok (raiseError .corruptStream s)
  else do
    let len ← inRead32 s 0
    let nm1 ← inRead s 4
    .ok (parseChecks nm1 { s with origLen := len })

/-- LOADL (R160): one leaf record, taken as stored and not checked (R161), or the exit to MERGE. -/
def execLoadl (s : State) : Host.Outcome State Fault Refusal := finish <|
  if s.li < s.n then do
    let l ← readLeaf s s.li.toNat
    let s ← writeNode s s.li (leafNode (l.freq.setWidth 40) l.sym)
    let s ← writeQ s s.li.toNat s.li
    .ok { s with li := s.li + 1 }
  else
    .ok { s with
      qn := s.n
      nn := s.n
      opos := 0
      bitpos := BitVec.ofNat 41 (8 * (5 + 5 * s.n.toNat))
      phase := .merge }

end Sys2Proof.Machine
end

