-- ==== Sys2Proof/Machine/TreeBuilder.lean ====
section
/-! DEFINITION. The tree builder: MERGE (41_tree_builder.md). -/

namespace Sys2Proof.Machine

/-- The insertion scan (R122, R124, R125): from place `i` toward the head, shifting the entries of strictly smaller
frequency one place toward the tail. Answers the free place. -/
def insertScan (f : Freq) : Nat → State → Except Fault (Nat × State)
  | 0, s => .ok (0, s)
  | i + 1, s => do
    let k ← readQ s i
    let nd ← readNode s k
    if nd.freq < f then do
      let s ← writeQ s (i + 1) k
      insertScan f i s
    else
      .ok (i + 1, s)

/-- One merge (R122, first branch): `a` is the tail entry and becomes the left child, `b` the one before it (R123). -/
def mergeOnce (s : State) : Except Fault State := do
  let a ← readQ s (s.qn.toNat - 1)
  let b ← readQ s (s.qn.toNat - 2)
  let p := s.nn
  let na ← readNode s a
  let nb ← readNode s b
  let f := na.freq + nb.freq
  let s ← writeNode s p ⟨f, 0x00#8, a, b, nil⟩
  let s ← setParent s a p
  let s ← setParent s b p
  let s := s.setCounts (s.nn + 1) (s.qn - 2)
  let (i, s) ← insertScan f s.qn.toNat s
  let s ← writeQ s i p
  .ok (s.setCounts s.nn (s.qn + 1))

/-- The exit of MERGE (R122, second branch): the one entry left is the root. DEDUCED (log 13): an empty queue, which no run
has here, exits too. -/
def mergeExit (s : State) : Except Fault State := do
  let r ← readQ s 0
  .ok { s with
    root := r
    cur := r
    phase := match s.mode with
      | .compress => .assign
      | .decompress => .unpk }

/-- MERGE (R122). -/
def execMerge (s : State) : Host.Outcome State Fault Refusal :=
  finish (if 2 ≤ s.qn.toNat then mergeOnce s else mergeExit s)

end Sys2Proof.Machine
end

