-- ==== Sys2Proof/Machine/Dispatch.lean ====
section
/-! DEFINITION. One arm per instruction of the opcode table: which meaning it has. -/

namespace Sys2Proof.Machine

def exec (i : Instr) (s : State) : Host.Outcome State Fault Refusal :=
  match i with
  | .compress => Sys2Proof.Machine.execCompress s
  | .decompress => Sys2Proof.Machine.execDecompress s
  | .idle => Sys2Proof.Machine.execIdle s
  | .fclr => Sys2Proof.Machine.execFclr s
  | .fcnt => Sys2Proof.Machine.execFcnt s
  | .seed => Sys2Proof.Machine.execSeed s
  | .merge => Sys2Proof.Machine.execMerge s
  | .assign => Sys2Proof.Machine.execAssign s
  | .serh => Sys2Proof.Machine.execSerh s
  | .serl => Sys2Proof.Machine.execSerl s
  | .pack => Sys2Proof.Machine.execPack s
  | .flush => Sys2Proof.Machine.execFlush s
  | .parse => Sys2Proof.Machine.execParse s
  | .loadl => Sys2Proof.Machine.execLoadl s
  | .unpk => Sys2Proof.Machine.execUnpk s

end Sys2Proof.Machine
end

