-- ==== Sys2Proof/Machine/HostPort.lean ====
section
/-! DEFINITION. Who moves next, the sequencer's step, and the host's accesses (10_state.md R21 to R23, 45 R191, R195, R196,
70_reset_and_hazards.md R250, R260, R261). -/

namespace Sys2Proof.Machine

/-- The micro-operation the sequencer's next step executes (45 R196): the one `PHASE` holds while `BUSY` = 1, and none,
that is IDLE, while `BUSY` = 0 (DEDUCED, log 1). -/
def selected (s : State) : Except DecodeError Instr :=
  if s.busy then decodePhase (phaseCode s.phase) else .ok .idle

/-- The sequencer's step (45 R196). -/
def sequencerStep (s : State) : Host.Outcome State Fault Refusal :=
  match selected s with
  | .ok i => exec i s
  | .error _ => .fault .reservedPhase

/-- A host write of `c` to `CMD` (10_state.md R23, 45 R191, R194, R195). -/
def commandWrite (c : Byte) (s : State) : Host.Outcome State Fault Refusal :=
  match decodeCmd c with
  | .ok i => exec i s
  | .error _ => .next (reservedCommand s)

/-- A host write of a register (10_state.md R21; 70 R260): `CMD` and `IN_LEN` take it, the second only while `BUSY` = 0;
the others, and the numbers that do not exist, ignore it. DEDUCED (log 14): a register takes the low bits of its width. -/
def registerWrite (hr : BitVec 3) (v : BitVec 38) (s : State) : Host.Outcome State Fault Refusal :=
  if hr = 0#3 then commandWrite (v.setWidth 8) (if s.busy then s else newTurn s)
  else if hr = 2#3 then .next (if s.busy then s else { s with inLen := v })
  else .next s

/-- The host's read returns `v`. -/
def answer (v : BitVec 38) (s : State) : State := { s with hostData := v }

/-- DESIGN CHOICE (log 5): the host's read returns a value the spec leaves unspecified, the same until the next turn. -/
def answerFree (w : Nat) (site : FreeSite) (s : State) : State :=
  answer ((Config.free w site s.turn 0).setWidth 38) s

/-- A host read of a register (10_state.md R21, R23): `CMD` and the numbers that do not exist read 0; `ORIG_LEN` and
`NLEAF` read unspecified values while `BUSY` = 1 (70 R260). -/
def registerRead (hr : BitVec 3) (s : State) : State :=
  if hr = 1#3 then answer ((statusByte s).setWidth 38) s
  else if hr = 2#3 then answer s.inLen s
  else if hr = 3#3 then answer s.outLen s
  else if hr = 4#3 then if s.busy then answerFree 32 .hostOrigLen s else answer (s.origLen.setWidth 38) s
  else if hr = 5#3 then if s.busy then answerFree 9 .hostNleaf s else answer (s.n.setWidth 38) s
  else answer 0 s

/-- Where a host read of `OUT[a]` has a value (70 R260, R263; 60 R229): no run, no failure, and below `OUT_LEN`. -/
def outReadable (s : State) (a : Addr) : Bool := !s.busy && s.err = .ok && a < s.outLen

/-- What the host sees at `OUT[a]`: the byte where it has a value; else the byte the host itself wrote there, or an
unspecified one (DESIGN CHOICE, log 5). It is a function of the state, so that `OUT` is plain storage and a read of it
repeated gives the same byte (20_memory.md R67). -/
def outSeen (s : State) (a : Addr) : Byte :=
  if outReadable s a then outByte s a.toNat
  else (sparseGet s.hostOut a.toNat).getD (Config.free 8 .hostOutByte s.turn a.toNat)

/-- A host read of `OUT[a]`. -/
def outputRead (a : Addr) (s : State) : State := answer ((outSeen s a).setWidth 38) s

/-- A host write of `OUT[a]` (70 R260). -/
def outputWrite (a : Addr) (b : Byte) (s : State) : State :=
  (s.setOutMem (sparseSet s.outMem a.toNat b)).setHostOut (sparseSet s.hostOut a.toNat b)

/-- The host leaves the sequencer a turn: during a run that is a new turn (log 5). -/
def grantTurn (s : State) : State := if s.busy then newTurn s else s

/-- DESIGN CHOICE (log 16): FEEDBACK becomes these accesses when its turn comes (30_encoding.md R99): it copies
`OUT[0..OUT_LEN-1]` to `IN`, then sets `IN_LEN`. -/
def feedbackMoves (s : State) : List HostMove :=
  (List.range s.outLen.toNat).map (fun i => .writeIn (BitVec.ofNat 38 i) (outByte s i)) ++ [.writeReg 2#3 s.outLen]

/-- One turn of the host, its move already taken off the list (70 R260, R261). DESIGN CHOICE (log 7): an address beyond a
buffer stops by name. DEDUCED (log 8): so does a write of a buffer during a run. DESIGN CHOICE (log 2): the polling reads of
`STATUS` leave `hostData` as it is. -/
def hostTurn (m : HostMove) (s : State) : Host.Outcome State Fault Refusal :=
  match m with
  | .yield => sequencerStep (grantTurn s)
  | .await => if s.done then .next s else sequencerStep (grantTurn { s with host := .await :: s.host })
  | .readReg hr => .next (registerRead hr s)
  | .writeReg hr v => registerWrite hr v s
  | .readIn a =>
    if a < s.params.inCap then .next (answer ((inByte s a.toNat).setWidth 38) s) else .fault .hostAddressOutOfRange
  | .writeIn a b =>
    if s.busy then .refused .hostBufferWriteWhileBusy
    else if a < s.params.inCap then .next (s.setInMem (sparseSet s.inMem a.toNat b))
    else .fault .hostAddressOutOfRange
  | .readOut a => if a < s.params.outCap then .next (outputRead a s) else .fault .hostAddressOutOfRange
  | .writeOut a b =>
    if s.busy then .refused .hostBufferWriteWhileBusy
    else if a < s.params.outCap then .next (outputWrite a b s)
    else .fault .hostAddressOutOfRange
  | .feedback =>
    if s.busy then .refused .hostBufferWriteWhileBusy else .next { s with host := feedbackMoves s ++ s.host }
  | .reset => .next (applyReset s)

/-- DESIGN CHOICE (log 2): one step of the machine is the host's oldest pending move, or the sequencer's step when it has
none. -/
def machineStep (s : State) : Host.Outcome State Fault Refusal :=
  match s.host with
  | [] => sequencerStep s
  | m :: rest => hostTurn m { s with host := rest }

/-- DESIGN CHOICE (log 11, log 12): the state in which the next step runs the instruction of a table word. A command is the
host's next move, a write to `CMD` with the block idle; a micro-operation is selected by `PHASE` with the block busy and
the host making no move. A reserved `PHASE` code cannot be placed: `PHASE` has no such value (30_encoding.md R86). -/
def placeWord (s : State) (nbits w : Nat) : State :=
  match (decodeTableWord nbits w).bind phaseOf with
  | some .idle => { s with busy := false, phase := .idle, host := [] }
  | some p => { s with busy := true, phase := p, host := [] }
  | none =>
    if nbits ≤ 4 then s
    else { s with busy := false, phase := .idle, host := .writeReg 0#3 (BitVec.ofNat 38 w) :: s.host }

end Sys2Proof.Machine
end

