-- ==== Sys2Proof/Machine/Codec.lean ====
section
/-! DEFINITION. The two commands as functions from an input buffer to a result (45_commands_and_sequencer.md R200, R201),
and the conforming buffers (30_encoding.md R100): the clear form that the stepping machine is compared with. -/

namespace Sys2Proof.Machine

/-- A code tree (00_scope.md R15): leaves carry a symbol, internal nodes two subtrees; both a frequency. -/
inductive CodeTree where
  | leaf (freq : Nat) (sym : Byte)
  | node (freq : Nat) (left right : CodeTree)
deriving DecidableEq, Repr

/-- A tree's frequency (10_state.md R31). -/
def treeFreq : CodeTree → Nat
  | .leaf f _ => f
  | .node f _ _ => f

/-- Insertion into the queue, listed from the tail: past the trees of strictly smaller frequency (41 R122, R124). -/
def treeInsert (t : CodeTree) : List CodeTree → List CodeTree
  | [] => [t]
  | u :: rest => if treeFreq u < treeFreq t then u :: treeInsert t rest else t :: u :: rest

/-- One merge of the queue, listed from the tail: the first popped becomes the left child (41 R122, R123). -/
def treeMerge : List CodeTree → List CodeTree
  | a :: b :: rest => treeInsert (.node (treeFreq a + treeFreq b) a b) rest
  | q => q

/-- `k` merges. -/
def treeMerges : Nat → List CodeTree → List CodeTree
  | 0, q => q
  | k + 1, q => treeMerges k (treeMerge q)

/-- The tree MERGE builds from a leaf list in insertion order, head first (41 R120, R122); none for no leaf (R116). -/
def buildTree (leaves : List CodeTree) : Option CodeTree := (treeMerges leaves.length leaves.reverse).head?

/-- The leaves of a tree, left to right, with their depths. -/
def treeLeaves : Nat → CodeTree → List (Nat × Byte × Nat)
  | d, .leaf f b => [(f, b, d)]
  | d, .node _ l r => treeLeaves (d + 1) l ++ treeLeaves (d + 1) r

/-- The code of a symbol: its path from the root in stream order, false for left and true for right (42 R142). DEDUCED
(log 19): of two leaves with the symbol, the leftmost's. -/
def codeOf (b : Byte) : CodeTree → Option (List Bool)
  | .leaf _ c => if c = b then some [] else none
  | .node _ l r =>
    match codeOf b l with
    | some path => some (false :: path)
    | none => (codeOf b r).map (true :: ·)

/-- The frequency table of a buffer (40 R110). -/
def countTable (input : List Byte) (b : Byte) : BitVec 32 := BitVec.ofNat 32 (input.count b)

/-- The leaf records of a buffer, in seed order (40 R113, R114). -/
def leafRecords (input : List Byte) : List LeafRecord :=
  (seedOrder (countTable input)).map fun b => ⟨countTable input b, b⟩

/-- The leaf of a record. -/
def recordTree (l : LeafRecord) : CodeTree := .leaf l.freq.toNat l.sym

/-- The bitstream of a buffer: its symbols' codes in order, with nothing between (30_encoding.md R92). -/
def codeStream (t : CodeTree) (input : List Byte) : List Bool := input.flatMap fun b => (codeOf b t).getD []

/-- Byte `j` of a packed bitstream: stream bit `8j + i` at position `i`, 0 beyond the end (30_encoding.md R93, R95). -/
def packedByte (stream : List Bool) (j : Nat) : Byte :=
  BitVec.ofNat 8 ((List.range 8).foldr (fun i acc => (stream.getD (8 * j + i) false).toNat + 2 * acc) 0)

/-- A bitstream packed eight to a byte, the last byte zero-filled at the top (30_encoding.md R93, R95). -/
def packStream (stream : List Bool) : List Byte := (List.range (ceil8 stream.length)).map (packedByte stream)

/-- The bits of a byte string in stream order (30_encoding.md R93). -/
def bitsOf (bytes : List Byte) : List Bool := bytes.flatMap fun b => (List.range 8).map b.getLsbD

/-- The compressed buffer of an input (45 R200, 30_encoding.md R88). -/
def compressBytes (input : List Byte) : List Byte :=
  let leaves := leafRecords input
  let header := encodeHdr ⟨BitVec.ofNat 32 input.length, BitVec.ofNat 8 (leaves.length - 1)⟩
  match buildTree (leaves.map recordTree) with
  | none => header
  | some t => header ++ leaves.flatMap encodeLeaf ++ packStream (codeStream t input)

/-- The result of an accepted COMPRESS (45 R200): the error code and the output bytes. -/
def compressResult (outCap : Nat) (input : List Byte) : ErrCode × List Byte :=
  if outCap < (compressBytes input).length then (.capacityExceeded, []) else (.ok, compressBytes input)

/-- One code off the front of a bitstream: the leaf's symbol and the bits after it (30_encoding.md R96, 44 R176). -/
def walkTree : CodeTree → List Bool → Option (Byte × List Bool)
  | .leaf _ b, bits => some (b, bits)
  | .node _ _ _, [] => none
  | .node _ l r, bit :: bits => if bit then walkTree r bits else walkTree l bits

/-- `k` symbols off the front of a bitstream; none when it runs out (44 R176, R178). -/
def unpackSymbols (t : CodeTree) : Nat → List Bool → Option (List Byte)
  | 0, _ => some []
  | k + 1, bits =>
    match walkTree t bits with
    | none => none
    | some (b, rest) => (unpackSymbols t k rest).map (b :: ·)

/-- The symbols of a buffer whose header and leaf records have been read (45 R201, case 5). -/
def payloadSymbols (origlen : Nat) (leaves : List LeafRecord) (payload : List Byte) : Option (List Byte) :=
  (buildTree (leaves.map recordTree)).bind fun t => unpackSymbols t origlen (bitsOf payload)

/-- The result of an accepted DECOMPRESS (45 R201), its cases in the order they are tested. -/
def decompressResult (outCap : Nat) (buffer : List Byte) : ErrCode × List Byte :=
  match decodeHdr buffer with
  | .error _ => (.corruptStream, [])
  | .ok (h, rest) =>
    if h.origlen = 0#32 then (.ok, [])
    else
      match decodeLeaves (leafCountOf h.origlen h.nm1).toNat rest with
      | .error _ => (.corruptStream, [])
      | .ok (leaves, payload) =>
        if outCap < h.origlen.toNat then (.capacityExceeded, [])
        else
          match payloadSymbols h.origlen.toNat leaves payload with
          | some out => (.ok, out)
          | none => (.corruptStream, [])

/-- A conforming compressed buffer (30_encoding.md R100). -/
def conforming (buffer : List Byte) : Bool :=
  match decodeHdr buffer with
  | .error _ => false
  | .ok (h, rest) =>
    if h.origlen = 0#32 then true
    else
      match decodeLeaves (leafCountOf h.origlen h.nm1).toNat rest with
      | .error _ => false
      | .ok (leaves, payload) => (payloadSymbols h.origlen.toNat leaves payload).isSome

end Sys2Proof.Machine
end

