-- ==== Sys2Proof/Machine/HostScript.lean ====
section
/-! DEFINITION. The host notation, the block's "assembler" (30_encoding.md R98, R99): each statement's expansion into host
accesses, and what EXPECT asserts. -/

namespace Sys2Proof.Machine

/-- What EXPECT says of the host-visible state after a completion (R99): `OUT_LEN`, `ERR` and the first bytes of `OUT`. -/
structure Expectation where
  err : ErrCode
  outLen : Addr
  out : List Byte
deriving DecidableEq, Repr

/-- The statements of the host notation (R98, R99). -/
inductive Stmt where
  | compress
  | decompress
  | input (bytes : List Byte)
  | inputText (text : String)
  | inlen (k : Addr)
  | cmdraw (v : Byte)
  | feedback
  | expect (e : Expectation)
  | reset
deriving DecidableEq, Repr

/-- A write of `CMD`, then the polling of `STATUS` (R98). -/
def issue (c : Byte) : List HostMove := [.writeReg 0#3 (c.setWidth 38), .await]

/-- INPUT (R99): the bytes into `IN` from address 0, then their number into `IN_LEN`. -/
def inputMoves (bytes : List Byte) : List HostMove :=
  bytes.mapIdx (fun i b => .writeIn (BitVec.ofNat 38 i) b) ++ [.writeReg 2#3 (BitVec.ofNat 38 bytes.length)]

/-- The ASCII codes of a text (R99). DESIGN CHOICE (log 22): of a character outside ASCII, to which the spec gives no code,
the low eight bits of its code point. -/
def asciiBytes (text : String) : List Byte := text.toList.map fun c => BitVec.ofNat 8 c.toNat

/-- The host accesses a statement stands for (R98, R99). EXPECT is an assertion and no access; FEEDBACK reads when its
turn comes, and is replaced by its accesses then (`feedbackMoves`). -/
def expand : Stmt → List HostMove
  | .compress => issue 0x01#8
  | .decompress => issue 0x02#8
  | .input bytes => inputMoves bytes
  | .inputText text => inputMoves (asciiBytes text)
  | .inlen k => [.writeReg 2#3 k]
  | .cmdraw v => issue v
  | .feedback => [.feedback]
  | .expect _ => []
  | .reset => [.reset]

/-- The state with a program of the notation as the host's pending moves (log 12). -/
def load (s : State) (program : List Stmt) : State := { s with host := s.host ++ program.flatMap expand }

/-- EXPECT holds of a state (R99). DESIGN CHOICE (log 21): R99 says "after completion", and program P7 of
95_test_vectors.md uses EXPECT after a reset, with `DONE` = 0; here it needs `BUSY` = 0 alone, when the notation issues
its statements. It says nothing of a byte beyond `OUT_LEN`, which has no value (70 R263). -/
def meets (s : State) (e : Expectation) : Bool :=
  !s.busy && s.err = e.err && s.outLen = e.outLen && decide (e.out.length ≤ s.outLen.toNat) &&
    (List.range e.out.length).map (outByte s) = e.out

end Sys2Proof.Machine
end

