-- ==== Sys2Proof/Safety.lean ====
section
/-! DEFINITION. What counts as a safe state and a safe run, in the terms the statements use: the invariants of the spec,
the runs of a command, and what bounds a run. -/

namespace Sys2Proof.Machine

/-! ## Invariants -/

/-- The phases of a COMPRESS alone (30_encoding.md R85). -/
def compressOnly : Phase → Bool
  | .fclr | .fcnt | .seed | .assign | .serh | .serl | .pack | .flush => true
  | .idle | .merge | .parse | .loadl | .unpk => false

/-- The phases of a DECOMPRESS alone (30_encoding.md R85). -/
def decompressOnly : Phase → Bool
  | .parse | .loadl | .unpk => true
  | .idle | .fclr | .fcnt | .seed | .merge | .assign | .serh | .serl | .pack | .flush => false

/-- The control state is legal: `PHASE` = IDLE exactly when `BUSY` = 0 (10_state.md R25), `BUSY` and `DONE` never both 1
(R22), `ERR` and `OUT_LEN` are 0 during a run (45 R191), a failure is a completion without output (60 R226), and the
phase fits `MODE` (10_state.md R26). -/
abbrev ControlOk (s : State) : Prop :=
  (s.busy = true ↔ s.phase ≠ .idle) ∧ ¬(s.busy = true ∧ s.done = true) ∧
  (s.busy = true → s.err = .ok ∧ s.outLen = 0) ∧ (s.err ≠ .ok → s.done = true ∧ s.outLen = 0) ∧
  (compressOnly s.phase = true → s.mode = .compress) ∧ (decompressOnly s.phase = true → s.mode = .decompress)

/-- Every table and buffer is in canonical form, with no entry that does not exist (10_state.md R30 to R37). -/
abbrev CanonicalOk (s : State) : Prop :=
  sparseWf alpha s.ft ∧ sparseWf maxNodes s.node ∧ sparseWf maxQueue s.q ∧ sparseWf alpha s.code ∧
  Memory.wf s.params.inCap.toNat s.inMem ∧ Memory.wf s.params.outCap.toNat s.outMem ∧
  Memory.wf s.params.outCap.toNat s.hostOut

/-- The bits of `ACC` at positions at or above `ACCN` are 0 (10_state.md R35, 44 R172). -/
abbrev AccOk (s : State) : Prop := s.acc.toNat < 2 ^ s.accn.toNat

/-- The state MERGE starts from (41 R120): N leaves, 1 ≤ N ≤ 256, queued in index order. -/
def MergeEntry (s : State) : Prop :=
  1 ≤ s.n.toNat ∧ s.n.toNat ≤ 256 ∧ s.qn = s.n ∧ s.nn = s.n ∧
  ∀ j < s.n.toNat, queueAt s j = BitVec.ofNat 9 j ∧
    ∃ freq sym, nodeAt s (BitVec.ofNat 9 j) = leafNode freq sym

/-- The tree of N leaves (10_state.md R38, 41 R127), in terms of the nodes' fields. -/
def TreeOk (s : State) : Prop :=
  let last := 2 * s.n.toNat - 2
  let at' := fun i : Nat => nodeAt s (BitVec.ofNat 9 i)
  s.nn.toNat = last + 1 ∧ s.root.toNat = last ∧ (at' last).parent = nil ∧
  (∀ i < last, ∃ p, s.n.toNat ≤ p ∧ p ≤ last ∧ (at' i).parent = BitVec.ofNat 9 p ∧
    (((at' p).left = BitVec.ofNat 9 i ∧ (at' p).right ≠ BitVec.ofNat 9 i) ∨
      ((at' p).left ≠ BitVec.ofNat 9 i ∧ (at' p).right = BitVec.ofNat 9 i))) ∧
  (∀ i, s.n.toNat ≤ i → i ≤ last →
    (at' i).left.toNat < i ∧ (at' i).right.toNat < i ∧ (at' i).left ≠ (at' i).right) ∧
  (∀ i < s.n.toNat, (at' i).left = nil ∧ (at' i).right = nil)

/-- The queue is in descending order of frequency (10_state.md R33, 41 R128). -/
def QueueOrdered (s : State) : Prop :=
  ∀ i, i + 1 < s.qn.toNat → (nodeAt s (queueAt s (i + 1))).freq ≤ (nodeAt s (queueAt s i)).freq

/-- The branches from the root to a node, in stream order (42 R141, R142): true where the node is its parent's right
child. -/
inductive RootPath (s : State) : NodeIx → List Bool → Prop where
  | root (n : NodeIx) (exists' : n.toNat < maxNodes) (top : (nodeAt s n).parent = nil) : RootPath s n []
  | down (n : NodeIx) (path : List Bool) (exists' : n.toNat < maxNodes) (below : (nodeAt s n).parent ≠ nil)
      (above : RootPath s (nodeAt s n).parent path) :
      RootPath s n (path ++ [decide ((nodeAt s (nodeAt s n).parent).right = n)])

/-! ## What a micro-operation leaves alone, and the bitstream -/

/-- Every byte of `OUT` outside `len` bytes from `a` reads as before. -/
def OutSameOutside (a len : Nat) (s t : State) : Prop := ∀ c, c < a ∨ a + len ≤ c → outByte t c = outByte s c

/-- The number of stream bits up to the accumulator's last (44 R172), counted from address 0 of `OUT`. -/
def streamPos (s : State) : Nat := 8 * s.opos.toNat + s.accn.toNat

/-- Stream bit `p`, at or after the first bit of the accumulator, once the code `bits` is appended (44 R171, R172). -/
def appendedBit (s : State) (bits : BitVec 255) (p : Nat) : Bool :=
  if p < streamPos s then s.acc.getLsbD (p - 8 * s.opos.toNat) else bits.getLsbD (p - streamPos s)

/-! ## Runs -/

/-- `k` steps, stopping at the first fault or refusal: the host's run of `Sys2Proof.core`, on the model's own types. -/
def runFor : Nat → State → Host.Outcome State Fault Refusal
  | 0, s => .next s
  | k + 1, s =>
    match step s with
    | .next t => runFor k t
    | .fault r => .fault r
    | .refused r => .refused r

/-- A block that waits for a command, whatever its tables, buffers and registers hold. -/
def Waiting (s : State) : Prop := s.busy = false ∧ s.phase = .idle

/-- The state with a write of `c` to `CMD` as the host's one pending move. -/
def issued (s : State) (c : Byte) : State := { s with host := [.writeReg 0#3 (c.setWidth 38)] }

/-- The end of a run (00_scope.md R14, 60 R226). -/
def Completed (t : State) : Prop := t.busy = false ∧ t.done = true ∧ t.phase = .idle

/-- The input of a command: `IN[0..IN_LEN-1]`. -/
def inputOf (s : State) : List Byte := (List.range s.inLen.toNat).map (inByte s)

/-- The output of a command: `OUT[0..OUT_LEN-1]`. -/
def outputOf (s : State) : List Byte := (List.range s.outLen.toNat).map (outByte s)

/-! ## What bounds a run (45 R198) -/

/-- How far a phase is from the end of its run: the transitions of 45 R197 other than "stay" go down. -/
def phaseRank : Phase → Nat
  | .idle => 0
  | .flush | .unpk => 1
  | .pack => 2
  | .serl => 3
  | .serh => 4
  | .assign => 5
  | .merge => 6
  | .seed | .loadl => 7
  | .fcnt | .parse => 8
  | .fclr => 9

/-- How far a looping micro-operation's cursor is from its bound (45 R198). -/
def cursorRank (s : State) : Nat :=
  match s.phase with
  | .fcnt | .pack => s.origLen.toNat - s.ipos.toNat
  | .merge => s.qn.toNat
  | .assign | .serl | .loadl => s.n.toNat - s.li.toNat
  | .unpk => (s.params.outCap.toNat - s.opos.toNat) + (inBits s - s.bitpos.toNat)
  | .idle | .fclr | .seed | .serh | .flush | .parse => 0

/-- The measure every step of a run lowers. -/
def rank (s : State) : Nat := phaseRank s.phase * 2 ^ 43 + cursorRank s

/-! ## What the host may do -/

/-- A host move that keeps the host's duties in a state (70_reset_and_hazards.md R260) and names bytes that exist. -/
def hostMoveOk (s : State) : HostMove → Bool
  | .writeIn a _ => !s.busy && a < s.params.inCap
  | .writeOut a _ => !s.busy && a < s.params.outCap
  | .readIn a => a < s.params.inCap
  | .readOut a => a < s.params.outCap
  | .feedback => !s.busy
  | .yield | .await | .readReg _ | .writeReg _ _ | .reset => true

end Sys2Proof.Machine
end

