-- ==== Sys2Proof/Certificates/Slice0/Obligations.lean ====
section
/-! DEFINITION. The statements about the machine, for the provers. Each docstring names the rules it formalises. -/

open Sys2Proof Sys2Proof.Machine

/-! ## Encoding -/

/-- 30_encoding.md R82 to R86: the two command codes, every other byte reserved; the code each micro-operation has is the
one `PHASE` holds for it, the codes above 0xC are reserved, and `PHASE` never holds one. -/
def Obligations.CodesDecode : Prop :=
  (decodeCmd 0x01#8 = .ok .compress ∧ decodeCmd 0x02#8 = .ok .decompress ∧
    ∀ c : Byte, c ≠ 0x01#8 → c ≠ 0x02#8 → decodeCmd c = .error (.reservedCommand c)) ∧
  (∀ p : BitVec 4, (∃ i, decodePhase p = .ok i) ↔ p.toNat ≤ 12) ∧
  (∀ p : Phase, ∃ i, decodePhase (phaseCode p) = .ok i ∧ phaseOf i = some p)

/-- 30_encoding.md R82, R85: for every row of the two encoding tables, the word written out from it decodes to its
instruction, and the code `PHASE` holds for each of its values is the table's. -/
def Obligations.WrittenWordsDecode : Prop :=
  decodeBytes .cmd8 [0b00000001#8] = .ok (.compress, []) ∧ decodeBytes .cmd8 [0b00000010#8] = .ok (.decompress, []) ∧
    decodeBytes .phase4 [0b0000#8] = .ok (.idle, []) ∧ decodeBytes .phase4 [0b0001#8] = .ok (.fclr, []) ∧
    decodeBytes .phase4 [0b0010#8] = .ok (.fcnt, []) ∧ decodeBytes .phase4 [0b0011#8] = .ok (.seed, []) ∧
    decodeBytes .phase4 [0b0100#8] = .ok (.merge, []) ∧ decodeBytes .phase4 [0b0101#8] = .ok (.assign, []) ∧
    decodeBytes .phase4 [0b0110#8] = .ok (.serh, []) ∧ decodeBytes .phase4 [0b0111#8] = .ok (.serl, []) ∧
    decodeBytes .phase4 [0b1000#8] = .ok (.pack, []) ∧ decodeBytes .phase4 [0b1001#8] = .ok (.flush, []) ∧
    decodeBytes .phase4 [0b1010#8] = .ok (.parse, []) ∧ decodeBytes .phase4 [0b1011#8] = .ok (.loadl, []) ∧
    decodeBytes .phase4 [0b1100#8] = .ok (.unpk, []) ∧
    phaseCode .idle = 0x0#4 ∧ phaseCode .fclr = 0x1#4 ∧ phaseCode .fcnt = 0x2#4 ∧
    phaseCode .seed = 0x3#4 ∧ phaseCode .merge = 0x4#4 ∧ phaseCode .assign = 0x5#4 ∧
    phaseCode .serh = 0x6#4 ∧ phaseCode .serl = 0x7#4 ∧ phaseCode .pack = 0x8#4 ∧
    phaseCode .flush = 0x9#4 ∧ phaseCode .parse = 0xA#4 ∧ phaseCode .loadl = 0xB#4 ∧
    phaseCode .unpk = 0xC#4

/-- 30_encoding.md R81, R84: an instruction's words decode to it, whatever follows them. -/
def Obligations.InstructionDecodesFromItsWords : Prop :=
  ∀ (i : Instr) (rest : List Byte), decodeBytes i.format (encode i ++ rest) = .ok (i, rest)

/-- 30_encoding.md R89, R90: byte `k` of a header or of a leaf record is bits `8k+7 : 8k` of its 40-bit view, and the
records read back. -/
def Obligations.RecordsRoundTrip : Prop :=
  (∀ (h : HdrRecord) (rest : List Byte), decodeHdr (encodeHdr h ++ rest) = .ok (h, rest)) ∧
    (∀ (l : LeafRecord) (rest : List Byte), decodeLeaf (encodeLeaf l ++ rest) = .ok (l, rest)) ∧
    (∀ (h : HdrRecord) (k : Fin 5), (encodeHdr h).getD k 0 = ((hdrView h) >>> (8 * k.val)).setWidth 8) ∧
    (∀ (l : LeafRecord) (k : Fin 5), (encodeLeaf l).getD k 0 = ((leafView l) >>> (8 * k.val)).setWidth 8)

/-- 30_encoding.md R88, R90: a leaf list of any length reads back from its records, in order, whatever follows. -/
def Obligations.LeafListRoundTrip : Prop :=
  ∀ (leaves : List LeafRecord) (rest : List Byte),
    decodeLeaves leaves.length (leaves.flatMap encodeLeaf ++ rest) = .ok (leaves, rest)

/-- 30_encoding.md R91: the leaf count goes through its byte for every count a header can carry, the byte is 0x00 for
the count 0 and is not interpreted when the original is empty, and a decoded count is never above 256. -/
def Obligations.LeafCountRoundTrip : Prop :=
  (∀ (origlen : BitVec 32) (n : BitVec 9), wellFormedLeafCount origlen n.toNat = true →
      leafCountOf origlen (leafCountByte n) = n) ∧
    leafCountByte 0#9 = 0x00#8 ∧ (∀ n : BitVec 9, 1 ≤ n.toNat → n.toNat ≤ 256 → (leafCountByte n).toNat = n.toNat - 1) ∧
    (∀ nm1 : Byte, leafCountOf 0#32 nm1 = 0#9) ∧
    (∀ (origlen : BitVec 32) (nm1 : Byte), origlen ≠ 0#32 → (leafCountOf origlen nm1).toNat = nm1.toNat + 1)

/-! ## The codec as functions -/

/-- 45 R202 on the functions of R200 and R201: for every input that fits the header's length field, decompressing the
compressed buffer gives the input back. -/
def Obligations.CodecRoundTrip : Prop :=
  ∀ (input : List Byte) (outCap : Nat), input.length < 2 ^ 32 → input.length ≤ outCap →
    decompressResult outCap (compressBytes input) = (.ok, input)

/-- 42 R145: in any tree, the code of one symbol is no prefix of another's. -/
def Obligations.CodesArePrefixFree : Prop :=
  ∀ (t : CodeTree) (a b : Byte) (p r : List Bool), a ≠ b → codeOf a t = some p → codeOf b t = some r → ¬ p <+: r

/-- 41 R131: in the tree of a COMPRESS, a leaf of strictly higher frequency is no deeper. -/
def Obligations.HigherFrequencyIsNoDeeper : Prop :=
  ∀ (input : List Byte) (t : CodeTree), input.length < 2 ^ 32 →
    buildTree ((leafRecords input).map recordTree) = some t →
      ∀ f b d f' b' d', (f, b, d) ∈ treeLeaves 0 t → (f', b', d') ∈ treeLeaves 0 t → f' < f → d ≤ d'

/-- 41 R120, R127, R130: for any leaf list, sorted or not, the builder gives a tree of exactly those leaves, whose
frequency is their sum; only the empty list gives none. -/
def Obligations.BuilderKeepsTheLeaves : Prop :=
  ∀ leaves : List LeafRecord,
    (buildTree (leaves.map recordTree) = none ↔ leaves = []) ∧
      ∀ t, buildTree (leaves.map recordTree) = some t →
        ((treeLeaves 0 t).map fun x => (x.1, x.2.1)).Perm (leaves.map fun l => (l.freq.toNat, l.sym)) ∧
          treeFreq t = (leaves.map fun l => l.freq.toNat).sum

/-- 30_encoding.md R100: a decompression succeeds exactly on the conforming buffers whose original fits the output. -/
def Obligations.SucceedsExactlyOnConforming : Prop :=
  ∀ (outCap : Nat) (buffer : List Byte),
    (decompressResult outCap buffer).1 = .ok ↔
      conforming buffer = true ∧ ∃ h rest, decodeHdr buffer = .ok (h, rest) ∧ h.origlen.toNat ≤ outCap

/-! ## The step -/

/-- 45 R196: while `BUSY` = 1 and the host makes no move, or yields, the step is the micro-operation `PHASE` selects;
while `BUSY` = 0 it does nothing. A yield begins a new turn for the host's reads (log 5). -/
def Obligations.StepRunsSelectedMicroOperation : Prop :=
  (∀ (s : State) (i : Instr), s.host = [] → s.busy = true → decodePhase (phaseCode s.phase) = .ok i →
      step s = exec i s) ∧
    (∀ (s : State) (i : Instr) (rest : List HostMove), s.host = .yield :: rest → s.busy = true →
      decodePhase (phaseCode s.phase) = .ok i → step s = exec i (newTurn { s with host := rest })) ∧
    (∀ s : State, s.host = [] → s.busy = false → step s = .next s)

/-- 10_state.md R23, 45 R191: a host write to `CMD` runs the command its low byte encodes; while `BUSY` = 0 it begins a new
turn for the host's reads (log 5). -/
def Obligations.CommandWriteRunsCommand : Prop :=
  ∀ (s : State) (v : BitVec 38) (rest : List HostMove) (i : Instr), s.host = .writeReg 0#3 v :: rest →
    decodeCmd (v.setWidth 8) = .ok i →
      step s = exec i (if s.busy then { s with host := rest } else newTurn { s with host := rest })

/-- 30_encoding.md R98: polling ends when `DONE` = 1; until then the sequencer steps and the host polls again. -/
def Obligations.PollingWaitsForDone : Prop :=
  ∀ (s : State) (rest : List HostMove), s.host = .await :: rest →
    (s.done = true → step s = .next { s with host := rest }) ∧
      (s.done = false → s.busy = true → ∀ i, decodePhase (phaseCode s.phase) = .ok i →
        step s = exec i (newTurn s))

/-! ## Commands -/

/-- 45 R191, R192: COMPRESS is accepted when the length fits the buffer and the header field, and rejected otherwise;
R195: while busy it does nothing. -/
def Obligations.CompressAcceptance : Prop :=
  (∀ s : State, s.busy = false → s.inLen ≤ s.params.inCap → s.inLen.toNat < 2 ^ 32 →
      exec .compress s = .next { s with
        err := .ok, outLen := 0, done := false, busy := true, mode := .compress,
        origLen := s.inLen.setWidth 32, phase := .fclr }) ∧
    (∀ s : State, s.busy = false → s.params.inCap < s.inLen ∨ 2 ^ 32 ≤ s.inLen.toNat →
      exec .compress s = .next { s with err := .invalidInput, outLen := 0, done := true }) ∧
    (∀ s : State, s.busy = true → exec .compress s = .next s)

/-- 45 R191, R193: DECOMPRESS is accepted when the length fits the buffer, with no limit from the header field, and
rejected otherwise; R195: while busy it does nothing. -/
def Obligations.DecompressAcceptance : Prop :=
  (∀ s : State, s.busy = false → s.inLen ≤ s.params.inCap →
      exec .decompress s = .next { s with
        err := .ok, outLen := 0, done := false, busy := true, mode := .decompress, phase := .parse }) ∧
    (∀ s : State, s.busy = false → s.params.inCap < s.inLen →
      exec .decompress s = .next { s with err := .invalidInput, outLen := 0, done := true }) ∧
    (∀ s : State, s.busy = true → exec .decompress s = .next s)

/-- 45 R191: the whole of command acceptance, as the step of a host write of any byte to `CMD` while `BUSY` = 0: every
field of the spec's state after it. -/
def Obligations.CommandAcceptance : Prop :=
  ∀ (s : State) (c : Byte), s.busy = false →
    let rejected := { s with err := .invalidInput, outLen := 0, done := true }
    let accepted := { s with err := .ok, outLen := 0, done := false, busy := true }
    ∃ t, step (issued s c) = .next t ∧
      { t with host := s.host, turn := s.turn, hostOut := s.hostOut } =
        if c ≠ 0x01#8 ∧ c ≠ 0x02#8 then rejected
        else if s.params.inCap < s.inLen then rejected
        else if c = 0x01#8 ∧ 2 ^ 32 ≤ s.inLen.toNat then rejected
        else if c = 0x01#8 then
          { accepted with mode := .compress, origLen := s.inLen.setWidth 32, phase := .fclr }
        else { accepted with mode := .decompress, phase := .parse }

/-- 45 R196: IDLE does nothing. -/
def Obligations.IdleDoesNothing : Prop := ∀ s : State, exec .idle s = .next s

/-- 60_exceptions.md R226: what a completion writes, and that nothing else changes; an error leaves no output. -/
def Obligations.CompletionSequence : Prop :=
  (∀ (s : State) (k : Addr), complete .ok k s =
      { s with err := .ok, outLen := k, busy := false, done := true, phase := .idle }) ∧
    (∀ (s : State) (e : ErrCode) (k : Addr), e ≠ .ok → complete e k s =
      { s with err := e, outLen := 0, busy := false, done := true, phase := .idle }) ∧
    (∀ (s : State) (e : ErrCode), raiseError e s = complete e 0 s)

/-! ## Frequency table -/

/-- 40 R111: FCLR. -/
def Obligations.FclrClearsTheTable : Prop :=
  ∀ s : State, ∃ t, exec .fclr s = .next t ∧ (∀ b, readFt t b = 0#32) ∧
    t = { s with ft := t.ft, ipos := 0, phase := .fcnt }

/-- 40 R112: FCNT. -/
def Obligations.FcntCountsOneByte : Prop :=
  (∀ s : State, s.ipos.toNat < s.origLen.toNat → s.ipos < s.inLen → s.inLen ≤ s.params.inCap →
      ∃ t, exec .fcnt s = .next t ∧ readFt t (inByte s s.ipos.toNat) = readFt s (inByte s s.ipos.toNat) + 1 ∧
        (∀ b, b ≠ inByte s s.ipos.toNat → readFt t b = readFt s b) ∧
        t = { s with ft := t.ft, ipos := s.ipos + 1 }) ∧
    (∀ s : State, s.origLen.toNat ≤ s.ipos.toNat → exec .fcnt s = .next { s with phase := .seed })

/-- 40 R110: from FCLR to the end of FCNT, the table holds the number of occurrences of each byte value. -/
def Obligations.FrequencyTableCountsTheInput : Prop :=
  ∀ s : State, s.busy = true → s.host = [] → s.phase = .fclr → s.origLen.toNat = s.inLen.toNat →
    s.inLen ≤ s.params.inCap →
      ∃ t, runFor (s.inLen.toNat + 2) s = .next t ∧ t.phase = .seed ∧
        (∀ b, (readFt t b).toNat = (inputOf s).count b) ∧
        t = { s with ft := t.ft, ipos := t.ipos, phase := .seed }

/-- 40 R113, R114, R116: SEED makes one leaf of each symbol present, in seed order, and queues them in that order. -/
def Obligations.SeedMakesLeavesInSeedOrder : Prop :=
  ∀ s : State, ∃ (t : State) (order : List Byte), exec .seed s = .next t ∧
    order.Pairwise (fun a b => readFt s b < readFt s a ∨ (readFt s a = readFt s b ∧ a < b)) ∧
    (∀ b, b ∈ order ↔ readFt s b ≠ 0#32) ∧
    t.n.toNat = order.length ∧ t.qn = t.n ∧ t.nn = t.n ∧
    (∀ (j : Nat) (h : j < order.length),
      nodeAt t (BitVec.ofNat 9 j) = leafNode ((readFt s order[j]).setWidth 40) order[j] ∧
        queueAt t j = BitVec.ofNat 9 j) ∧
    (∀ i : NodeIx, t.n ≤ i → nodeAt t i = nodeAt s i) ∧ (∀ j, t.n.toNat ≤ j → queueAt t j = queueAt s j) ∧
    t = { s with
      n := t.n, qn := t.qn, nn := t.nn, node := t.node, q := t.q, totbits := 0, li := 0,
      phase := if order = [] then .serh else .merge }

/-! ## Tree builder -/

/-- 41 R122, R123, R124: one merge. `i` is the place of the new node: after the last entry whose frequency is not below
its own, the entries behind it shifted one place toward the tail. -/
def Obligations.MergeJoinsTheTwoTailEntries : Prop :=
  ∀ s : State, 2 ≤ s.qn.toNat → s.qn.toNat ≤ maxQueue → s.nn.toNat < maxNodes →
    (∀ j < s.qn.toNat, (queueAt s j).toNat < maxNodes ∧ queueAt s j ≠ s.nn) →
      let a := queueAt s (s.qn.toNat - 1)
      let b := queueAt s (s.qn.toNat - 2)
      let f := (nodeAt s a).freq + (nodeAt s b).freq
      ∃ (t : State) (i : Nat), exec .merge s = .next t ∧
        nodeAt t s.nn = ⟨f, 0x00#8, a, b, nil⟩ ∧
        nodeAt t a = { nodeAt s a with parent := s.nn } ∧ nodeAt t b = { nodeAt s b with parent := s.nn } ∧
        (∀ k, k ≠ s.nn → k ≠ a → k ≠ b → nodeAt t k = nodeAt s k) ∧
        t.nn = s.nn + 1 ∧ t.qn.toNat = s.qn.toNat - 1 ∧ i + 2 ≤ s.qn.toNat ∧
        (∀ j < i, queueAt t j = queueAt s j) ∧ queueAt t i = s.nn ∧
        (∀ j, i < j → j + 1 < s.qn.toNat → queueAt t j = queueAt s (j - 1)) ∧
        (0 < i → f ≤ (nodeAt s (queueAt s (i - 1))).freq) ∧
        (∀ j, i ≤ j → j + 2 < s.qn.toNat → (nodeAt s (queueAt s j)).freq < f) ∧
        t = { s with node := t.node, q := t.q, nn := t.nn, qn := t.qn }

/-- 41 R122, R126: with one entry left MERGE exits, to ASSIGN in a COMPRESS and to UNPK in a DECOMPRESS. -/
def Obligations.MergeExitTakesTheRoot : Prop :=
  ∀ s : State, s.qn = 1#9 → exec .merge s = .next { s with
    root := queueAt s 0, cur := queueAt s 0,
    phase := if s.mode = .compress then .assign else .unpk }

/-- 41 R128: a merge keeps the queue in descending order, and the two entries it takes are two of lowest frequency. -/
def Obligations.MergeKeepsTheQueueOrdered : Prop :=
  ∀ s t : State, 2 ≤ s.qn.toNat → s.qn.toNat ≤ maxQueue → s.nn.toNat < maxNodes →
    (∀ j < s.qn.toNat, (queueAt s j).toNat < maxNodes ∧ queueAt s j ≠ s.nn) →
    QueueOrdered s → exec .merge s = .next t →
      QueueOrdered t ∧
        ∀ j, j + 2 < s.qn.toNat →
          (nodeAt s (queueAt s (s.qn.toNat - 1))).freq ≤ (nodeAt s (queueAt s j)).freq ∧
            (nodeAt s (queueAt s (s.qn.toNat - 2))).freq ≤ (nodeAt s (queueAt s j)).freq

/-- 41 R120, R127, 10_state.md R38: from any leaf list, sorted or not (R130), N steps of MERGE build the tree of N leaves
and exit; the root's frequency is the sum of the leaves' (in its 40 bits). -/
def Obligations.MergeRunBuildsTheTree : Prop :=
  ∀ s : State, s.busy = true → s.host = [] → s.phase = .merge → MergeEntry s →
    ∃ t, runFor s.n.toNat s = .next t ∧ t.phase ≠ .merge ∧ t.qn = 1#9 ∧ t.root = queueAt t 0 ∧ t.cur = t.root ∧
      TreeOk t ∧
      (nodeAt t t.root).freq = ((List.range s.n.toNat).map fun i => (nodeAt s (BitVec.ofNat 9 i)).freq).sum ∧
      (∀ i < s.n.toNat, (nodeAt t (BitVec.ofNat 9 i)).freq = (nodeAt s (BitVec.ofNat 9 i)).freq ∧
        (nodeAt t (BitVec.ofNat 9 i)).sym = (nodeAt s (BitVec.ofNat 9 i)).sym)

/-! ## Code assigner -/

/-- 42 R141, R142: ASSIGN of one leaf: its code is its path from the root, the root-adjacent branch at bit 0; after the
last leaf it exits to SERH. -/
def Obligations.AssignRecordsTheRootPath : Prop :=
  (∀ s : State, s.n ≤ s.li → exec .assign s = .next { s with phase := .serh }) ∧
  ∀ (s : State) (path : List Bool), s.li < s.n → RootPath s s.li path → path.length ≤ 255 →
    ∃ t, exec .assign s = .next t ∧
      (readCode t (nodeAt s s.li).sym).len.toNat = path.length ∧
      (∀ i, (readCode t (nodeAt s s.li).sym).bits.getLsbD i = path.getD i false) ∧
      (∀ b, b ≠ (nodeAt s s.li).sym → readCode t b = readCode s b) ∧
      t = { s with
        code := t.code, totbits := s.totbits + (nodeAt s s.li).freq * BitVec.ofNat 40 path.length, li := s.li + 1 }

/-! ## Serializer and deserializer -/

/-- 43 R151, R152: SERH: the capacity check, then the header. -/
def Obligations.SerhChecksThenWritesHeader : Prop :=
  (∀ s : State, s.params.outCap.toNat < 5 + 5 * s.n.toNat + (s.totbits.toNat + 7) / 8 →
      exec .serh s = .next { s with
        err := .capacityExceeded, outLen := 0, busy := false, done := true, phase := .idle }) ∧
    (∀ s : State, 5 + 5 * s.n.toNat + (s.totbits.toNat + 7) / 8 ≤ s.params.outCap.toNat →
      ∃ t, exec .serh s = .next t ∧
        (List.range 5).map (outByte t) =
          encodeHdr ⟨s.origLen, if s.n = 0#9 then 0x00#8 else (s.n - 1#9).setWidth 8⟩ ∧
        OutSameOutside 0 5 s t ∧ t = { s with outMem := t.outMem, opos := 5, li := 0, phase := .serl })

/-- 43 R153: SERL: one leaf record at `OPOS`, or the exit to PACK. -/
def Obligations.SerlWritesOneRecord : Prop :=
  (∀ s : State, s.li < s.n → s.li.toNat < maxNodes → s.opos.toNat + 5 ≤ s.params.outCap.toNat →
      ∃ t, exec .serl s = .next t ∧
        (List.range 5).map (fun k => outByte t (s.opos.toNat + k)) =
          encodeLeaf ⟨(nodeAt s s.li).freq.setWidth 32, (nodeAt s s.li).sym⟩ ∧
        OutSameOutside s.opos.toNat 5 s t ∧
        t = { s with outMem := t.outMem, opos := s.opos + 5, li := s.li + 1 }) ∧
    (∀ s : State, s.n ≤ s.li → exec .serl s = .next { s with ipos := 0, acc := 0, accn := 0, phase := .pack })

/-- 43 R156, R158, R157, R159: PARSE, its tests in that order, for every state with `IN_LEN` within `IN_CAP`. -/
def Obligations.ParseChecksInOrder : Prop :=
  ∀ s : State, s.inLen ≤ s.params.inCap →
    let len := join32 (inByte s 0) (inByte s 1) (inByte s 2) (inByte s 3)
    let count := (inByte s 4).setWidth 9 + 1#9
    exec .parse s = .next
      (if s.inLen.toNat < 5 then
        { s with err := .corruptStream, outLen := 0, busy := false, done := true, phase := .idle }
      else if len = 0#32 then
        { s with origLen := len, n := 0, err := .ok, outLen := 0, busy := false, done := true, phase := .idle }
      else if s.inLen.toNat < 5 + 5 * ((inByte s 4).toNat + 1) then
        { s with
          origLen := len, n := count, err := .corruptStream, outLen := 0, busy := false, done := true, phase := .idle }
      else if s.params.outCap.toNat < len.toNat then
        { s with
          origLen := len, n := count, err := .capacityExceeded, outLen := 0, busy := false, done := true,
          phase := .idle }
      else { s with origLen := len, n := count, li := 0, phase := .loadl })

/-- 43 R160: LOADL: one leaf record, as stored, or the exit to MERGE. -/
def Obligations.LoadlReadsOneRecord : Prop :=
  (∀ s : State, s.li < s.n → s.li.toNat < maxQueue → 5 + 5 * s.li.toNat + 5 ≤ s.inLen.toNat →
      s.inLen ≤ s.params.inCap →
      let a := 5 + 5 * s.li.toNat
      ∃ t, exec .loadl s = .next t ∧
        nodeAt t s.li = ⟨(join32 (inByte s a) (inByte s (a + 1)) (inByte s (a + 2)) (inByte s (a + 3))).setWidth 40,
          inByte s (a + 4), nil, nil, nil⟩ ∧
        queueAt t s.li.toNat = s.li ∧ (∀ i, i ≠ s.li → nodeAt t i = nodeAt s i) ∧
        (∀ j, j ≠ s.li.toNat → queueAt t j = queueAt s j) ∧
        t = { s with node := t.node, q := t.q, li := s.li + 1 }) ∧
    (∀ s : State, s.n ≤ s.li → exec .loadl s = .next { s with
      qn := s.n, nn := s.n, opos := 0, bitpos := BitVec.ofNat 41 (8 * (5 + 5 * s.n.toNat)), phase := .merge })

/-! ## Bit packer and unpacker -/

/-- 44 R171, R172: PACK appends the code of one input byte to the stream, writing each byte whole as it fills. Stream
bit `p` lands in byte `p div 8` at bit `p mod 8`, and the bits of the accumulator above `ACCN` stay 0. -/
def Obligations.PackAppendsOneCode : Prop :=
  (∀ s : State, s.ipos.toNat < s.origLen.toNat → s.ipos < s.inLen → s.inLen ≤ s.params.inCap → AccOk s →
      let c := readCode s (inByte s s.ipos.toNat)
      (streamPos s + c.len.toNat) / 8 ≤ s.params.outCap.toNat →
      ∃ t, exec .pack s = .next t ∧ streamPos t = streamPos s + c.len.toNat ∧
        (∀ j i, s.opos.toNat ≤ j → j < t.opos.toNat → i < 8 →
          (outByte t j).getLsbD i = appendedBit s c.bits (8 * j + i)) ∧
        (∀ i < t.accn.toNat, t.acc.getLsbD i = appendedBit s c.bits (8 * t.opos.toNat + i)) ∧ AccOk t ∧
        OutSameOutside s.opos.toNat (t.opos.toNat - s.opos.toNat) s t ∧
        t = { s with outMem := t.outMem, opos := t.opos, acc := t.acc, accn := t.accn, ipos := s.ipos + 1 }) ∧
    (∀ s : State, s.origLen.toNat ≤ s.ipos.toNat → exec .pack s = .next { s with phase := .flush })

/-- 44 R173: FLUSH writes the partial last byte, if there is one, and completes. -/
def Obligations.FlushWritesTheLastByte : Prop :=
  (∀ s : State, s.accn = 0#3 → exec .flush s = .next { s with
      err := .ok, outLen := s.opos, busy := false, done := true, phase := .idle }) ∧
    (∀ s : State, s.accn ≠ 0#3 → s.opos < s.params.outCap →
      ∃ t, exec .flush s = .next t ∧ outByte t s.opos.toNat = s.acc ∧ OutSameOutside s.opos.toNat 1 s t ∧
        t = { s with
          outMem := t.outMem, opos := s.opos + 1, err := .ok, outLen := s.opos + 1, busy := false, done := true,
          phase := .idle })

/-- 44 R176: UNPK, its four cases in the order they are tested. -/
def Obligations.UnpkDoesOneOfFour : Prop :=
  (∀ s : State, s.opos.toNat = s.origLen.toNat → exec .unpk s = .next { s with
      err := .ok, outLen := s.origLen.setWidth 38, busy := false, done := true, phase := .idle }) ∧
    (∀ s : State, s.opos.toNat ≠ s.origLen.toNat → s.cur.toNat < maxNodes → (nodeAt s s.cur).left = nil →
      s.opos < s.params.outCap →
      ∃ t, exec .unpk s = .next t ∧ outByte t s.opos.toNat = (nodeAt s s.cur).sym ∧
        OutSameOutside s.opos.toNat 1 s t ∧
        t = { s with outMem := t.outMem, opos := s.opos + 1, cur := s.root }) ∧
    (∀ s : State, s.opos.toNat ≠ s.origLen.toNat → s.cur.toNat < maxNodes → (nodeAt s s.cur).left ≠ nil →
      8 * s.inLen.toNat ≤ s.bitpos.toNat → exec .unpk s = .next { s with
        err := .corruptStream, outLen := 0, busy := false, done := true, phase := .idle }) ∧
    (∀ s : State, s.opos.toNat ≠ s.origLen.toNat → s.cur.toNat < maxNodes → (nodeAt s s.cur).left ≠ nil →
      s.bitpos.toNat < 8 * s.inLen.toNat → s.inLen ≤ s.params.inCap → exec .unpk s = .next { s with
        cur := if (inByte s (s.bitpos.toNat / 8)).getLsbD (s.bitpos.toNat % 8) then (nodeAt s s.cur).right
          else (nodeAt s s.cur).left,
        bitpos := s.bitpos + 1 })

/-! ## Frames -/

/-- 20_memory.md R60, 10_state.md R24, R27: what an instruction that answers a next state leaves alone, for every
instruction: `IN`, `IN_LEN`, the capacities and the host's own fields; and `OUT` for those that do not write it. -/
def Obligations.EveryInstructionFrame : Prop :=
  ∀ (i : Instr) (s t : State), exec i s = .next t →
    (t.inMem = s.inMem ∧ t.inLen = s.inLen ∧ t.params = s.params ∧ t.host = s.host ∧ t.hostData = s.hostData ∧
      t.epoch = s.epoch ∧ t.turn = s.turn ∧ t.hostOut = s.hostOut) ∧
    (i ∉ [.serh, .serl, .pack, .flush, .unpk] → t.outMem = s.outMem) ∧
    (i ∉ [.fclr, .fcnt] → t.ft = s.ft) ∧ (i ∉ [.seed, .merge, .loadl] → t.node = s.node ∧ t.q = s.q) ∧
    (i ≠ .assign → t.code = s.code)

/-- 45 R191; 40 R111, R112, R113; 41 R122; 42 R141: what the commands and the micro-operations that build tables change:
each equals its start state but for the registers and tables its rule writes. -/
def Obligations.CommandAndTableFrames : Prop :=
  ∀ s t : State,
    (exec .compress s = .next t → t = { s with
      err := t.err, outLen := t.outLen, done := t.done, busy := t.busy, mode := t.mode, origLen := t.origLen,
      phase := t.phase }) ∧
    (exec .decompress s = .next t → t = { s with
      err := t.err, outLen := t.outLen, done := t.done, busy := t.busy, mode := t.mode, phase := t.phase }) ∧
    (exec .idle s = .next t → t = s) ∧
    (exec .fclr s = .next t → t = { s with ft := t.ft, ipos := t.ipos, phase := t.phase }) ∧
    (exec .fcnt s = .next t → t = { s with ft := t.ft, ipos := t.ipos, phase := t.phase }) ∧
    (exec .seed s = .next t → t = { s with
      n := t.n, node := t.node, q := t.q, qn := t.qn, nn := t.nn, totbits := t.totbits, li := t.li,
      phase := t.phase }) ∧
    (exec .merge s = .next t → t = { s with
      node := t.node, q := t.q, nn := t.nn, qn := t.qn, root := t.root, cur := t.cur, phase := t.phase }) ∧
    (exec .assign s = .next t → t = { s with
      code := t.code, totbits := t.totbits, li := t.li, phase := t.phase })

/-- 43 R151 to R153, R156 to R160: what the serializer and the deserializer change: each equals its start state but for
what its rule writes, and `OUT` outside the bytes stored is as before. -/
def Obligations.SerializerFrames : Prop :=
  ∀ s t : State,
    (exec .serh s = .next t →
      t = { s with
        outMem := t.outMem, opos := t.opos, li := t.li, phase := t.phase, err := t.err, outLen := t.outLen,
        busy := t.busy, done := t.done } ∧ OutSameOutside 0 5 s t ∧
      (s.params.outCap.toNat < need s → t.outMem = s.outMem)) ∧
    (exec .serl s = .next t →
      t = { s with
        outMem := t.outMem, opos := t.opos, li := t.li, ipos := t.ipos, acc := t.acc, accn := t.accn,
        phase := t.phase } ∧ OutSameOutside s.opos.toNat 5 s t ∧ (s.n ≤ s.li → t.outMem = s.outMem)) ∧
    (exec .parse s = .next t → t = { s with
      origLen := t.origLen, n := t.n, li := t.li, phase := t.phase, err := t.err, outLen := t.outLen,
      busy := t.busy, done := t.done }) ∧
    (exec .loadl s = .next t → t = { s with
      node := t.node, q := t.q, li := t.li, qn := t.qn, nn := t.nn, opos := t.opos, bitpos := t.bitpos,
      phase := t.phase })

/-- 44 R171, R173, R176: what the packer and the unpacker change: each equals its start state but for what its rule
writes, and `OUT` outside the bytes stored is as before. -/
def Obligations.PackerFrames : Prop :=
  ∀ s t : State,
    (exec .pack s = .next t →
      t = { s with
        outMem := t.outMem, opos := t.opos, acc := t.acc, accn := t.accn, ipos := t.ipos, phase := t.phase } ∧
      s.opos.toNat ≤ t.opos.toNat ∧ OutSameOutside s.opos.toNat (t.opos.toNat - s.opos.toNat) s t) ∧
    (exec .flush s = .next t →
      t = { s with
        outMem := t.outMem, opos := t.opos, err := t.err, outLen := t.outLen, busy := t.busy, done := t.done,
        phase := t.phase } ∧
      OutSameOutside s.opos.toNat (if s.accn = 0#3 then 0 else 1) s t) ∧
    (exec .unpk s = .next t →
      t = { s with
        outMem := t.outMem, opos := t.opos, cur := t.cur, bitpos := t.bitpos, err := t.err, outLen := t.outLen,
        busy := t.busy, done := t.done, phase := t.phase } ∧
      OutSameOutside s.opos.toNat
        (if s.opos.toNat ≠ s.origLen.toNat ∧ (nodeAt s s.cur).left = nil then 1 else 0) s t)

/-! ## The host's accesses and reset -/

/-- 10_state.md R22, 60 R221: the fields of `STATUS` and the number of each error code; R26: the bit of `MODE`; 60 R232: the
event line. -/
def Obligations.StatusLayout : Prop :=
  (∀ s : State, (statusByte s).getLsbD 0 = s.busy ∧ (statusByte s).getLsbD 1 = s.done ∧
    (statusByte s).extractLsb' 2 3 = errBits s.err ∧ (statusByte s).extractLsb' 5 3 = 0#3 ∧ doneLine s = s.done) ∧
    errBits .ok = 0#3 ∧ errBits .invalidInput = 1#3 ∧ errBits .corruptStream = 2#3 ∧ errBits .capacityExceeded = 3#3 ∧
    modeBit .compress = 0#1 ∧ modeBit .decompress = 1#1

/-- 10_state.md R21, R23, 70 R260: what a host read of each register returns, and that it changes nothing else; `CMD` and
the numbers that do not exist read 0. While `BUSY` = 1 a read of `ORIG_LEN` or `NLEAF` returns some value (log 5). -/
def Obligations.RegisterReads : Prop :=
  (∀ (s : State) (hr : BitVec 3) (rest : List HostMove), s.host = .readReg hr :: rest →
    (s.busy = false ∨ hr ≠ 4#3 ∧ hr ≠ 5#3) →
      step s = .next { s with
        host := rest
        hostData :=
          if hr = 1#3 then (statusByte s).setWidth 38
          else if hr = 2#3 then s.inLen
          else if hr = 3#3 then s.outLen
          else if hr = 4#3 then s.origLen.setWidth 38
          else if hr = 5#3 then s.n.setWidth 38
          else 0 }) ∧
    (∀ (s : State) (hr : BitVec 3) (rest : List HostMove), s.host = .readReg hr :: rest → s.busy = true →
      (hr = 4#3 ∨ hr = 5#3) →
        ∃ v, step s = .next { s with host := rest, hostData := v })

/-- 10_state.md R21, 45 R195: while `BUSY` = 1 a host write of any value to any register changes nothing but the host's
own list of moves; while `BUSY` = 0 a write of `IN_LEN` takes, and one of a read-only register or of a number that does not
exist is ignored. -/
def Obligations.RegisterWrites : Prop :=
  ∀ (s : State) (hr : BitVec 3) (v : BitVec 38) (rest : List HostMove), s.host = .writeReg hr v :: rest →
    (s.busy = true → step s = .next { s with host := rest }) ∧
    (s.busy = false → hr ≠ 0#3 →
      step s = .next { s with host := rest, inLen := if hr = 2#3 then v else s.inLen })

/-- 10_state.md R36, R37, 20_memory.md R67, 70 R260, R261: a host write of a byte of `IN` or `OUT` while `BUSY` = 0 is what
the buffer then holds there, and what the host then sees there, every other byte as before; a host read of a byte changes
nothing but what the host has read, and repeated gives the same; of `IN`, and of `OUT` below `OUT_LEN` after a success, it
gives the byte the buffer holds. A write of `IN` or `OUT` while `BUSY` = 1, and FEEDBACK, which writes `IN`, is no move of
the model (log 8). -/
def Obligations.HostBufferAccesses : Prop :=
  (∀ (s : State) (a : Addr) (b : Byte) (rest : List HostMove), s.busy = false → a < s.params.inCap →
      s.host = .writeIn a b :: rest →
        ∃ t, step s = .next t ∧ inByte t a.toNat = b ∧ (∀ c, c ≠ a.toNat → inByte t c = inByte s c) ∧
          t = { s with host := rest, inMem := t.inMem }) ∧
    (∀ (s : State) (a : Addr) (b : Byte) (rest : List HostMove), s.busy = false → a < s.params.outCap →
      s.host = .writeOut a b :: rest →
        ∃ t, step s = .next t ∧ outByte t a.toNat = b ∧ OutSameOutside a.toNat 1 s t ∧ outSeen t a = b ∧
          (∀ c, c ≠ a → outSeen t c = outSeen s c) ∧
          t = { s with host := rest, outMem := t.outMem, hostOut := t.hostOut }) ∧
    (∀ (s : State) (a : Addr) (rest : List HostMove), a < s.params.inCap → s.host = .readIn a :: rest →
      step s = .next { s with host := rest, hostData := (inByte s a.toNat).setWidth 38 }) ∧
    (∀ (s : State) (a : Addr) (rest : List HostMove), a < s.params.outCap → s.host = .readOut a :: rest →
      step s = .next { s with host := rest, hostData := (outSeen s a).setWidth 38 } ∧
        (s.busy = false → s.err = .ok → a < s.outLen → outSeen s a = outByte s a.toNat)) ∧
    (∀ (s : State) (a : Addr) (rest : List HostMove), a < s.params.outCap →
      s.host = .readOut a :: .readOut a :: rest →
        ∃ t u, step s = .next t ∧ step t = .next u ∧ u.hostData = t.hostData ∧ u = { t with host := rest }) ∧
    (∀ (s : State) (m : HostMove) (rest : List HostMove), s.busy = true → s.host = m :: rest →
      ((∃ a b, m = .writeIn a b) ∨ (∃ a b, m = .writeOut a b) ∨ m = .feedback) →
        step s = .refused .hostBufferWriteWhileBusy)

/-- 30_encoding.md R99: INPUT leaves its bytes as the input, and FEEDBACK the output as the input. -/
def Obligations.HostNotationMovesData : Prop :=
  (∀ (s : State) (bytes : List Byte), s.busy = false → s.host = [] → bytes.length ≤ s.params.inCap.toNat →
      ∃ t, runFor (bytes.length + 1) (load s [.input bytes]) = .next t ∧ inputOf t = bytes ∧
        t = { s with inLen := t.inLen, inMem := t.inMem }) ∧
    (∀ s : State, s.busy = false → s.host = [] → s.outLen ≤ s.params.inCap →
      ∃ t, runFor (s.outLen.toNat + 2) (load s [.feedback]) = .next t ∧ inputOf t = outputOf s ∧
        t = { s with inLen := t.inLen, inMem := t.inMem })

/-- 70 R250, R251, R253, 10_state.md R39: the reset event, from any state, leaves the reset value in every register the
spec names, and signals no completion. -/
def Obligations.ResetEventRestoresResetValues : Prop :=
  ∀ (s : State) (rest : List HostMove), s.host = .reset :: rest →
    ∃ t, step s = .next t ∧ t.busy = false ∧ t.done = false ∧ t.err = .ok ∧ t.phase = .idle ∧ t.mode = .compress ∧
      t.inLen = 0 ∧ t.outLen = 0 ∧ t.origLen = 0 ∧ t.n = 0 ∧ t.ipos = 0 ∧ t.opos = 0 ∧ t.li = 0 ∧ t.nn = 0 ∧
      t.qn = 0 ∧ t.bitpos = 0 ∧ t.totbits = 0 ∧ t.acc = 0 ∧ t.accn = 0 ∧ t.root = 511#9 ∧ t.cur = 511#9 ∧
      statusByte t = 0x00#8 ∧ t.params = s.params

/-- 10_state.md R39: the values of `State.reset` that the spec gives. -/
def Obligations.ResetValues : Prop :=
  let s := State.reset
  statusByte s = 0x00#8 ∧ phaseCode s.phase = 0#4 ∧ modeBit s.mode = 0#1 ∧ s.inLen = 0 ∧ s.outLen = 0 ∧
    s.origLen = 0 ∧ s.n = 0 ∧ s.ipos = 0 ∧ s.opos = 0 ∧ s.li = 0 ∧ s.nn = 0 ∧ s.qn = 0 ∧ s.bitpos = 0 ∧
    s.totbits = 0 ∧ s.acc = 0 ∧ s.accn = 0 ∧ s.root = 511#9 ∧ s.cur = 511#9

/-! ## Memory -/

/-- 20_memory.md R64, R65: `InRead32` is the little-endian number of four bytes, and `OutWrite32` stores its four bytes,
the least significant at the lowest address, and changes no other. -/
def Obligations.FieldsAreLittleEndian : Prop :=
  (∀ (s : State) (a : Nat), a + 4 ≤ s.inLen.toNat → s.inLen ≤ s.params.inCap →
      ∃ v, inRead32 s a = .ok v ∧
        v.toNat = (inByte s a).toNat + 2 ^ 8 * (inByte s (a + 1)).toNat + 2 ^ 16 * (inByte s (a + 2)).toNat +
          2 ^ 24 * (inByte s (a + 3)).toNat) ∧
    (∀ (s : State) (a : Nat) (v : BitVec 32), a + 4 ≤ s.params.outCap.toNat →
      ∃ t, outWrite32 s a v = .ok t ∧ OutSameOutside a 4 s t ∧ t = { s with outMem := t.outMem } ∧
        ∀ k < 4, (outByte t (a + k)).toNat = v.toNat / 2 ^ (8 * k) % 256)

/-! ## Invariants and whole-machine rules -/

/-- 10_state.md R22, R25, R26, 45 R191, 60 R226: every step keeps the control state legal. -/
def Obligations.EveryStepKeepsControl : Prop := ∀ s t : State, ControlOk s → step s = .next t → ControlOk t

/-- 10_state.md R30 to R37: every step keeps every table and buffer in canonical form, with no entry that does not
exist. -/
def Obligations.EveryStepKeepsCanonicalForm : Prop := ∀ s t : State, CanonicalOk s → step s = .next t → CanonicalOk t

/-- 10_state.md R35, 44 R174: every step keeps the bits of `ACC` above `ACCN` at 0. -/
def Obligations.EveryStepKeepsAccumulatorClean : Prop := ∀ s t : State, AccOk s → step s = .next t → AccOk t

/-- The three invariants hold at reset. -/
def Obligations.ResetMeetsTheInvariants : Prop :=
  ControlOk State.reset ∧ CanonicalOk State.reset ∧ AccOk State.reset

/-- 45 R197: the phase after a step of the sequencer, for every phase and condition of the transition table. -/
def Obligations.PhaseTransitions : Prop :=
  ∀ s t : State, s.host = [] → s.busy = true → step s = .next t →
    t.phase =
      match s.phase with
      | .idle => .idle
      | .fclr => .fcnt
      | .fcnt => if s.ipos.toNat < s.origLen.toNat then .fcnt else .seed
      | .seed => if t.n = 0#9 then .serh else .merge
      | .merge => if 2 ≤ s.qn.toNat then .merge else if s.mode = .compress then .assign else .unpk
      | .assign => if s.li < s.n then .assign else .serh
      | .serh => if s.params.outCap.toNat < need s then .idle else .serl
      | .serl => if s.li < s.n then .serl else .pack
      | .pack => if s.ipos.toNat < s.origLen.toNat then .pack else .flush
      | .flush => .idle
      | .parse =>
        if s.inLen.toNat < 5 then .idle
        else if t.origLen = 0#32 then .idle
        else if s.inLen.toNat < 5 + 5 * t.n.toNat then .idle
        else if s.params.outCap.toNat < t.origLen.toNat then .idle
        else .loadl
      | .loadl => if s.li < s.n then .loadl else .merge
      | .unpk =>
        if s.opos.toNat = s.origLen.toNat then .idle
        else if (nodeAt s s.cur).left = nil ∨ s.bitpos.toNat < 8 * s.inLen.toNat then .unpk
        else .idle

/-- 10_state.md R22, 45 R191, 70 R253: a run begins only with an accepted write of `CMD`, and ends only with a completion
or with reset. -/
def Obligations.RunsBeginAndEndAsStated : Prop :=
  ∀ s t : State, step s = .next t →
    (s.busy = false → t.busy = true →
      ∃ v rest, s.host = .writeReg 0#3 v :: rest ∧ (v.setWidth 8 = 0x01#8 ∨ v.setWidth 8 = 0x02#8) ∧
        s.inLen ≤ s.params.inCap) ∧
    (s.busy = true → t.busy = false → Completed t ∨ s.host.head? = some .reset)

/-- 10_state.md R27, 20_memory.md R71, 00_scope.md R6: during a run nothing but reset changes the input or its length, and
no step at all changes the capacities. -/
def Obligations.RunLeavesItsInputAlone : Prop :=
  ∀ s t : State, step s = .next t →
    t.params = s.params ∧
      (s.busy = true → s.host.head? ≠ some .reset → t.inMem = s.inMem ∧ t.inLen = s.inLen ∧ t.epoch = s.epoch)

/-- 45 R198: every step of the sequencer during a run completes it or lowers the measure, in any state at all; so no run
goes on for ever. -/
def Obligations.EveryRunStepLowersTheRank : Prop :=
  ∀ s t : State, s.host = [] → s.busy = true → s.phase ≠ .idle → step s = .next t →
    Completed t ∨ (t.busy = true ∧ rank t < rank s)

/-- 45 R196, R198, 20_memory.md R69, R70: a command issued to any waiting block runs to its completion: no step of it
faults, reads `IN` beyond `IN_LEN`, or writes `OUT` beyond `OUT_CAP`. -/
def Obligations.EveryCommandCompletes : Prop :=
  ∀ (s : State) (c : Byte), Waiting s → ∃ k t, runFor k (issued s c) = .next t ∧ t.host = [] ∧ Completed t

/-- 45 R200: an accepted COMPRESS, from any waiting block, gives the result of the rule's function. -/
def Obligations.CompressRunGivesItsResult : Prop :=
  ∀ s : State, Waiting s → s.inLen ≤ s.params.inCap → s.inLen.toNat < 2 ^ 32 →
    ∃ k t, runFor k (issued s 0x01#8) = .next t ∧ t.host = [] ∧ Completed t ∧
      (t.err, outputOf t) = compressResult s.params.outCap.toNat (inputOf s) ∧
      t.origLen.toNat = s.inLen.toNat ∧ t.n.toNat = (inputOf s).dedup.length

/-- 45 R201: an accepted DECOMPRESS, from any waiting block, gives the result of the rule's function; for an empty
original `OUT` is unchanged. -/
def Obligations.DecompressRunGivesItsResult : Prop :=
  ∀ s : State, Waiting s → s.inLen ≤ s.params.inCap →
    ∃ k t, runFor k (issued s 0x02#8) = .next t ∧ t.host = [] ∧ Completed t ∧
      (t.err, outputOf t) = decompressResult s.params.outCap.toNat (inputOf s) ∧
      match decodeHdr (inputOf s) with
      | .error _ => t.origLen = s.origLen ∧ t.n = s.n
      | .ok (h, _) => t.origLen = h.origlen ∧ t.n = leafCountOf h.origlen h.nm1 ∧ (h.origlen = 0#32 → t.outMem = s.outMem)

/-- 45 R202: the round trip of the machine: what a successful COMPRESS left in `OUT`, given as the input of a DECOMPRESS
to any waiting block whose `OUT` is large enough, comes back as the original input. -/
def Obligations.MachineRoundTrip : Prop :=
  ∀ (s t u : State) (k : Nat), Waiting s → s.inLen ≤ s.params.inCap → s.inLen.toNat < 2 ^ 32 →
    runFor k (issued s 0x01#8) = .next t → t.host = [] → Completed t → t.err = .ok →
    Waiting u → u.inLen ≤ u.params.inCap → inputOf u = outputOf t → s.inLen ≤ u.params.outCap →
      ∃ k' v, runFor k' (issued u 0x02#8) = .next v ∧ v.host = [] ∧ Completed v ∧ v.err = .ok ∧
        outputOf v = inputOf s

/-- 10_state.md R40, 45 R199: a command's result is a function of its input and the capacities: it tells nothing of what
the tables, the registers, `OUT`, or `IN` beyond `IN_LEN` held before. -/
def Obligations.ResultDependsOnInputAlone : Prop :=
  ∀ (s s' t t' : State) (c : Byte) (k k' : Nat), Waiting s → Waiting s' → s.params = s'.params →
    s.inLen = s'.inLen → inputOf s = inputOf s' →
    runFor k (issued s c) = .next t → t.host = [] → Completed t →
    runFor k' (issued s' c) = .next t' → t'.host = [] → Completed t' →
      t.err = t'.err ∧ t.outLen = t'.outLen ∧ outputOf t = outputOf t' ∧
        (t.err = .ok → t.origLen = t'.origLen ∧ t.n = t'.n)
end

