-- ==== Sys2Proof/Laws/Sparse.lean ====
section
/-! SUPPORT. The laws of sparse data: a read after a write, what a write leaves alone, and the canonical form. -/

namespace Sys2Proof.Machine

variable {α : Type}

@[simp] theorem sparseGet_nil (i : Nat) : sparseGet ([] : List (Nat × α)) i = none := rfl

/-- A read after a write to the same place gives the value written. -/
@[simp] theorem sparseGet_set_same (t : List (Nat × α)) (i : Nat) (v : α) : sparseGet (sparseSet t i v) i = some v := by
  induction t with
  | nil => simp [sparseSet, sparseGet]
  | cons c rest ih =>
    obtain ⟨k, w⟩ := c
    simp only [sparseSet]
    split
    · simp [sparseGet]
    · split
      · simp [sparseGet]
      · rename_i h
        simp [sparseGet, h, ih]

/-- A write leaves every other place alone. -/
theorem sparseGet_set_other (t : List (Nat × α)) {i j : Nat} (v : α) (h : j ≠ i) :
    sparseGet (sparseSet t i v) j = sparseGet t j := by
  induction t with
  | nil => simp [sparseSet, sparseGet, h.symm]
  | cons c rest ih =>
    obtain ⟨k, w⟩ := c
    simp only [sparseSet]
    split
    · simp [sparseGet, h.symm]
    · split
      · rename_i hk
        subst hk
        simp [sparseGet, h.symm]
      · simp only [sparseGet, ih]

/-- What is listed after a write, at any place. -/
theorem sparseGet_set (t : List (Nat × α)) (i j : Nat) (v : α) :
    sparseGet (sparseSet t i v) j = if j = i then some v else sparseGet t j := by
  split
  · rename_i h
    simp [h]
  · rename_i h
    exact sparseGet_set_other t v h

/-- The indices listed after a write are the one written and those listed before. -/
theorem mem_keys_sparseSet (t : List (Nat × α)) (i k : Nat) (v : α) :
    k ∈ (sparseSet t i v).map Prod.fst ↔ k = i ∨ k ∈ t.map Prod.fst := by
  induction t with
  | nil => simp [sparseSet]
  | cons c rest ih =>
    obtain ⟨j, w⟩ := c
    simp only [sparseSet]
    split
    · simp
    · split
      · rename_i hj
        subst hj
        simp
      · simp only [List.map_cons, List.mem_cons, ih]
        tauto

/-- A write at an index below the bound keeps the canonical form. -/
theorem sparseSet_wf {bound : Nat} {t : List (Nat × α)} (h : sparseWf bound t) {i : Nat} (hi : i < bound) (v : α) :
    sparseWf bound (sparseSet t i v) := by
  refine ⟨?_, fun k hk => ?_⟩
  · have hp := h.1
    clear h
    induction t with
    | nil => simp [sparseSet]
    | cons c rest ih =>
      obtain ⟨j, w⟩ := c
      rw [List.map_cons, List.pairwise_cons] at hp
      simp only [sparseSet]
      split
      · rename_i hij
        simp only [List.map_cons, List.pairwise_cons, List.mem_cons]
        exact ⟨fun a ha => ha.elim (fun e => e ▸ hij) (fun m => hij.trans (hp.1 a m)), hp.1, hp.2⟩
      · split
        · rename_i hj
          subst hj
          simpa using hp
        · rename_i hij hj
          rw [List.map_cons, List.pairwise_cons]
          refine ⟨fun a ha => ?_, ih hp.2⟩
          rcases (mem_keys_sparseSet rest i a v).1 ha with rfl | m
          · change j < a
            omega
          · exact hp.1 a m
  · rcases (mem_keys_sparseSet t i k v).1 hk with rfl | m
    · exact hi
    · exact h.2 k m

@[simp] theorem sparseWf_nil (bound : Nat) : sparseWf bound ([] : List (Nat × α)) := by simp [sparseWf]

end Sys2Proof.Machine
end

