-- ==== Sys2Proof/Laws/State.lean ====
section
/-! SUPPORT. Every field after every named update of the state: no later proof unfolds a record update. -/

namespace Sys2Proof.Machine

/-! ## `State.setFt` -/

section
variable (s : State) (t : List (Nat × BitVec 32))

@[simp] theorem setFt_busy : (s.setFt t).busy = s.busy := rfl
@[simp] theorem setFt_done : (s.setFt t).done = s.done := rfl
@[simp] theorem setFt_err : (s.setFt t).err = s.err := rfl
@[simp] theorem setFt_inLen : (s.setFt t).inLen = s.inLen := rfl
@[simp] theorem setFt_outLen : (s.setFt t).outLen = s.outLen := rfl
@[simp] theorem setFt_origLen : (s.setFt t).origLen = s.origLen := rfl
@[simp] theorem setFt_phase : (s.setFt t).phase = s.phase := rfl
@[simp] theorem setFt_mode : (s.setFt t).mode = s.mode := rfl
@[simp] theorem setFt_n : (s.setFt t).n = s.n := rfl
@[simp] theorem setFt_ipos : (s.setFt t).ipos = s.ipos := rfl
@[simp] theorem setFt_opos : (s.setFt t).opos = s.opos := rfl
@[simp] theorem setFt_li : (s.setFt t).li = s.li := rfl
@[simp] theorem setFt_nn : (s.setFt t).nn = s.nn := rfl
@[simp] theorem setFt_qn : (s.setFt t).qn = s.qn := rfl
@[simp] theorem setFt_root : (s.setFt t).root = s.root := rfl
@[simp] theorem setFt_cur : (s.setFt t).cur = s.cur := rfl
@[simp] theorem setFt_bitpos : (s.setFt t).bitpos = s.bitpos := rfl
@[simp] theorem setFt_totbits : (s.setFt t).totbits = s.totbits := rfl
@[simp] theorem setFt_acc : (s.setFt t).acc = s.acc := rfl
@[simp] theorem setFt_accn : (s.setFt t).accn = s.accn := rfl
@[simp] theorem setFt_ft : (s.setFt t).ft = t := rfl
@[simp] theorem setFt_node : (s.setFt t).node = s.node := rfl
@[simp] theorem setFt_q : (s.setFt t).q = s.q := rfl
@[simp] theorem setFt_code : (s.setFt t).code = s.code := rfl
@[simp] theorem setFt_inMem : (s.setFt t).inMem = s.inMem := rfl
@[simp] theorem setFt_outMem : (s.setFt t).outMem = s.outMem := rfl
@[simp] theorem setFt_params : (s.setFt t).params = s.params := rfl
@[simp] theorem setFt_host : (s.setFt t).host = s.host := rfl
@[simp] theorem setFt_hostData : (s.setFt t).hostData = s.hostData := rfl
@[simp] theorem setFt_epoch : (s.setFt t).epoch = s.epoch := rfl
@[simp] theorem setFt_turn : (s.setFt t).turn = s.turn := rfl
@[simp] theorem setFt_hostOut : (s.setFt t).hostOut = s.hostOut := rfl

end

/-! ## `State.setNode` -/

section
variable (s : State) (t : List (Nat × Node))

@[simp] theorem setNode_busy : (s.setNode t).busy = s.busy := rfl
@[simp] theorem setNode_done : (s.setNode t).done = s.done := rfl
@[simp] theorem setNode_err : (s.setNode t).err = s.err := rfl
@[simp] theorem setNode_inLen : (s.setNode t).inLen = s.inLen := rfl
@[simp] theorem setNode_outLen : (s.setNode t).outLen = s.outLen := rfl
@[simp] theorem setNode_origLen : (s.setNode t).origLen = s.origLen := rfl
@[simp] theorem setNode_phase : (s.setNode t).phase = s.phase := rfl
@[simp] theorem setNode_mode : (s.setNode t).mode = s.mode := rfl
@[simp] theorem setNode_n : (s.setNode t).n = s.n := rfl
@[simp] theorem setNode_ipos : (s.setNode t).ipos = s.ipos := rfl
@[simp] theorem setNode_opos : (s.setNode t).opos = s.opos := rfl
@[simp] theorem setNode_li : (s.setNode t).li = s.li := rfl
@[simp] theorem setNode_nn : (s.setNode t).nn = s.nn := rfl
@[simp] theorem setNode_qn : (s.setNode t).qn = s.qn := rfl
@[simp] theorem setNode_root : (s.setNode t).root = s.root := rfl
@[simp] theorem setNode_cur : (s.setNode t).cur = s.cur := rfl
@[simp] theorem setNode_bitpos : (s.setNode t).bitpos = s.bitpos := rfl
@[simp] theorem setNode_totbits : (s.setNode t).totbits = s.totbits := rfl
@[simp] theorem setNode_acc : (s.setNode t).acc = s.acc := rfl
@[simp] theorem setNode_accn : (s.setNode t).accn = s.accn := rfl
@[simp] theorem setNode_ft : (s.setNode t).ft = s.ft := rfl
@[simp] theorem setNode_node : (s.setNode t).node = t := rfl
@[simp] theorem setNode_q : (s.setNode t).q = s.q := rfl
@[simp] theorem setNode_code : (s.setNode t).code = s.code := rfl
@[simp] theorem setNode_inMem : (s.setNode t).inMem = s.inMem := rfl
@[simp] theorem setNode_outMem : (s.setNode t).outMem = s.outMem := rfl
@[simp] theorem setNode_params : (s.setNode t).params = s.params := rfl
@[simp] theorem setNode_host : (s.setNode t).host = s.host := rfl
@[simp] theorem setNode_hostData : (s.setNode t).hostData = s.hostData := rfl
@[simp] theorem setNode_epoch : (s.setNode t).epoch = s.epoch := rfl
@[simp] theorem setNode_turn : (s.setNode t).turn = s.turn := rfl
@[simp] theorem setNode_hostOut : (s.setNode t).hostOut = s.hostOut := rfl

end

/-! ## `State.setQ` -/

section
variable (s : State) (t : List (Nat × NodeIx))

@[simp] theorem setQ_busy : (s.setQ t).busy = s.busy := rfl
@[simp] theorem setQ_done : (s.setQ t).done = s.done := rfl
@[simp] theorem setQ_err : (s.setQ t).err = s.err := rfl
@[simp] theorem setQ_inLen : (s.setQ t).inLen = s.inLen := rfl
@[simp] theorem setQ_outLen : (s.setQ t).outLen = s.outLen := rfl
@[simp] theorem setQ_origLen : (s.setQ t).origLen = s.origLen := rfl
@[simp] theorem setQ_phase : (s.setQ t).phase = s.phase := rfl
@[simp] theorem setQ_mode : (s.setQ t).mode = s.mode := rfl
@[simp] theorem setQ_n : (s.setQ t).n = s.n := rfl
@[simp] theorem setQ_ipos : (s.setQ t).ipos = s.ipos := rfl
@[simp] theorem setQ_opos : (s.setQ t).opos = s.opos := rfl
@[simp] theorem setQ_li : (s.setQ t).li = s.li := rfl
@[simp] theorem setQ_nn : (s.setQ t).nn = s.nn := rfl
@[simp] theorem setQ_qn : (s.setQ t).qn = s.qn := rfl
@[simp] theorem setQ_root : (s.setQ t).root = s.root := rfl
@[simp] theorem setQ_cur : (s.setQ t).cur = s.cur := rfl
@[simp] theorem setQ_bitpos : (s.setQ t).bitpos = s.bitpos := rfl
@[simp] theorem setQ_totbits : (s.setQ t).totbits = s.totbits := rfl
@[simp] theorem setQ_acc : (s.setQ t).acc = s.acc := rfl
@[simp] theorem setQ_accn : (s.setQ t).accn = s.accn := rfl
@[simp] theorem setQ_ft : (s.setQ t).ft = s.ft := rfl
@[simp] theorem setQ_node : (s.setQ t).node = s.node := rfl
@[simp] theorem setQ_q : (s.setQ t).q = t := rfl
@[simp] theorem setQ_code : (s.setQ t).code = s.code := rfl
@[simp] theorem setQ_inMem : (s.setQ t).inMem = s.inMem := rfl
@[simp] theorem setQ_outMem : (s.setQ t).outMem = s.outMem := rfl
@[simp] theorem setQ_params : (s.setQ t).params = s.params := rfl
@[simp] theorem setQ_host : (s.setQ t).host = s.host := rfl
@[simp] theorem setQ_hostData : (s.setQ t).hostData = s.hostData := rfl
@[simp] theorem setQ_epoch : (s.setQ t).epoch = s.epoch := rfl
@[simp] theorem setQ_turn : (s.setQ t).turn = s.turn := rfl
@[simp] theorem setQ_hostOut : (s.setQ t).hostOut = s.hostOut := rfl

end

/-! ## `State.setCode` -/

section
variable (s : State) (t : List (Nat × CodeEntry))

@[simp] theorem setCode_busy : (s.setCode t).busy = s.busy := rfl
@[simp] theorem setCode_done : (s.setCode t).done = s.done := rfl
@[simp] theorem setCode_err : (s.setCode t).err = s.err := rfl
@[simp] theorem setCode_inLen : (s.setCode t).inLen = s.inLen := rfl
@[simp] theorem setCode_outLen : (s.setCode t).outLen = s.outLen := rfl
@[simp] theorem setCode_origLen : (s.setCode t).origLen = s.origLen := rfl
@[simp] theorem setCode_phase : (s.setCode t).phase = s.phase := rfl
@[simp] theorem setCode_mode : (s.setCode t).mode = s.mode := rfl
@[simp] theorem setCode_n : (s.setCode t).n = s.n := rfl
@[simp] theorem setCode_ipos : (s.setCode t).ipos = s.ipos := rfl
@[simp] theorem setCode_opos : (s.setCode t).opos = s.opos := rfl
@[simp] theorem setCode_li : (s.setCode t).li = s.li := rfl
@[simp] theorem setCode_nn : (s.setCode t).nn = s.nn := rfl
@[simp] theorem setCode_qn : (s.setCode t).qn = s.qn := rfl
@[simp] theorem setCode_root : (s.setCode t).root = s.root := rfl
@[simp] theorem setCode_cur : (s.setCode t).cur = s.cur := rfl
@[simp] theorem setCode_bitpos : (s.setCode t).bitpos = s.bitpos := rfl
@[simp] theorem setCode_totbits : (s.setCode t).totbits = s.totbits := rfl
@[simp] theorem setCode_acc : (s.setCode t).acc = s.acc := rfl
@[simp] theorem setCode_accn : (s.setCode t).accn = s.accn := rfl
@[simp] theorem setCode_ft : (s.setCode t).ft = s.ft := rfl
@[simp] theorem setCode_node : (s.setCode t).node = s.node := rfl
@[simp] theorem setCode_q : (s.setCode t).q = s.q := rfl
@[simp] theorem setCode_code : (s.setCode t).code = t := rfl
@[simp] theorem setCode_inMem : (s.setCode t).inMem = s.inMem := rfl
@[simp] theorem setCode_outMem : (s.setCode t).outMem = s.outMem := rfl
@[simp] theorem setCode_params : (s.setCode t).params = s.params := rfl
@[simp] theorem setCode_host : (s.setCode t).host = s.host := rfl
@[simp] theorem setCode_hostData : (s.setCode t).hostData = s.hostData := rfl
@[simp] theorem setCode_epoch : (s.setCode t).epoch = s.epoch := rfl
@[simp] theorem setCode_turn : (s.setCode t).turn = s.turn := rfl
@[simp] theorem setCode_hostOut : (s.setCode t).hostOut = s.hostOut := rfl

end

/-! ## `State.setInMem` -/

section
variable (s : State) (m : List Host.Cell)

@[simp] theorem setInMem_busy : (s.setInMem m).busy = s.busy := rfl
@[simp] theorem setInMem_done : (s.setInMem m).done = s.done := rfl
@[simp] theorem setInMem_err : (s.setInMem m).err = s.err := rfl
@[simp] theorem setInMem_inLen : (s.setInMem m).inLen = s.inLen := rfl
@[simp] theorem setInMem_outLen : (s.setInMem m).outLen = s.outLen := rfl
@[simp] theorem setInMem_origLen : (s.setInMem m).origLen = s.origLen := rfl
@[simp] theorem setInMem_phase : (s.setInMem m).phase = s.phase := rfl
@[simp] theorem setInMem_mode : (s.setInMem m).mode = s.mode := rfl
@[simp] theorem setInMem_n : (s.setInMem m).n = s.n := rfl
@[simp] theorem setInMem_ipos : (s.setInMem m).ipos = s.ipos := rfl
@[simp] theorem setInMem_opos : (s.setInMem m).opos = s.opos := rfl
@[simp] theorem setInMem_li : (s.setInMem m).li = s.li := rfl
@[simp] theorem setInMem_nn : (s.setInMem m).nn = s.nn := rfl
@[simp] theorem setInMem_qn : (s.setInMem m).qn = s.qn := rfl
@[simp] theorem setInMem_root : (s.setInMem m).root = s.root := rfl
@[simp] theorem setInMem_cur : (s.setInMem m).cur = s.cur := rfl
@[simp] theorem setInMem_bitpos : (s.setInMem m).bitpos = s.bitpos := rfl
@[simp] theorem setInMem_totbits : (s.setInMem m).totbits = s.totbits := rfl
@[simp] theorem setInMem_acc : (s.setInMem m).acc = s.acc := rfl
@[simp] theorem setInMem_accn : (s.setInMem m).accn = s.accn := rfl
@[simp] theorem setInMem_ft : (s.setInMem m).ft = s.ft := rfl
@[simp] theorem setInMem_node : (s.setInMem m).node = s.node := rfl
@[simp] theorem setInMem_q : (s.setInMem m).q = s.q := rfl
@[simp] theorem setInMem_code : (s.setInMem m).code = s.code := rfl
@[simp] theorem setInMem_inMem : (s.setInMem m).inMem = m := rfl
@[simp] theorem setInMem_outMem : (s.setInMem m).outMem = s.outMem := rfl
@[simp] theorem setInMem_params : (s.setInMem m).params = s.params := rfl
@[simp] theorem setInMem_host : (s.setInMem m).host = s.host := rfl
@[simp] theorem setInMem_hostData : (s.setInMem m).hostData = s.hostData := rfl
@[simp] theorem setInMem_epoch : (s.setInMem m).epoch = s.epoch := rfl
@[simp] theorem setInMem_turn : (s.setInMem m).turn = s.turn := rfl
@[simp] theorem setInMem_hostOut : (s.setInMem m).hostOut = s.hostOut := rfl

end

/-! ## `State.setOutMem` -/

section
variable (s : State) (m : List Host.Cell)

@[simp] theorem setOutMem_busy : (s.setOutMem m).busy = s.busy := rfl
@[simp] theorem setOutMem_done : (s.setOutMem m).done = s.done := rfl
@[simp] theorem setOutMem_err : (s.setOutMem m).err = s.err := rfl
@[simp] theorem setOutMem_inLen : (s.setOutMem m).inLen = s.inLen := rfl
@[simp] theorem setOutMem_outLen : (s.setOutMem m).outLen = s.outLen := rfl
@[simp] theorem setOutMem_origLen : (s.setOutMem m).origLen = s.origLen := rfl
@[simp] theorem setOutMem_phase : (s.setOutMem m).phase = s.phase := rfl
@[simp] theorem setOutMem_mode : (s.setOutMem m).mode = s.mode := rfl
@[simp] theorem setOutMem_n : (s.setOutMem m).n = s.n := rfl
@[simp] theorem setOutMem_ipos : (s.setOutMem m).ipos = s.ipos := rfl
@[simp] theorem setOutMem_opos : (s.setOutMem m).opos = s.opos := rfl
@[simp] theorem setOutMem_li : (s.setOutMem m).li = s.li := rfl
@[simp] theorem setOutMem_nn : (s.setOutMem m).nn = s.nn := rfl
@[simp] theorem setOutMem_qn : (s.setOutMem m).qn = s.qn := rfl
@[simp] theorem setOutMem_root : (s.setOutMem m).root = s.root := rfl
@[simp] theorem setOutMem_cur : (s.setOutMem m).cur = s.cur := rfl
@[simp] theorem setOutMem_bitpos : (s.setOutMem m).bitpos = s.bitpos := rfl
@[simp] theorem setOutMem_totbits : (s.setOutMem m).totbits = s.totbits := rfl
@[simp] theorem setOutMem_acc : (s.setOutMem m).acc = s.acc := rfl
@[simp] theorem setOutMem_accn : (s.setOutMem m).accn = s.accn := rfl
@[simp] theorem setOutMem_ft : (s.setOutMem m).ft = s.ft := rfl
@[simp] theorem setOutMem_node : (s.setOutMem m).node = s.node := rfl
@[simp] theorem setOutMem_q : (s.setOutMem m).q = s.q := rfl
@[simp] theorem setOutMem_code : (s.setOutMem m).code = s.code := rfl
@[simp] theorem setOutMem_inMem : (s.setOutMem m).inMem = s.inMem := rfl
@[simp] theorem setOutMem_outMem : (s.setOutMem m).outMem = m := rfl
@[simp] theorem setOutMem_params : (s.setOutMem m).params = s.params := rfl
@[simp] theorem setOutMem_host : (s.setOutMem m).host = s.host := rfl
@[simp] theorem setOutMem_hostData : (s.setOutMem m).hostData = s.hostData := rfl
@[simp] theorem setOutMem_epoch : (s.setOutMem m).epoch = s.epoch := rfl
@[simp] theorem setOutMem_turn : (s.setOutMem m).turn = s.turn := rfl
@[simp] theorem setOutMem_hostOut : (s.setOutMem m).hostOut = s.hostOut := rfl

end

/-! ## `State.setHostOut` -/

section
variable (s : State) (m : List Host.Cell)

@[simp] theorem setHostOut_busy : (s.setHostOut m).busy = s.busy := rfl
@[simp] theorem setHostOut_done : (s.setHostOut m).done = s.done := rfl
@[simp] theorem setHostOut_err : (s.setHostOut m).err = s.err := rfl
@[simp] theorem setHostOut_inLen : (s.setHostOut m).inLen = s.inLen := rfl
@[simp] theorem setHostOut_outLen : (s.setHostOut m).outLen = s.outLen := rfl
@[simp] theorem setHostOut_origLen : (s.setHostOut m).origLen = s.origLen := rfl
@[simp] theorem setHostOut_phase : (s.setHostOut m).phase = s.phase := rfl
@[simp] theorem setHostOut_mode : (s.setHostOut m).mode = s.mode := rfl
@[simp] theorem setHostOut_n : (s.setHostOut m).n = s.n := rfl
@[simp] theorem setHostOut_ipos : (s.setHostOut m).ipos = s.ipos := rfl
@[simp] theorem setHostOut_opos : (s.setHostOut m).opos = s.opos := rfl
@[simp] theorem setHostOut_li : (s.setHostOut m).li = s.li := rfl
@[simp] theorem setHostOut_nn : (s.setHostOut m).nn = s.nn := rfl
@[simp] theorem setHostOut_qn : (s.setHostOut m).qn = s.qn := rfl
@[simp] theorem setHostOut_root : (s.setHostOut m).root = s.root := rfl
@[simp] theorem setHostOut_cur : (s.setHostOut m).cur = s.cur := rfl
@[simp] theorem setHostOut_bitpos : (s.setHostOut m).bitpos = s.bitpos := rfl
@[simp] theorem setHostOut_totbits : (s.setHostOut m).totbits = s.totbits := rfl
@[simp] theorem setHostOut_acc : (s.setHostOut m).acc = s.acc := rfl
@[simp] theorem setHostOut_accn : (s.setHostOut m).accn = s.accn := rfl
@[simp] theorem setHostOut_ft : (s.setHostOut m).ft = s.ft := rfl
@[simp] theorem setHostOut_node : (s.setHostOut m).node = s.node := rfl
@[simp] theorem setHostOut_q : (s.setHostOut m).q = s.q := rfl
@[simp] theorem setHostOut_code : (s.setHostOut m).code = s.code := rfl
@[simp] theorem setHostOut_inMem : (s.setHostOut m).inMem = s.inMem := rfl
@[simp] theorem setHostOut_outMem : (s.setHostOut m).outMem = s.outMem := rfl
@[simp] theorem setHostOut_params : (s.setHostOut m).params = s.params := rfl
@[simp] theorem setHostOut_host : (s.setHostOut m).host = s.host := rfl
@[simp] theorem setHostOut_hostData : (s.setHostOut m).hostData = s.hostData := rfl
@[simp] theorem setHostOut_epoch : (s.setHostOut m).epoch = s.epoch := rfl
@[simp] theorem setHostOut_turn : (s.setHostOut m).turn = s.turn := rfl
@[simp] theorem setHostOut_hostOut : (s.setHostOut m).hostOut = m := rfl

end

/-! ## `State.setCounts` -/

section
variable (s : State) (nn qn : BitVec 9)

@[simp] theorem setCounts_busy : (s.setCounts nn qn).busy = s.busy := rfl
@[simp] theorem setCounts_done : (s.setCounts nn qn).done = s.done := rfl
@[simp] theorem setCounts_err : (s.setCounts nn qn).err = s.err := rfl
@[simp] theorem setCounts_inLen : (s.setCounts nn qn).inLen = s.inLen := rfl
@[simp] theorem setCounts_outLen : (s.setCounts nn qn).outLen = s.outLen := rfl
@[simp] theorem setCounts_origLen : (s.setCounts nn qn).origLen = s.origLen := rfl
@[simp] theorem setCounts_phase : (s.setCounts nn qn).phase = s.phase := rfl
@[simp] theorem setCounts_mode : (s.setCounts nn qn).mode = s.mode := rfl
@[simp] theorem setCounts_n : (s.setCounts nn qn).n = s.n := rfl
@[simp] theorem setCounts_ipos : (s.setCounts nn qn).ipos = s.ipos := rfl
@[simp] theorem setCounts_opos : (s.setCounts nn qn).opos = s.opos := rfl
@[simp] theorem setCounts_li : (s.setCounts nn qn).li = s.li := rfl
@[simp] theorem setCounts_nn : (s.setCounts nn qn).nn = nn := rfl
@[simp] theorem setCounts_qn : (s.setCounts nn qn).qn = qn := rfl
@[simp] theorem setCounts_root : (s.setCounts nn qn).root = s.root := rfl
@[simp] theorem setCounts_cur : (s.setCounts nn qn).cur = s.cur := rfl
@[simp] theorem setCounts_bitpos : (s.setCounts nn qn).bitpos = s.bitpos := rfl
@[simp] theorem setCounts_totbits : (s.setCounts nn qn).totbits = s.totbits := rfl
@[simp] theorem setCounts_acc : (s.setCounts nn qn).acc = s.acc := rfl
@[simp] theorem setCounts_accn : (s.setCounts nn qn).accn = s.accn := rfl
@[simp] theorem setCounts_ft : (s.setCounts nn qn).ft = s.ft := rfl
@[simp] theorem setCounts_node : (s.setCounts nn qn).node = s.node := rfl
@[simp] theorem setCounts_q : (s.setCounts nn qn).q = s.q := rfl
@[simp] theorem setCounts_code : (s.setCounts nn qn).code = s.code := rfl
@[simp] theorem setCounts_inMem : (s.setCounts nn qn).inMem = s.inMem := rfl
@[simp] theorem setCounts_outMem : (s.setCounts nn qn).outMem = s.outMem := rfl
@[simp] theorem setCounts_params : (s.setCounts nn qn).params = s.params := rfl
@[simp] theorem setCounts_host : (s.setCounts nn qn).host = s.host := rfl
@[simp] theorem setCounts_hostData : (s.setCounts nn qn).hostData = s.hostData := rfl
@[simp] theorem setCounts_epoch : (s.setCounts nn qn).epoch = s.epoch := rfl
@[simp] theorem setCounts_turn : (s.setCounts nn qn).turn = s.turn := rfl
@[simp] theorem setCounts_hostOut : (s.setCounts nn qn).hostOut = s.hostOut := rfl

end

/-! ## `complete` -/

section
variable (e : ErrCode) (k : Addr) (s : State)

@[simp] theorem complete_busy : (complete e k s).busy = false := rfl
@[simp] theorem complete_done : (complete e k s).done = true := rfl
@[simp] theorem complete_err : (complete e k s).err = e := rfl
@[simp] theorem complete_inLen : (complete e k s).inLen = s.inLen := rfl
@[simp] theorem complete_outLen : (complete e k s).outLen = if e = .ok then k else 0 := rfl
@[simp] theorem complete_origLen : (complete e k s).origLen = s.origLen := rfl
@[simp] theorem complete_phase : (complete e k s).phase = .idle := rfl
@[simp] theorem complete_mode : (complete e k s).mode = s.mode := rfl
@[simp] theorem complete_n : (complete e k s).n = s.n := rfl
@[simp] theorem complete_ipos : (complete e k s).ipos = s.ipos := rfl
@[simp] theorem complete_opos : (complete e k s).opos = s.opos := rfl
@[simp] theorem complete_li : (complete e k s).li = s.li := rfl
@[simp] theorem complete_nn : (complete e k s).nn = s.nn := rfl
@[simp] theorem complete_qn : (complete e k s).qn = s.qn := rfl
@[simp] theorem complete_root : (complete e k s).root = s.root := rfl
@[simp] theorem complete_cur : (complete e k s).cur = s.cur := rfl
@[simp] theorem complete_bitpos : (complete e k s).bitpos = s.bitpos := rfl
@[simp] theorem complete_totbits : (complete e k s).totbits = s.totbits := rfl
@[simp] theorem complete_acc : (complete e k s).acc = s.acc := rfl
@[simp] theorem complete_accn : (complete e k s).accn = s.accn := rfl
@[simp] theorem complete_ft : (complete e k s).ft = s.ft := rfl
@[simp] theorem complete_node : (complete e k s).node = s.node := rfl
@[simp] theorem complete_q : (complete e k s).q = s.q := rfl
@[simp] theorem complete_code : (complete e k s).code = s.code := rfl
@[simp] theorem complete_inMem : (complete e k s).inMem = s.inMem := rfl
@[simp] theorem complete_outMem : (complete e k s).outMem = s.outMem := rfl
@[simp] theorem complete_params : (complete e k s).params = s.params := rfl
@[simp] theorem complete_host : (complete e k s).host = s.host := rfl
@[simp] theorem complete_hostData : (complete e k s).hostData = s.hostData := rfl
@[simp] theorem complete_epoch : (complete e k s).epoch = s.epoch := rfl
@[simp] theorem complete_turn : (complete e k s).turn = s.turn := rfl
@[simp] theorem complete_hostOut : (complete e k s).hostOut = s.hostOut := rfl

end

/-! ## `reject` -/

section
variable (e : ErrCode) (s : State)

@[simp] theorem reject_busy : (reject e s).busy = s.busy := rfl
@[simp] theorem reject_done : (reject e s).done = true := rfl
@[simp] theorem reject_err : (reject e s).err = e := rfl
@[simp] theorem reject_inLen : (reject e s).inLen = s.inLen := rfl
@[simp] theorem reject_outLen : (reject e s).outLen = 0 := rfl
@[simp] theorem reject_origLen : (reject e s).origLen = s.origLen := rfl
@[simp] theorem reject_phase : (reject e s).phase = s.phase := rfl
@[simp] theorem reject_mode : (reject e s).mode = s.mode := rfl
@[simp] theorem reject_n : (reject e s).n = s.n := rfl
@[simp] theorem reject_ipos : (reject e s).ipos = s.ipos := rfl
@[simp] theorem reject_opos : (reject e s).opos = s.opos := rfl
@[simp] theorem reject_li : (reject e s).li = s.li := rfl
@[simp] theorem reject_nn : (reject e s).nn = s.nn := rfl
@[simp] theorem reject_qn : (reject e s).qn = s.qn := rfl
@[simp] theorem reject_root : (reject e s).root = s.root := rfl
@[simp] theorem reject_cur : (reject e s).cur = s.cur := rfl
@[simp] theorem reject_bitpos : (reject e s).bitpos = s.bitpos := rfl
@[simp] theorem reject_totbits : (reject e s).totbits = s.totbits := rfl
@[simp] theorem reject_acc : (reject e s).acc = s.acc := rfl
@[simp] theorem reject_accn : (reject e s).accn = s.accn := rfl
@[simp] theorem reject_ft : (reject e s).ft = s.ft := rfl
@[simp] theorem reject_node : (reject e s).node = s.node := rfl
@[simp] theorem reject_q : (reject e s).q = s.q := rfl
@[simp] theorem reject_code : (reject e s).code = s.code := rfl
@[simp] theorem reject_inMem : (reject e s).inMem = s.inMem := rfl
@[simp] theorem reject_outMem : (reject e s).outMem = s.outMem := rfl
@[simp] theorem reject_params : (reject e s).params = s.params := rfl
@[simp] theorem reject_host : (reject e s).host = s.host := rfl
@[simp] theorem reject_hostData : (reject e s).hostData = s.hostData := rfl
@[simp] theorem reject_epoch : (reject e s).epoch = s.epoch := rfl
@[simp] theorem reject_turn : (reject e s).turn = s.turn := rfl
@[simp] theorem reject_hostOut : (reject e s).hostOut = s.hostOut := rfl

end

/-! ## `accept` -/

section
variable (m : Mode) (s : State)

@[simp] theorem accept_busy : (accept m s).busy = true := rfl
@[simp] theorem accept_done : (accept m s).done = false := rfl
@[simp] theorem accept_err : (accept m s).err = .ok := rfl
@[simp] theorem accept_inLen : (accept m s).inLen = s.inLen := rfl
@[simp] theorem accept_outLen : (accept m s).outLen = 0 := rfl
@[simp] theorem accept_origLen : (accept m s).origLen = s.origLen := rfl
@[simp] theorem accept_phase : (accept m s).phase = s.phase := rfl
@[simp] theorem accept_mode : (accept m s).mode = m := rfl
@[simp] theorem accept_n : (accept m s).n = s.n := rfl
@[simp] theorem accept_ipos : (accept m s).ipos = s.ipos := rfl
@[simp] theorem accept_opos : (accept m s).opos = s.opos := rfl
@[simp] theorem accept_li : (accept m s).li = s.li := rfl
@[simp] theorem accept_nn : (accept m s).nn = s.nn := rfl
@[simp] theorem accept_qn : (accept m s).qn = s.qn := rfl
@[simp] theorem accept_root : (accept m s).root = s.root := rfl
@[simp] theorem accept_cur : (accept m s).cur = s.cur := rfl
@[simp] theorem accept_bitpos : (accept m s).bitpos = s.bitpos := rfl
@[simp] theorem accept_totbits : (accept m s).totbits = s.totbits := rfl
@[simp] theorem accept_acc : (accept m s).acc = s.acc := rfl
@[simp] theorem accept_accn : (accept m s).accn = s.accn := rfl
@[simp] theorem accept_ft : (accept m s).ft = s.ft := rfl
@[simp] theorem accept_node : (accept m s).node = s.node := rfl
@[simp] theorem accept_q : (accept m s).q = s.q := rfl
@[simp] theorem accept_code : (accept m s).code = s.code := rfl
@[simp] theorem accept_inMem : (accept m s).inMem = s.inMem := rfl
@[simp] theorem accept_outMem : (accept m s).outMem = s.outMem := rfl
@[simp] theorem accept_params : (accept m s).params = s.params := rfl
@[simp] theorem accept_host : (accept m s).host = s.host := rfl
@[simp] theorem accept_hostData : (accept m s).hostData = s.hostData := rfl
@[simp] theorem accept_epoch : (accept m s).epoch = s.epoch := rfl
@[simp] theorem accept_turn : (accept m s).turn = s.turn := rfl
@[simp] theorem accept_hostOut : (accept m s).hostOut = s.hostOut := rfl

end

/-! ## `applyReset` -/

section
variable (s : State)

@[simp] theorem applyReset_busy : (applyReset s).busy = false := rfl
@[simp] theorem applyReset_done : (applyReset s).done = false := rfl
@[simp] theorem applyReset_err : (applyReset s).err = .ok := rfl
@[simp] theorem applyReset_inLen : (applyReset s).inLen = 0 := rfl
@[simp] theorem applyReset_outLen : (applyReset s).outLen = 0 := rfl
@[simp] theorem applyReset_origLen : (applyReset s).origLen = 0 := rfl
@[simp] theorem applyReset_phase : (applyReset s).phase = .idle := rfl
@[simp] theorem applyReset_mode : (applyReset s).mode = .compress := rfl
@[simp] theorem applyReset_n : (applyReset s).n = 0 := rfl
@[simp] theorem applyReset_ipos : (applyReset s).ipos = 0 := rfl
@[simp] theorem applyReset_opos : (applyReset s).opos = 0 := rfl
@[simp] theorem applyReset_li : (applyReset s).li = 0 := rfl
@[simp] theorem applyReset_nn : (applyReset s).nn = 0 := rfl
@[simp] theorem applyReset_qn : (applyReset s).qn = 0 := rfl
@[simp] theorem applyReset_root : (applyReset s).root = nil := rfl
@[simp] theorem applyReset_cur : (applyReset s).cur = nil := rfl
@[simp] theorem applyReset_bitpos : (applyReset s).bitpos = 0 := rfl
@[simp] theorem applyReset_totbits : (applyReset s).totbits = 0 := rfl
@[simp] theorem applyReset_acc : (applyReset s).acc = 0 := rfl
@[simp] theorem applyReset_accn : (applyReset s).accn = 0 := rfl
@[simp] theorem applyReset_ft : (applyReset s).ft = [] := rfl
@[simp] theorem applyReset_node : (applyReset s).node = [] := rfl
@[simp] theorem applyReset_q : (applyReset s).q = [] := rfl
@[simp] theorem applyReset_code : (applyReset s).code = [] := rfl
@[simp] theorem applyReset_inMem : (applyReset s).inMem = [] := rfl
@[simp] theorem applyReset_outMem : (applyReset s).outMem = [] := rfl
@[simp] theorem applyReset_params : (applyReset s).params = s.params := rfl
@[simp] theorem applyReset_host : (applyReset s).host = s.host := rfl
@[simp] theorem applyReset_hostData : (applyReset s).hostData = s.hostData := rfl
@[simp] theorem applyReset_epoch : (applyReset s).epoch = s.epoch + 1 := rfl
@[simp] theorem applyReset_turn : (applyReset s).turn = s.turn + 1 := rfl
@[simp] theorem applyReset_hostOut : (applyReset s).hostOut = [] := rfl

end

/-! ## `newTurn` -/

section
variable (s : State)

@[simp] theorem newTurn_busy : (newTurn s).busy = s.busy := rfl
@[simp] theorem newTurn_done : (newTurn s).done = s.done := rfl
@[simp] theorem newTurn_err : (newTurn s).err = s.err := rfl
@[simp] theorem newTurn_inLen : (newTurn s).inLen = s.inLen := rfl
@[simp] theorem newTurn_outLen : (newTurn s).outLen = s.outLen := rfl
@[simp] theorem newTurn_origLen : (newTurn s).origLen = s.origLen := rfl
@[simp] theorem newTurn_phase : (newTurn s).phase = s.phase := rfl
@[simp] theorem newTurn_mode : (newTurn s).mode = s.mode := rfl
@[simp] theorem newTurn_n : (newTurn s).n = s.n := rfl
@[simp] theorem newTurn_ipos : (newTurn s).ipos = s.ipos := rfl
@[simp] theorem newTurn_opos : (newTurn s).opos = s.opos := rfl
@[simp] theorem newTurn_li : (newTurn s).li = s.li := rfl
@[simp] theorem newTurn_nn : (newTurn s).nn = s.nn := rfl
@[simp] theorem newTurn_qn : (newTurn s).qn = s.qn := rfl
@[simp] theorem newTurn_root : (newTurn s).root = s.root := rfl
@[simp] theorem newTurn_cur : (newTurn s).cur = s.cur := rfl
@[simp] theorem newTurn_bitpos : (newTurn s).bitpos = s.bitpos := rfl
@[simp] theorem newTurn_totbits : (newTurn s).totbits = s.totbits := rfl
@[simp] theorem newTurn_acc : (newTurn s).acc = s.acc := rfl
@[simp] theorem newTurn_accn : (newTurn s).accn = s.accn := rfl
@[simp] theorem newTurn_ft : (newTurn s).ft = s.ft := rfl
@[simp] theorem newTurn_node : (newTurn s).node = s.node := rfl
@[simp] theorem newTurn_q : (newTurn s).q = s.q := rfl
@[simp] theorem newTurn_code : (newTurn s).code = s.code := rfl
@[simp] theorem newTurn_inMem : (newTurn s).inMem = s.inMem := rfl
@[simp] theorem newTurn_outMem : (newTurn s).outMem = s.outMem := rfl
@[simp] theorem newTurn_params : (newTurn s).params = s.params := rfl
@[simp] theorem newTurn_host : (newTurn s).host = s.host := rfl
@[simp] theorem newTurn_hostData : (newTurn s).hostData = s.hostData := rfl
@[simp] theorem newTurn_epoch : (newTurn s).epoch = s.epoch := rfl
@[simp] theorem newTurn_turn : (newTurn s).turn = s.turn + 1 := rfl
@[simp] theorem newTurn_hostOut : (newTurn s).hostOut = [] := rfl

end

/-- Raising an error is completing with it and no output (60_exceptions.md R226). -/
@[simp] theorem raiseError_eq (e : ErrCode) (s : State) : raiseError e s = complete e 0 s := rfl

end Sys2Proof.Machine
end

