-- ==== Sys2Proof/Laws/Ops.lean ====
section
/-! SUPPORT. One lemma for each shared operation: all it can do when it answers. Callers cite these and unfold nothing. -/

namespace Sys2Proof.Machine

/-! ## Sequencing -/

/-- Two steps of a rule answer exactly when both do. -/
theorem bind_eq_ok {ε α β : Type} (x : Except ε α) (f : α → Except ε β) (r : β) :
    (x >>= f) = .ok r ↔ ∃ a, x = .ok a ∧ f a = .ok r := by
  cases x with
  | error e => simp [bind, Except.bind]
  | ok a => simp [bind, Except.bind]

@[simp] theorem ok_bind {ε α β : Type} (a : α) (f : α → Except ε β) : ((.ok a : Except ε α) >>= f) = f a := rfl

@[simp] theorem error_bind {ε α β : Type} (e : ε) (f : α → Except ε β) : ((.error e : Except ε α) >>= f) = .error e := rfl

/-- A micro-operation's step is next exactly when its rule answers a state. -/
@[simp] theorem finish_eq_next (x : Except Fault State) (t : State) : finish x = .next t ↔ x = .ok t := by
  cases x <;> simp [finish]

@[simp] theorem finish_eq_fault (x : Except Fault State) (f : Fault) : finish x = .fault f ↔ x = .error f := by
  cases x <;> simp [finish]

/-- A micro-operation is never refused. -/
@[simp] theorem finish_ne_refused (x : Except Fault State) (r : Refusal) : finish x ≠ .refused r := by
  cases x <;> simp [finish]

/-! ## Tables -/

@[simp] theorem readFt_writeFt_same (s : State) (b : Byte) (v : BitVec 32) : readFt (writeFt s b v) b = v := by
  simp [readFt, writeFt]

theorem readFt_writeFt_other (s : State) {b c : Byte} (v : BitVec 32) (h : c ≠ b) :
    readFt (writeFt s b v) c = readFt s c := by
  have : c.toNat ≠ b.toNat := fun e => h (BitVec.eq_of_toNat_eq e)
  simp [readFt, writeFt, sparseGet_set_other _ _ this]

@[simp] theorem readCode_writeCode_same (s : State) (b : Byte) (v : CodeEntry) : readCode (writeCode s b v) b = v := by
  simp [readCode, writeCode]

theorem readCode_writeCode_other (s : State) {b c : Byte} (v : CodeEntry) (h : c ≠ b) :
    readCode (writeCode s b v) c = readCode s c := by
  have : c.toNat ≠ b.toNat := fun e => h (BitVec.eq_of_toNat_eq e)
  simp [readCode, writeCode, sparseGet_set_other _ _ this]

theorem readNode_eq_ok (s : State) (i : NodeIx) (nd : Node) :
    readNode s i = .ok nd ↔ i.toNat < maxNodes ∧ nodeAt s i = nd := by
  unfold readNode
  split <;> simp_all

theorem writeNode_eq_ok (s : State) (i : NodeIx) (v : Node) (t : State) :
    writeNode s i v = .ok t ↔ i.toNat < maxNodes ∧ s.setNode (sparseSet s.node i.toNat v) = t := by
  unfold writeNode
  split <;> simp_all

theorem readQ_eq_ok (s : State) (i : Nat) (v : NodeIx) : readQ s i = .ok v ↔ i < maxQueue ∧ queueAt s i = v := by
  unfold readQ
  split <;> simp_all

theorem writeQ_eq_ok (s : State) (i : Nat) (v : NodeIx) (t : State) :
    writeQ s i v = .ok t ↔ i < maxQueue ∧ s.setQ (sparseSet s.q i v) = t := by
  unfold writeQ
  split <;> simp_all

theorem setParent_eq_ok (s : State) (i p : NodeIx) (t : State) :
    setParent s i p = .ok t ↔
      i.toNat < maxNodes ∧ s.setNode (sparseSet s.node i.toNat { nodeAt s i with parent := p }) = t := by
  simp only [setParent, bind_eq_ok, readNode_eq_ok, writeNode_eq_ok]
  constructor
  · rintro ⟨_, ⟨_, rfl⟩, h⟩
    exact h
  · exact fun h => ⟨_, ⟨h.1, rfl⟩, h⟩

@[simp] theorem nodeAt_set_same (s : State) (i : NodeIx) (v : Node) :
    nodeAt (s.setNode (sparseSet s.node i.toNat v)) i = v := by
  simp [nodeAt]

theorem nodeAt_set_other (s : State) {i j : NodeIx} (v : Node) (h : j ≠ i) :
    nodeAt (s.setNode (sparseSet s.node i.toNat v)) j = nodeAt s j := by
  have : j.toNat ≠ i.toNat := fun e => h (BitVec.eq_of_toNat_eq e)
  simp [nodeAt, sparseGet_set_other _ _ this]

@[simp] theorem queueAt_set_same (s : State) (i : Nat) (v : NodeIx) :
    queueAt (s.setQ (sparseSet s.q i v)) i = v := by
  simp [queueAt]

theorem queueAt_set_other (s : State) {i j : Nat} (v : NodeIx) (h : j ≠ i) :
    queueAt (s.setQ (sparseSet s.q i v)) j = queueAt s j := by
  simp [queueAt, sparseGet_set_other _ _ h]

/-! ## Buffers -/

theorem inRead_eq_ok (s : State) (a : Nat) (b : Byte) :
    inRead s a = .ok b ↔ (a < s.inLen.toNat ∧ a < s.params.inCap.toNat) ∧ inByte s a = b := by
  unfold inRead
  split <;> simp_all

theorem outWrite_eq_ok (s : State) (a : Nat) (b : Byte) (t : State) :
    outWrite s a b = .ok t ↔ a < s.params.outCap.toNat ∧ s.setOutMem (sparseSet s.outMem a b) = t := by
  unfold outWrite
  split <;> simp_all

/-- Of two replacements of `OUT` the second counts. -/
@[simp] theorem setOutMem_setOutMem (s : State) (m m' : List Host.Cell) : (s.setOutMem m).setOutMem m' = s.setOutMem m' :=
  rfl

theorem outWrite_of_lt {s : State} {a : Nat} {b : Byte} (h : a < s.params.outCap.toNat) :
    outWrite s a b = .ok (s.setOutMem (sparseSet s.outMem a b)) :=
  (outWrite_eq_ok s a b _).2 ⟨h, rfl⟩

/-- A byte of `OUT` after a write to any address. -/
theorem outByte_set (s : State) (a c : Nat) (b : Byte) :
    outByte (s.setOutMem (sparseSet s.outMem a b)) c = if c = a then b else outByte s c := by
  simp only [outByte, setOutMem_outMem, setOutMem_epoch, sparseGet_set]
  split <;> rfl

/-- A byte of `IN` after the host's write to any address. -/
theorem inByte_set (s : State) (a c : Nat) (b : Byte) :
    inByte (s.setInMem (sparseSet s.inMem a b)) c = if c = a then b else inByte s c := by
  simp only [inByte, setInMem_inMem, setInMem_epoch, sparseGet_set]
  split <;> rfl

theorem inRead32_eq_ok (s : State) (a : Nat) (v : BitVec 32) :
    inRead32 s a = .ok v ↔
      (a + 3 < s.inLen.toNat ∧ a + 3 < s.params.inCap.toNat) ∧
        join32 (inByte s a) (inByte s (a + 1)) (inByte s (a + 2)) (inByte s (a + 3)) = v := by
  simp only [inRead32, bind_eq_ok, inRead_eq_ok, Except.ok.injEq]
  constructor
  · rintro ⟨_, ⟨_, rfl⟩, _, ⟨_, rfl⟩, _, ⟨_, rfl⟩, _, ⟨h, rfl⟩, rfl⟩
    exact ⟨h, rfl⟩
  · rintro ⟨h, rfl⟩
    exact ⟨_, ⟨by omega, rfl⟩, _, ⟨by omega, rfl⟩, _, ⟨by omega, rfl⟩, _, ⟨h, rfl⟩, rfl⟩

/-- `OUT` with the four bytes of a field written at an address. -/
def outWith32 (s : State) (a : Nat) (v : BitVec 32) : State :=
  s.setOutMem (sparseSet (sparseSet (sparseSet (sparseSet s.outMem a (byteOf32 v 0)) (a + 1) (byteOf32 v 1)) (a + 2)
    (byteOf32 v 2)) (a + 3) (byteOf32 v 3))

theorem outWrite32_eq_ok (s : State) (a : Nat) (v : BitVec 32) (t : State) :
    outWrite32 s a v = .ok t ↔ a + 3 < s.params.outCap.toNat ∧ outWith32 s a v = t := by
  by_cases h : a + 3 < s.params.outCap.toNat
  · have h0 : a < s.params.outCap.toNat := by omega
    have h1 : a + 1 < s.params.outCap.toNat := by omega
    have h2 : a + 2 < s.params.outCap.toNat := by omega
    rw [outWrite32, outWrite_of_lt h0, ok_bind, outWrite_of_lt (by simpa using h1), ok_bind,
      outWrite_of_lt (by simpa using h2), ok_bind, outWrite_of_lt (by simpa using h), Except.ok.injEq]
    simp only [setOutMem_setOutMem, setOutMem_outMem, outWith32, h, true_and]
  · simp only [outWrite32, bind_eq_ok, outWrite_eq_ok, h, false_and, iff_false]
    rintro ⟨_, ⟨_, rfl⟩, _, ⟨_, rfl⟩, _, ⟨_, rfl⟩, h', -⟩
    exact h h'

theorem readLeaf_eq_ok (s : State) (j : Nat) (l : LeafRecord) :
    readLeaf s j = .ok l ↔
      (leafAddr j + 4 < s.inLen.toNat ∧ leafAddr j + 4 < s.params.inCap.toNat) ∧
        (⟨join32 (inByte s (leafAddr j)) (inByte s (leafAddr j + 1)) (inByte s (leafAddr j + 2))
          (inByte s (leafAddr j + 3)), inByte s (leafAddr j + 4)⟩ : LeafRecord) = l := by
  simp only [readLeaf, bind_eq_ok, inRead32_eq_ok, inRead_eq_ok, Except.ok.injEq]
  constructor
  · rintro ⟨_, ⟨_, rfl⟩, _, ⟨h, rfl⟩, rfl⟩
    exact ⟨h, rfl⟩
  · rintro ⟨h, rfl⟩
    exact ⟨_, ⟨by omega, rfl⟩, _, ⟨h, rfl⟩, rfl⟩

theorem writeLeaf_eq_ok (s : State) (a : Nat) (l : LeafRecord) (t : State) :
    writeLeaf s a l = .ok t ↔
      a + 4 < s.params.outCap.toNat ∧
        (outWith32 s a l.freq).setOutMem (sparseSet (outWith32 s a l.freq).outMem (a + 4) l.sym) = t := by
  simp only [writeLeaf, bind_eq_ok, outWrite32_eq_ok, outWrite_eq_ok]
  constructor
  · rintro ⟨_, ⟨_, rfl⟩, h, rfl⟩
    exact ⟨h, rfl⟩
  · rintro ⟨h, rfl⟩
    exact ⟨_, ⟨by omega, rfl⟩, h, rfl⟩

theorem inBit_eq_ok (s : State) (p : Nat) (v : Bool) :
    inBit s p = .ok v ↔
      (p / 8 < s.inLen.toNat ∧ p / 8 < s.params.inCap.toNat) ∧ (inByte s (p / 8)).getLsbD (p % 8) = v := by
  simp only [inBit, bind_eq_ok, inRead_eq_ok, Except.ok.injEq]
  constructor
  · rintro ⟨_, ⟨h, rfl⟩, rfl⟩
    exact ⟨h, rfl⟩
  · rintro ⟨h, rfl⟩
    exact ⟨_, ⟨h, rfl⟩, rfl⟩

/-! ## The canonical form of the buffer memories -/

/-- The block's write to `OUT` keeps the canonical form. -/
theorem outWrite_wf {s t : State} {a : Nat} {b : Byte} (h : outWrite s a b = .ok t)
    (hw : Memory.wf s.params.outCap.toNat s.outMem) : Memory.wf t.params.outCap.toNat t.outMem := by
  obtain ⟨ha, rfl⟩ := (outWrite_eq_ok s a b t).1 h
  simpa using sparseSet_wf hw ha b

/-- The host's write to a byte that exists keeps the canonical form. -/
theorem hostWrite_wf {cap : Addr} {m : List Host.Cell} (hw : Memory.wf cap.toNat m) {a : Addr} (ha : a < cap) (b : Byte) :
    Memory.wf cap.toNat (sparseSet m a.toNat b) :=
  sparseSet_wf hw (BitVec.lt_def.1 ha) b

/-- The memories right after reset are in canonical form. -/
theorem reset_memories_wf (p : Params) (epoch : Nat) :
    Memory.wf p.inCap.toNat (State.resetWith p epoch).inMem ∧ Memory.wf p.outCap.toNat (State.resetWith p epoch).outMem :=
  ⟨sparseWf_nil _, sparseWf_nil _⟩

end Sys2Proof.Machine
end

