-- ==== Sys2Proof/Laws/Families.lean ====
section
/-! SUPPORT. What the loops inside a micro-operation can change: each equals its start state but for the fields named. -/

namespace Sys2Proof.Machine

/-! ## SEED -/

/-- Insertion into the seed order adds one symbol. -/
@[simp] theorem length_seedInsert (ft : Byte → BitVec 32) (a : Byte) (l : List Byte) :
    (seedInsert ft a l).length = l.length + 1 := by
  induction l with
  | nil => rfl
  | cons b rest ih =>
    simp only [seedInsert]
    split <;> simp [ih]

/-- Insertion into the seed order keeps the symbols. -/
@[simp] theorem mem_seedInsert (ft : Byte → BitVec 32) (a b : Byte) (l : List Byte) :
    b ∈ seedInsert ft a l ↔ b = a ∨ b ∈ l := by
  induction l with
  | nil => simp [seedInsert]
  | cons c rest ih =>
    simp only [seedInsert]
    split
    · simp
    · simp only [List.mem_cons, ih]
      tauto

@[simp] theorem mem_allBytes (b : Byte) : b ∈ allBytes := by
  simp only [allBytes, List.mem_map, List.mem_range]
  exact ⟨b.toNat, b.isLt, by simp⟩

theorem length_foldr_seedInsert (ft : Byte → BitVec 32) (l : List Byte) :
    (l.foldr (seedInsert ft) []).length = l.length := by
  induction l with
  | nil => rfl
  | cons a rest ih => simp [ih]

theorem mem_foldr_seedInsert (ft : Byte → BitVec 32) (b : Byte) (l : List Byte) :
    b ∈ l.foldr (seedInsert ft) [] ↔ b ∈ l := by
  induction l with
  | nil => simp
  | cons a rest ih => simp [ih]

/-- The symbols in seed order are the symbols present (40 R113). -/
theorem mem_seedOrder (ft : Byte → BitVec 32) (b : Byte) : b ∈ seedOrder ft ↔ 0#32 < ft b := by
  simp [seedOrder, mem_foldr_seedInsert]

/-- There are at most 256 symbols present. -/
theorem length_seedOrder_le (ft : Byte → BitVec 32) : (seedOrder ft).length ≤ alpha := by
  rw [seedOrder, length_foldr_seedInsert]
  exact (List.length_filter_le _ _).trans (by simp [allBytes])

/-- Creating the leaves changes only the node store and the queue. -/
theorem seedLeaves_frame (ft : Byte → BitVec 32) (l : List Byte) (j : Nat) (s : State) :
    seedLeaves ft l j s = { s with node := (seedLeaves ft l j s).node, q := (seedLeaves ft l j s).q } := by
  induction l generalizing j s with
  | nil => rfl
  | cons b rest ih =>
    rw [seedLeaves, ih]
    rfl

/-! ## MERGE -/

/-- The insertion scan changes only the queue. -/
theorem insertScan_frame {f : Freq} {i : Nat} {s : State} {r : Nat × State} (h : insertScan f i s = .ok r) :
    r.2 = s.setQ r.2.q := by
  induction i generalizing s with
  | zero =>
    simp only [insertScan, Except.ok.injEq] at h
    subst h
    rfl
  | succ i ih =>
    simp only [insertScan, bind_eq_ok, readQ_eq_ok, readNode_eq_ok] at h
    obtain ⟨k, -, nd, -, h⟩ := h
    split at h
    · rw [bind_eq_ok] at h
      obtain ⟨s', h', h⟩ := h
      rw [writeQ_eq_ok] at h'
      obtain ⟨-, rfl⟩ := h'
      rw [ih h]
      rfl
    · simp only [Except.ok.injEq] at h
      subst h
      rfl

/-- The place the scan finds is no nearer the tail than where it began. -/
theorem insertScan_le {f : Freq} {i : Nat} {s : State} {r : Nat × State} (h : insertScan f i s = .ok r) : r.1 ≤ i := by
  induction i generalizing s with
  | zero =>
    simp only [insertScan, Except.ok.injEq] at h
    subst h
    exact Nat.le_refl _
  | succ i ih =>
    simp only [insertScan, bind_eq_ok] at h
    obtain ⟨k, -, nd, -, h⟩ := h
    split at h
    · rw [bind_eq_ok] at h
      obtain ⟨s', -, h⟩ := h
      exact (ih h).trans (Nat.le_succ _)
    · simp only [Except.ok.injEq] at h
      subst h
      exact Nat.le_refl _

/-- A merge changes only the node store, the queue and their two counts. -/
theorem mergeOnce_frame {s t : State} (h : mergeOnce s = .ok t) :
    t = { s with node := t.node, q := t.q, nn := s.nn + 1, qn := s.qn - 2 + 1 } := by
  simp only [mergeOnce, bind_eq_ok, readQ_eq_ok, readNode_eq_ok, writeNode_eq_ok, setParent_eq_ok, writeQ_eq_ok,
    Except.ok.injEq] at h
  obtain ⟨a, -, b, -, na, -, nb, -, s1, ⟨-, rfl⟩, s2, ⟨-, rfl⟩, s3, ⟨-, rfl⟩, ⟨i, s4⟩, hs, s5, ⟨-, rfl⟩, rfl⟩ := h
  have hf := insertScan_frame hs
  rw [hf]
  ext <;> simp

/-! ## PACK -/

/-- One bit into the stream changes only the accumulator, its count, `OPOS` and `OUT`. -/
theorem packBit_frame {v : Bool} {s t : State} (h : packBit v s = .ok t) :
    t = { s with acc := t.acc, accn := t.accn, opos := t.opos, outMem := t.outMem } := by
  simp only [packBit] at h
  split at h
  · simp only [bind_eq_ok, outWrite_eq_ok, Except.ok.injEq] at h
    obtain ⟨_, ⟨-, rfl⟩, rfl⟩ := h
    rfl
  · simp only [Except.ok.injEq] at h
    subst h
    rfl

/-- The bits of a code into the stream: the same frame. -/
theorem packBits_frame {bits : BitVec 255} {left k : Nat} {s t : State} (h : packBits bits left k s = .ok t) :
    t = { s with acc := t.acc, accn := t.accn, opos := t.opos, outMem := t.outMem } := by
  induction left generalizing k s with
  | zero =>
    simp only [packBits, Except.ok.injEq] at h
    subst h
    rfl
  | succ left ih =>
    simp only [packBits, bind_eq_ok] at h
    obtain ⟨u, hu, h⟩ := h
    rw [ih h, packBit_frame hu]

/-! ## The sequencer's step -/

/-- The micro-operation each value of `PHASE` selects (30_encoding.md R85). -/
def phaseInstr : Phase → Instr
  | .idle => .idle | .fclr => .fclr | .fcnt => .fcnt | .seed => .seed | .merge => .merge | .assign => .assign
  | .serh => .serh | .serl => .serl | .pack => .pack | .flush => .flush | .parse => .parse | .loadl => .loadl
  | .unpk => .unpk

@[simp] theorem decodePhase_phaseCode (p : Phase) : decodePhase (phaseCode p) = .ok (phaseInstr p) := by
  cases p <;> rfl

/-- All the sequencer can do: while busy it executes the selected micro-operation, else nothing. -/
theorem sequencerStep_eq (s : State) : sequencerStep s = if s.busy then exec (phaseInstr s.phase) s else .next s := by
  unfold sequencerStep selected
  by_cases h : s.busy = true <;> simp [h, exec, execIdle]

end Sys2Proof.Machine
end

