-- ==== Sys2Proof/Laws/HostPort.lean ====
section
/-! SUPPORT. The host's accesses: a read changes nothing but what was read, and `OUT` is plain storage to the host
(20_memory.md R67). -/

namespace Sys2Proof.Machine

/-- A read of a register changes nothing but what the host has read. -/
theorem registerRead_frame (hr : BitVec 3) (s : State) :
    registerRead hr s = { s with hostData := (registerRead hr s).hostData } := by
  unfold registerRead
  repeat' split
  all_goals rfl

/-- A read of `OUT` changes nothing but what the host has read. -/
theorem outputRead_frame (a : Addr) (s : State) : outputRead a s = { s with hostData := (outSeen s a).setWidth 38 } := rfl

/-- What the host has read does not change what it sees. -/
@[simp] theorem outSeen_outputRead (a c : Addr) (s : State) : outSeen (outputRead a s) c = outSeen s c := rfl

/-- Where `OUT` has a value the host sees it. -/
theorem outSeen_of_readable {s : State} {a : Addr} (h : outReadable s a = true) : outSeen s a = outByte s a.toNat :=
  if_pos h

/-- What the host sees at any byte of `OUT` after it has written one. -/
theorem outSeen_outputWrite (a c : Addr) (b : Byte) (s : State) :
    outSeen (outputWrite a b s) c = if c = a then b else outSeen s c := by
  have hk : c.toNat = a.toNat ↔ c = a := BitVec.toNat_inj
  simp only [outSeen, outputWrite, outReadable, outByte, setHostOut_busy, setHostOut_err, setHostOut_outLen,
    setHostOut_outMem, setHostOut_epoch, setHostOut_turn, setHostOut_hostOut, setOutMem_busy, setOutMem_err,
    setOutMem_outLen, setOutMem_outMem, setOutMem_epoch, setOutMem_turn, sparseGet_set, hk]
  by_cases h : c = a
  · simp [h]
  · simp only [if_neg h]
    rfl

/-- The host's write of `OUT` keeps both of its records in canonical form. -/
theorem outputWrite_wf {s : State} {a : Addr} (ha : a < s.params.outCap) (b : Byte)
    (hm : Memory.wf s.params.outCap.toNat s.outMem) (hh : Memory.wf s.params.outCap.toNat s.hostOut) :
    Memory.wf s.params.outCap.toNat (outputWrite a b s).outMem ∧
      Memory.wf s.params.outCap.toNat (outputWrite a b s).hostOut :=
  ⟨hostWrite_wf hm ha b, hostWrite_wf hh ha b⟩

end Sys2Proof.Machine
end

