-- ==== Sys2Proof/Laws/PerInstr.lean ====
section
/-! SUPPORT. What holds of every instruction as syntax: its word, written and read back, is the instruction. -/

namespace Sys2Proof.Laws.Encoding

/-- 30_encoding.md R81, R84: the instruction's word is well formed in its own format, and reads back as it, from a byte
string and from a word of the table's width. -/
def Statement (i : Instr) : Prop :=
  wellFormedWord i.format (encodeWord i).toNat = true ∧ decodeBytes i.format (encode i) = .ok (i, []) ∧
    decodeTableWord i.format.bits (encodeWord i).toNat = some i

theorem compress : Statement .compress := by unfold Statement; decide
theorem decompress : Statement .decompress := by unfold Statement; decide
theorem idle : Statement .idle := by unfold Statement; decide
theorem fclr : Statement .fclr := by unfold Statement; decide
theorem fcnt : Statement .fcnt := by unfold Statement; decide
theorem seed : Statement .seed := by unfold Statement; decide
theorem merge : Statement .merge := by unfold Statement; decide
theorem assign : Statement .assign := by unfold Statement; decide
theorem serh : Statement .serh := by unfold Statement; decide
theorem serl : Statement .serl := by unfold Statement; decide
theorem pack : Statement .pack := by unfold Statement; decide
theorem flush : Statement .flush := by unfold Statement; decide
theorem parse : Statement .parse := by unfold Statement; decide
theorem loadl : Statement .loadl := by unfold Statement; decide
theorem unpk : Statement .unpk := by unfold Statement; decide

end Sys2Proof.Laws.Encoding
end

