-- ==== Sys2Proof/Tests/Slice0.lean ====
section
/-! SUPPORT. The model's own tests, with expected values from 30_encoding.md and 95_test_vectors.md (each test names its
row), and a witness for the hypotheses of each statement that has some. -/

namespace Sys2Proof.Tests

open Sys2Proof Sys2Proof.Machine

/-! ## Helpers -/

/-- A block just reset, of the given capacities. -/
def block (inCap outCap : Nat) : State := State.resetWith ⟨BitVec.ofNat 38 inCap, BitVec.ofNat 38 outCap⟩ 0

/-- A view of the next state, if there is one. -/
def after {α : Type} (o : Host.Outcome State Fault Refusal) (view : State → α) : Option α :=
  match o with
  | .next t => some (view t)
  | .fault _ => none
  | .refused _ => none

/-- A byte string as an input memory, from address `a`. -/
def cells (a : Nat) (bytes : List Byte) : List Host.Cell := bytes.mapIdx fun i b => (a + i, b)

/-- A block with an input. -/
def withInput (s : State) (bytes : List Byte) : State :=
  { s with inMem := cells 0 bytes, inLen := BitVec.ofNat 38 bytes.length }

/-- A frequency table: 0 but for the entries given. -/
def ftOf (entries : List (Byte × BitVec 32)) : List (Nat × BitVec 32) :=
  entries.foldl (fun t e => sparseSet t e.1.toNat e.2) clearedFt

/-- Leaves with the given frequencies and symbols 0, 1, ..., queued in that order, ready for MERGE. -/
def leavesOf (freqs : List Freq) : State :=
  { block 16 16 with
    busy := true, phase := .merge, n := BitVec.ofNat 9 freqs.length, qn := BitVec.ofNat 9 freqs.length
    nn := BitVec.ofNat 9 freqs.length, node := freqs.mapIdx fun i f => (i, leafNode f (BitVec.ofNat 8 i))
    q := (List.range freqs.length).map fun i => (i, BitVec.ofNat 9 i) }

/-- The tree of vector V1: leaves 0 to 2 with symbols 41, 42, 43, and root 4. -/
def v1Tree : State :=
  { block 64 64 with
    busy := true, n := 3, nn := 5, qn := 1, root := 4, cur := 4, origLen := 10
    node := [(0, ⟨5, 0x41, nil, nil, 4⟩), (1, ⟨3, 0x42, nil, nil, 3⟩), (2, ⟨2, 0x43, nil, nil, 3⟩),
      (3, ⟨5, 0x00, 2, 1, 4⟩), (4, ⟨10, 0x00, 3, 0, nil⟩)]
    q := [(0, 4), (1, 3), (2, 2)] }

/-- The codes of vector V1. -/
def v1Codes : List (Nat × CodeEntry) := [(0x41, ⟨1, 1⟩), (0x42, ⟨2, 2⟩), (0x43, ⟨0, 2⟩)]

/-- The input of vector V1. -/
def v1Input : List Byte := [0x41, 0x41, 0x41, 0x41, 0x41, 0x42, 0x42, 0x42, 0x43, 0x43]

/-- The compressed buffer of vector V1. -/
def v1Output : List Byte :=
  [0x0A, 0, 0, 0, 0x02, 0x05, 0, 0, 0, 0x41, 0x03, 0, 0, 0, 0x42, 0x02, 0, 0, 0, 0x43, 0x5F, 0x05]

/-! ## What is well formed -/

theorem test_command_codes_well_formed : wellFormedCmd 0x01#8 = true ∧ wellFormedCmd 0x02#8 = true := by decide
theorem test_reserved_commands_ill_formed :
    wellFormedCmd 0x00#8 = false ∧ wellFormedCmd 0x03#8 = false ∧ wellFormedCmd 0x80#8 = false ∧
      wellFormedCmd 0xFF#8 = false := by decide
theorem test_reserved_phases_ill_formed :
    wellFormedPhase 0xC#4 = true ∧ wellFormedPhase 0xD#4 = false ∧ wellFormedPhase 0xE#4 = false ∧
      wellFormedPhase 0xF#4 = false := by decide
theorem test_wide_words_ill_formed :
    wellFormedWord .cmd8 0x101 = false ∧ wellFormedWord .phase4 0x10 = false ∧ wellFormedWord .phase4 0x0D = false := by
  decide
theorem test_leaf_counts_ill_formed :
    wellFormedLeafCount 0 1 = false ∧ wellFormedLeafCount 1 0 = false ∧ wellFormedLeafCount 1 257 = false ∧
      wellFormedLeafCount 1 256 = true := by decide
theorem test_host_moves_ill_formed :
    hostMoveOk (block 16 16) (.writeIn 16 0) = false ∧ hostMoveOk (block 16 16) (.readOut 16) = false ∧
      hostMoveOk { block 16 16 with busy := true } (.writeIn 0 0) = false ∧
      hostMoveOk { block 16 16 with busy := true } (.writeOut 0 0) = false ∧
      hostMoveOk { block 16 16 with busy := true } .feedback = false ∧
      hostMoveOk (block 16 16) (.writeOut 16 0) = false ∧ hostMoveOk (block 16 16) (.readIn 16) = false := by decide

/-! ## Decoding, from words written out by hand -/

/-- 30_encoding.md R82. -/
theorem test_decode_compress : decodeBytes .cmd8 [0b00000001#8] = .ok (.compress, []) := by decide
theorem test_decode_decompress : decodeBytes .cmd8 [0b00000010#8] = .ok (.decompress, []) := by decide
/-- 30_encoding.md R85. -/
theorem test_decode_idle : decodeBytes .phase4 [0b0000#8] = .ok (.idle, []) := by decide
theorem test_decode_fclr : decodeBytes .phase4 [0b0001#8] = .ok (.fclr, []) := by decide
theorem test_decode_fcnt : decodeBytes .phase4 [0b0010#8] = .ok (.fcnt, []) := by decide
theorem test_decode_seed : decodeBytes .phase4 [0b0011#8] = .ok (.seed, []) := by decide
theorem test_decode_merge : decodeBytes .phase4 [0b0100#8] = .ok (.merge, []) := by decide
theorem test_decode_assign : decodeBytes .phase4 [0b0101#8] = .ok (.assign, []) := by decide
theorem test_decode_serh : decodeBytes .phase4 [0b0110#8] = .ok (.serh, []) := by decide
theorem test_decode_serl : decodeBytes .phase4 [0b0111#8] = .ok (.serl, []) := by decide
theorem test_decode_pack : decodeBytes .phase4 [0b1000#8] = .ok (.pack, []) := by decide
theorem test_decode_flush : decodeBytes .phase4 [0b1001#8] = .ok (.flush, []) := by decide
theorem test_decode_parse : decodeBytes .phase4 [0b1010#8] = .ok (.parse, []) := by decide
theorem test_decode_loadl : decodeBytes .phase4 [0b1011#8] = .ok (.loadl, []) := by decide
theorem test_decode_unpk : decodeBytes .phase4 [0b1100#8] = .ok (.unpk, []) := by decide
/-- 30_encoding.md R83, R86. -/
theorem test_decode_reserved :
    decodeBytes .cmd8 [0x00#8] = .error (.reservedCommand 0x00#8) ∧
      decodeBytes .phase4 [0b1101#8] = .error (.reservedPhase 0xD#4) ∧
      decodeBytes .phase4 [0b00010001#8] = .error (.phaseTooWide 0x11#8) ∧
      decodeBytes .cmd8 [] = .error .truncated := by decide
theorem test_decode_table_words :
    decodeTableWord 8 0x02 = some .decompress ∧ decodeTableWord 4 0x2 = some .fcnt ∧
      decodeTableWord 8 0x0C = some .unpk ∧ decodeTableWord 4 0xD = none ∧ decodeTableWord 8 0xFF = none := by decide
/-- The header and the first leaf record of vector V5, and row H5. -/
theorem test_encode_records :
    encodeHdr ⟨1001#32, leafCountByte 2#9⟩ = [0xE9#8, 0x03#8, 0x00#8, 0x00#8, 0x01#8] ∧
      encodeLeaf ⟨1000#32, 0x00#8⟩ = [0xE8#8, 0x03#8, 0x00#8, 0x00#8, 0x00#8] ∧
      encodeHdr ⟨0x01020304#32, leafCountByte 2#9⟩ = [0x04#8, 0x03#8, 0x02#8, 0x01#8, 0x01#8] := by decide

/-! ## One step of each instruction -/

/-- V25: accepted, and rejected when the length exceeds the capacity. -/
theorem test_compress_accepted :
    after (step { block 8 8 with inLen := 8, err := .corruptStream, done := true, host := [.writeReg 0 1] })
      (fun t => (statusByte t, t.phase, t.mode, t.origLen)) = some (0x01#8, .fclr, .compress, 8#32) := by decide
theorem test_compress_rejected :
    after (step { block 8 8 with inLen := 9, host := [.writeReg 0 1] }) (fun t => (statusByte t, t.phase)) =
      some (0x06#8, .idle) := by decide
/-- V25: DECOMPRESS has no 2^32 limit; COMPRESS has. -/
theorem test_decompress_long_input :
    after (exec .decompress { block (2 ^ 33) 8 with inLen := 4294967296 }) (fun t => (statusByte t, t.phase, t.mode)) =
      some (0x01#8, .parse, .decompress) := by decide
theorem test_compress_long_input :
    after (exec .compress { block (2 ^ 33) 8 with inLen := 4294967296 }) statusByte = some 0x06#8 := by decide
/-- V25: a reserved code is rejected. -/
theorem test_reserved_command_rejected :
    after (step { block 8 8 with host := [.writeReg 0 0x80] }) statusByte = some 0x06#8 := by decide
/-- V26: a command while busy changes nothing. -/
theorem test_decompress_while_busy :
    after (step { v1Tree with phase := .pack, host := [.writeReg 0 2] }) id = some { v1Tree with phase := .pack } := by
  decide
/-- 45 R196. -/
theorem test_idle : after (step (block 8 8)) id = some (block 8 8) := by decide
/-- F1. -/
theorem test_fclr :
    after (step { block 8 8 with busy := true, phase := .fclr, ipos := 7, ft := [(3, 9)] })
      (fun t => (readFt t 0x00#8, readFt t 0x03#8, readFt t 0xFF#8, t.ipos, t.phase)) =
      some (0#32, 0#32, 0#32, 0#38, .fcnt) := by decide +kernel
/-- F2. -/
theorem test_fcnt_counts :
    after (step { withInput (block 16 16) v1Input with
        busy := true, phase := .fcnt, ipos := 4, origLen := 10, ft := [(0x41, 4)] })
      (fun t => (t.ft, t.ipos, t.phase)) = some ([(0x41, 5#32)], 5#38, .fcnt) := by decide
/-- F4: no byte is read. -/
theorem test_fcnt_exits : after (step { block 8 8 with busy := true, phase := .fcnt }) Machine.State.phase = some .seed := by
  decide
/-- F6: the tie of 69 and 73 goes by ascending symbol. -/
theorem test_seed_order :
    after (step { block 16 16 with
        busy := true, phase := .seed, ft := ftOf [(0x69, 4), (0x6D, 1), (0x70, 2), (0x73, 4)] })
      (fun t => (t.node, t.q, t.n)) =
      some ([(0, leafNode 4 0x69), (1, leafNode 4 0x73), (2, leafNode 2 0x70), (3, leafNode 1 0x6D)],
        [(0, 0), (1, 1), (2, 2), (3, 3)], 4#9) := by decide +kernel
/-- F8. -/
theorem test_seed_of_nothing :
    after (step { block 16 16 with busy := true, phase := .seed, ft := clearedFt, totbits := 9, li := 3 })
      (fun t => (t.n, t.qn, t.totbits, t.li, t.phase)) = some (0, 0, 0, 0, .serh) := by decide +kernel
/-- M9: passes one entry, stops at 5. -/
theorem test_merge_inserts :
    after (step { leavesOf [5, 2, 2, 1, 1, 2] with q := [(0, 0), (1, 1), (2, 2), (3, 5)], qn := 4 })
      (fun t => (nodeAt t 6, queueAt t 0, queueAt t 1, queueAt t 2, t.qn, t.nn)) =
      some (⟨4, 0x00, 5, 2, nil⟩, 0, 6, 1, 3, 7) := by decide
/-- M11: 40-bit frequencies do not wrap. -/
theorem test_merge_does_not_wrap :
    after (step (leavesOf [0xFFFFFFFF, 0xFFFFFFFF, 0xFFFFFFFF]))
      (fun t => ((nodeAt t 3).freq, queueAt t 0, queueAt t 1, (nodeAt t 1).parent)) =
      some (0x1FFFFFFFE, 3, 0, 3) := by decide
/-- A2: the root-adjacent bit is bit 0. -/
theorem test_assign :
    after (step { v1Tree with phase := .assign, li := 1, totbits := 5 })
      (fun t => (readCode t 0x42#8, t.totbits, t.li)) = some (⟨2, 2⟩, 11, 2) := by decide
/-- A4. -/
theorem test_assign_exits :
    after (step { v1Tree with phase := .assign, li := 3 }) id = some { v1Tree with phase := .serh, li := 3 } := by decide
/-- H5. -/
theorem test_serh_writes_header :
    after (step { v1Tree with phase := .serh, n := 2, origLen := 0x01020304 })
      (fun t => (t.outMem, t.opos, t.li, t.phase)) = some (cells 0 [4, 3, 2, 1, 1], 5, 0, .serl) := by decide
/-- H4. -/
theorem test_serh_capacity :
    after (step { v1Tree with phase := .serh, totbits := 15, params := ⟨64, 21⟩ })
      (fun t => (statusByte t, t.outLen, t.outMem)) = some (0x0E#8, 0, []) := by decide
/-- H6. -/
theorem test_serl_writes_record :
    after (step { v1Tree with phase := .serl, li := 1, opos := 10 }) (fun t => (t.outMem, t.opos, t.li)) =
      some (cells 10 [3, 0, 0, 0, 0x42], 15, 2) := by decide
/-- H7. -/
theorem test_serl_exits :
    after (step { v1Tree with phase := .serl, li := 3, opos := 20, ipos := 10, acc := 7, accn := 3 })
      (fun t => (t.ipos, t.acc, t.accn, t.phase)) = some (0, 0, 0, .pack) := by decide
/-- K3: a code that straddles the byte. -/
theorem test_pack_straddles :
    after (step { withInput v1Tree v1Input with
        phase := .pack, ipos := 6, code := v1Codes, acc := 0x5F, accn := 7, opos := 20 })
      (fun t => (t.outMem, t.opos, t.acc, t.accn, t.ipos)) = some ([(20, 0x5F)], 21, 0x01, 1, 7) := by decide
/-- K8: one step writes four bytes. -/
theorem test_pack_long_code :
    after (step { withInput v1Tree v1Input with
        phase := .pack, ipos := 0, code := [(0x41, ⟨137438953471, 39⟩)], opos := 9 })
      (fun t => (t.outMem, t.opos, t.acc, t.accn)) = some (cells 9 [0xFF, 0xFF, 0xFF, 0xFF], 13, 0x1F, 7) := by
  decide +kernel
/-- K6. -/
theorem test_flush_writes :
    after (step { v1Tree with phase := .flush, acc := 0x05, accn := 7, opos := 21 })
      (fun t => (t.outMem, t.outLen, statusByte t, t.phase)) = some ([(21, 0x05)], 22, 0x02#8, .idle) := by decide
/-- K7. -/
theorem test_flush_writes_nothing :
    after (step { v1Tree with phase := .flush, opos := 21 }) (fun t => (t.outMem, t.outLen, statusByte t)) =
      some ([], 21, 0x02#8) := by decide
/-- P-3. -/
theorem test_parse_short_list :
    after (step { withInput v1Tree (v1Output.take 19) with phase := .parse, n := 0, origLen := 0 })
      (fun t => (t.origLen, t.n, statusByte t)) = some (10, 3, 0x0A#8) := by decide
/-- P-5. -/
theorem test_parse_accepts :
    after (step { withInput v1Tree (v1Output.take 20) with phase := .parse, n := 0, li := 7, params := ⟨64, 10⟩ })
      (fun t => (t.origLen, t.n, t.li, t.phase)) = some (10, 3, 0, .loadl) := by decide
/-- L1. -/
theorem test_loadl_reads_record :
    after (step { withInput v1Tree v1Output with phase := .loadl, li := 1, node := [], q := [] })
      (fun t => (t.node, t.q, t.li)) = some ([(1, ⟨3, 0x42, nil, nil, nil⟩)], [(1, 1)], 2) := by decide
/-- L2. -/
theorem test_loadl_exits :
    after (step { v1Tree with phase := .loadl, li := 3, opos := 9 })
      (fun t => (t.qn, t.nn, t.opos, t.bitpos, t.phase)) = some (3, 3, 0, 160, .merge) := by decide
/-- U-3. -/
theorem test_unpk_descends :
    after (step { withInput v1Tree v1Output with phase := .unpk, mode := .decompress, bitpos := 165 })
      (fun t => (t.cur, t.bitpos)) = some (3, 166) := by decide
/-- U-2. -/
theorem test_unpk_emits :
    after (step { v1Tree with phase := .unpk, mode := .decompress, cur := 0, bitpos := 161 })
      (fun t => (t.outMem, t.opos, t.cur, t.bitpos)) = some ([(0, 0x41)], 1, 4, 161) := by decide

/-! ## The host's accesses -/

/-- 20_memory.md R67: `OUT` beyond `OUT_LEN` is plain storage too: what the host writes there it reads. -/
theorem test_out_is_plain_storage :
    after (runFor 2 { block 8 8 with done := true, host := [.writeOut 7 0xAB, .readOut 7] })
      (fun t => (t.hostData, t.outLen)) = some (0xAB#38, 0#38) := by decide
/-- Program P7, line 4: EXPECT after a reset; and not during a run. -/
theorem test_expect_after_reset :
    after (step { v1Tree with phase := .pack, host := [.reset] }) (fun t => meets t ⟨.ok, 0, []⟩) = some true ∧
      meets { v1Tree with phase := .pack } ⟨.ok, 0, []⟩ = false := by decide

/-! ## The codec functions -/

/-- V1 and V15. -/
theorem test_codec_v1 :
    compressBytes v1Input = v1Output ∧ decompressResult 10 v1Output = (.ok, v1Input) := by decide +kernel
/-- V2 and V14 (a buffer one byte short). -/
theorem test_codec_edges :
    compressBytes [] = [0, 0, 0, 0, 0] ∧ decompressResult 64 (v1Output.take 21) = (.corruptStream, []) := by
  decide +kernel

/-! ## Witnesses: for each statement with hypotheses, inputs that meet them all, at the ends of their ranges -/

/-- A step that answers, and what its state meets. -/
theorem exists_of_after {o : Host.Outcome State Fault Refusal} {view : State → Bool} (h : after o view = some true) :
    ∃ t, o = .next t ∧ view t = true := by
  cases o with
  | next t => exact ⟨t, rfl, by simpa [after] using h⟩
  | fault f => simp [after] at h
  | refused r => simp [after] at h

/-- A block with tables and an input in which every instruction answers. -/
def sample : State :=
  { withInput v1Tree v1Input with code := v1Codes, ft := ftOf [(0x41, 5), (0x42, 3), (0x43, 2)] }

/-- The block of vector V4, waiting with its one byte of input. -/
def v4Block : State := withInput (block 16 16) [0x5A]

/-- Vector V4's compressed buffer, as the input of a waiting block. -/
def v4Back : State := withInput (block 16 16) [0x01, 0, 0, 0, 0, 0x01, 0, 0, 0, 0x5A]

theorem witness_CodesDecode :
    (0x00#8 ≠ 0x01#8 ∧ 0x00#8 ≠ 0x02#8) ∧ (0x03#8 ≠ 0x01#8 ∧ 0x03#8 ≠ 0x02#8) ∧
      (0xFF#8 ≠ 0x01#8 ∧ 0xFF#8 ≠ 0x02#8) ∧ (0xC#4).toNat ≤ 12 ∧ ¬(0xD#4).toNat ≤ 12 := by decide
theorem witness_LeafCountRoundTrip :
    wellFormedLeafCount 0#32 (0#9).toNat = true ∧ wellFormedLeafCount 1#32 (1#9).toNat = true ∧
      wellFormedLeafCount 1#32 (256#9).toNat = true ∧ 1#32 ≠ 0#32 := by decide
theorem witness_CodecRoundTrip : v1Input.length < 2 ^ 32 ∧ v1Input.length ≤ 10 := by decide
theorem witness_CodesArePrefixFree :
    let t := CodeTree.node 3 (.leaf 1 0x62) (.leaf 2 0x61)
    0x61#8 ≠ 0x62#8 ∧ codeOf 0x61 t = some [true] ∧ codeOf 0x62 t = some [false] := by decide
/-- The tree of "aab": the leaf of frequency 2 is strictly more frequent than the one of frequency 1. -/
theorem witness_HigherFrequencyIsNoDeeper :
    let t := CodeTree.node 3 (.leaf 1 0x62) (.leaf 2 0x61)
    [0x61#8, 0x61#8, 0x62#8].length < 2 ^ 32 ∧
      buildTree ((leafRecords [0x61#8, 0x61#8, 0x62#8]).map recordTree) = some t ∧
      (2, 0x61#8, 1) ∈ treeLeaves 0 t ∧ (1, 0x62#8, 1) ∈ treeLeaves 0 t := by decide +kernel
theorem witness_BuilderKeepsTheLeaves :
    buildTree (([⟨1, 0x58⟩, ⟨5, 0x59⟩, ⟨2, 0x5A⟩] : List LeafRecord).map recordTree) =
      some (.node 8 (.leaf 1 0x58) (.node 7 (.leaf 2 0x5A) (.leaf 5 0x59))) := by decide
theorem witness_SucceedsExactlyOnConforming :
    (decompressResult 10 v1Output).1 = .ok ∧ (decompressResult 9 v1Output).1 ≠ .ok := by decide +kernel
theorem witness_StepRunsSelectedMicroOperation :
    let s := { sample with phase := .serl }
    (s.host = [] ∧ s.busy = true ∧ decodePhase (phaseCode s.phase) = .ok .serl) ∧
      ({ s with host := [.yield] }.host = .yield :: []) ∧ (block 8 8).host = [] ∧ (block 8 8).busy = false := by decide
theorem witness_CommandWriteRunsCommand :
    { sample with host := [.writeReg 0 0x3FFFFFFF02] }.host = .writeReg 0#3 0x3FFFFFFF02#38 :: [] ∧
      decodeCmd ((0x3FFFFFFF02#38).setWidth 8) = .ok .decompress := by decide
theorem witness_PollingWaitsForDone :
    let s := { sample with phase := .pack, host := [.await] }
    s.host = .await :: [] ∧ s.done = false ∧ s.busy = true ∧ decodePhase (phaseCode s.phase) = .ok .pack ∧
      { block 8 8 with done := true, host := [.await] }.done = true := by decide
theorem witness_CompressAcceptance :
    let s := { block 8 8 with inLen := 8 }
    let long := { block (2 ^ 33) 8 with inLen := 4294967296 }
    let longest := { block (2 ^ 33) 8 with inLen := 4294967295 }
    (s.busy = false ∧ s.inLen ≤ s.params.inCap ∧ s.inLen.toNat < 2 ^ 32) ∧
      (longest.inLen ≤ longest.params.inCap ∧ longest.inLen.toNat < 2 ^ 32) ∧
      { s with inLen := 9 }.params.inCap < { s with inLen := 9 }.inLen ∧
      (long.busy = false ∧ 2 ^ 32 ≤ long.inLen.toNat) ∧ sample.busy = true := by decide
theorem witness_DecompressAcceptance :
    let s := { block 8 8 with inLen := 8 }
    (s.busy = false ∧ s.inLen ≤ s.params.inCap) ∧
      { s with inLen := 9 }.params.inCap < { s with inLen := 9 }.inLen ∧ sample.busy = true := by decide
theorem witness_CommandAcceptance : v4Block.busy = false := by decide
theorem witness_CompletionSequence : ErrCode.invalidInput ≠ .ok ∧ ErrCode.capacityExceeded ≠ .ok := by decide
theorem witness_FcntCountsOneByte :
    let s := { sample with ipos := 9 }
    (s.ipos.toNat < s.origLen.toNat ∧ s.ipos < s.inLen ∧ s.inLen ≤ s.params.inCap) ∧
      { s with ipos := 10 }.origLen.toNat ≤ { s with ipos := 10 }.ipos.toNat := by decide
theorem witness_FrequencyTableCountsTheInput :
    let s := { sample with phase := .fclr }
    s.busy = true ∧ s.host = [] ∧ s.phase = .fclr ∧ s.origLen.toNat = s.inLen.toNat ∧ s.inLen ≤ s.params.inCap := by
  decide
theorem witness_MergeJoinsTheTwoTailEntries :
    let s := leavesOf [5, 3, 2]
    2 ≤ s.qn.toNat ∧ s.qn.toNat ≤ maxQueue ∧ s.nn.toNat < maxNodes ∧
      ∀ j < s.qn.toNat, (queueAt s j).toNat < maxNodes ∧ queueAt s j ≠ s.nn := by decide
theorem witness_MergeExitTakesTheRoot : v1Tree.qn = 1#9 := by decide
theorem witness_MergeKeepsTheQueueOrdered :
    let s := leavesOf [5, 3, 2]
    QueueOrdered s ∧ ∃ t, exec .merge s = .next t := by
  refine ⟨fun i hi => ?_, _, rfl⟩
  have h : i < 2 := by
    have : (leavesOf [5, 3, 2]).qn.toNat = 3 := by decide
    omega
  interval_cases i <;> decide
theorem witness_MergeRunBuildsTheTree :
    let s := leavesOf [5, 3, 2]
    s.busy = true ∧ s.host = [] ∧ s.phase = .merge ∧ MergeEntry s := by
  refine ⟨by decide, by decide, by decide, by decide, by decide, by decide, by decide, fun j hj => ?_⟩
  have h : j < 3 := hj
  interval_cases j
  · exact ⟨by decide, 5, 0x00, by decide⟩
  · exact ⟨by decide, 3, 0x01, by decide⟩
  · exact ⟨by decide, 2, 0x02, by decide⟩
/-- Leaf 2 of V1's tree: left, then left. -/
theorem witness_AssignRecordsTheRootPath :
    let s := { v1Tree with li := 2 }
    s.li < s.n ∧ RootPath s s.li [false, false] ∧ { s with li := 3 }.n ≤ { s with li := 3 }.li := by
  refine ⟨by decide, ?_, by decide⟩
  have r := RootPath.root (s := { v1Tree with li := 2 }) 4 (by decide) (by decide)
  have m := RootPath.down (s := { v1Tree with li := 2 }) 3 [] (by decide) (by decide) r
  exact RootPath.down (s := { v1Tree with li := 2 }) 2 [false] (by decide) (by decide) m
/-- H4 and the capacity that is just enough. -/
theorem witness_SerhChecksThenWritesHeader :
    let s := { v1Tree with totbits := 15, params := ⟨64, 21⟩ }
    s.params.outCap.toNat < 5 + 5 * s.n.toNat + (s.totbits.toNat + 7) / 8 ∧
      5 + 5 * s.n.toNat + (s.totbits.toNat + 7) / 8 ≤ { s with params := ⟨64, 22⟩ }.params.outCap.toNat := by decide
theorem witness_SerlWritesOneRecord :
    let s := { v1Tree with li := 2, opos := 15, params := ⟨64, 20⟩ }
    (s.li < s.n ∧ s.li.toNat < maxNodes ∧ s.opos.toNat + 5 ≤ s.params.outCap.toNat) ∧
      { s with li := 3 }.n ≤ { s with li := 3 }.li := by decide
theorem witness_ParseChecksInOrder :
    (withInput v1Tree v1Output).inLen ≤ (withInput v1Tree v1Output).params.inCap ∧
      (withInput (block 4 8) (v1Output.take 4)).inLen ≤ (withInput (block 4 8) (v1Output.take 4)).params.inCap := by
  decide
theorem witness_LoadlReadsOneRecord :
    let s := { withInput v1Tree (v1Output.take 20) with li := 2 }
    (s.li < s.n ∧ s.li.toNat < maxQueue ∧ 5 + 5 * s.li.toNat + 5 ≤ s.inLen.toNat ∧ s.inLen ≤ s.params.inCap) ∧
      { s with li := 3 }.n ≤ { s with li := 3 }.li := by decide
/-- K3: the accumulator fills, at the last byte `OUT` has. -/
theorem witness_PackAppendsOneCode :
    let s := { sample with ipos := 6, acc := 0x5F, accn := 7, opos := 20, params := ⟨64, 21⟩ }
    (s.ipos.toNat < s.origLen.toNat ∧ s.ipos < s.inLen ∧ s.inLen ≤ s.params.inCap ∧ AccOk s ∧
        (streamPos s + (readCode s (inByte s s.ipos.toNat)).len.toNat) / 8 ≤ s.params.outCap.toNat) ∧
      { s with ipos := 10 }.origLen.toNat ≤ { s with ipos := 10 }.ipos.toNat := by decide
theorem witness_FlushWritesTheLastByte :
    let s := { sample with acc := 0x05, accn := 7, opos := 21, params := ⟨64, 22⟩ }
    (s.accn ≠ 0#3 ∧ s.opos < s.params.outCap) ∧ sample.accn = 0#3 := by decide
theorem witness_UnpkDoesOneOfFour :
    let s := { withInput v1Tree v1Output with params := ⟨64, 10⟩ }
    { s with opos := 10 }.opos.toNat = { s with opos := 10 }.origLen.toNat ∧
      (let u := { s with opos := 9, cur := 2 }
       u.opos.toNat ≠ u.origLen.toNat ∧ u.cur.toNat < maxNodes ∧ (nodeAt u u.cur).left = nil ∧
          u.opos < u.params.outCap) ∧
      (let u := { s with bitpos := 176 }
       u.opos.toNat ≠ u.origLen.toNat ∧ u.cur.toNat < maxNodes ∧ (nodeAt u u.cur).left ≠ nil ∧
          8 * u.inLen.toNat ≤ u.bitpos.toNat) ∧
      (let u := { s with bitpos := 175 }
       u.opos.toNat ≠ u.origLen.toNat ∧ u.cur.toNat < maxNodes ∧ (nodeAt u u.cur).left ≠ nil ∧
          u.bitpos.toNat < 8 * u.inLen.toNat ∧ u.inLen ≤ u.params.inCap) := by decide
/-- Every instruction answers a next state somewhere: here in one state. -/
theorem witness_EveryInstructionFrame : ∀ i : Instr, ∃ t, exec i sample = .next t := by
  intro i
  cases i <;> exact ⟨_, rfl⟩
theorem witness_CommandAndTableFrames :
    (∃ t, exec .compress v4Block = .next t) ∧ (∃ t, exec .decompress v4Block = .next t) ∧
      (∃ t, exec .idle sample = .next t) ∧ (∃ t, exec .fclr sample = .next t) ∧ (∃ t, exec .fcnt sample = .next t) ∧
      (∃ t, exec .seed sample = .next t) ∧ (∃ t, exec .merge (leavesOf [5, 3, 2]) = .next t) ∧
      (∃ t, exec .assign sample = .next t) :=
  ⟨⟨_, rfl⟩, ⟨_, rfl⟩, ⟨_, rfl⟩, ⟨_, rfl⟩, ⟨_, rfl⟩, ⟨_, rfl⟩, ⟨_, rfl⟩, ⟨_, rfl⟩⟩
theorem witness_SerializerFrames :
    (∃ t, exec .serh sample = .next t) ∧ (∃ t, exec .serl sample = .next t) ∧
      (∃ t, exec .parse (withInput v1Tree v1Output) = .next t) ∧
      (∃ t, exec .loadl (withInput v1Tree v1Output) = .next t) ∧
      { sample with params := ⟨64, 19⟩ }.params.outCap.toNat < need { sample with params := ⟨64, 19⟩ } ∧
      { sample with li := 3 }.n ≤ { sample with li := 3 }.li :=
  ⟨⟨_, rfl⟩, ⟨_, rfl⟩, ⟨_, rfl⟩, ⟨_, rfl⟩, by decide, by decide⟩
theorem witness_PackerFrames :
    (∃ t, exec .pack { sample with ipos := 6, acc := 0x5F, accn := 7, opos := 20 } = .next t) ∧
      (∃ t, exec .flush { sample with acc := 0x05, accn := 7, opos := 21 } = .next t) ∧
      (∃ t, exec .unpk { sample with cur := 0 } = .next t) :=
  ⟨⟨_, rfl⟩, ⟨_, rfl⟩, ⟨_, rfl⟩⟩
theorem witness_RegisterReads :
    (v4Block.busy = false ∧ { v4Block with host := [.readReg 5] }.host = .readReg 5#3 :: []) ∧
      (sample.busy = true ∧ { sample with host := [.readReg 4] }.host = .readReg 4#3 :: [] ∧
        { sample with host := [.readReg 7] }.host = .readReg 7#3 :: [] ∧ 7#3 ≠ 4#3 ∧ 7#3 ≠ 5#3) := by decide
theorem witness_RegisterWrites :
    let s := { sample with host := [.writeReg 2 0] }
    (s.host = .writeReg 2#3 0#38 :: [] ∧ s.busy = true) ∧
      ({ v4Block with host := [.writeReg 7 1] }.host = .writeReg 7#3 1#38 :: [] ∧ v4Block.busy = false ∧ 7#3 ≠ 0#3) := by
  decide
/-- The last byte of each buffer. -/
theorem witness_HostBufferAccesses :
    (v4Block.busy = false ∧ 15#38 < v4Block.params.inCap ∧ 15#38 < v4Block.params.outCap) ∧
      (let s := { block 16 16 with done := true, outLen := 16, outMem := [(15, 0xAA)] }
       s.busy = false ∧ s.err = .ok ∧ 15#38 < s.outLen ∧ 15#38 < s.params.outCap) ∧
      { v4Block with host := [.readOut 15, .readOut 15] }.host = .readOut 15#38 :: .readOut 15#38 :: [] ∧
      sample.busy = true := by decide
theorem witness_HostNotationMovesData :
    let s := { block 10 16 with outLen := 10 }
    s.busy = false ∧ s.host = [] ∧ v1Input.length ≤ s.params.inCap.toNat ∧ s.outLen ≤ s.params.inCap := by decide
theorem witness_ResetEventRestoresResetValues : { sample with host := [.reset] }.host = .reset :: [] := by decide
theorem witness_FieldsAreLittleEndian :
    6 + 4 ≤ sample.inLen.toNat ∧ sample.inLen ≤ sample.params.inCap ∧ 60 + 4 ≤ sample.params.outCap.toNat := by decide
theorem witness_EveryStepKeepsControl :
    ControlOk { sample with phase := .serl } ∧ ∃ t, step { sample with phase := .serl } = .next t :=
  ⟨by decide, _, rfl⟩
theorem witness_EveryStepKeepsCanonicalForm :
    CanonicalOk { sample with phase := .serl, ft := [] } ∧
      ∃ t, step { sample with phase := .serl, ft := [] } = .next t :=
  ⟨by decide, _, rfl⟩
theorem witness_EveryStepKeepsAccumulatorClean :
    let s := { sample with phase := .pack, ipos := 6, acc := 0x5F, accn := 7, opos := 20 }
    AccOk s ∧ ∃ t, step s = .next t :=
  ⟨by decide, _, rfl⟩
theorem witness_PhaseTransitions :
    ∀ p : Phase, sample.host = [] ∧ sample.busy = true ∧ ∃ t, step { sample with phase := p } = .next t := by
  intro p
  cases p <;> exact ⟨rfl, rfl, _, rfl⟩
theorem witness_RunsBeginAndEndAsStated :
    (v4Block.busy = false ∧ ∃ t, step (issued v4Block 0x01) = .next t ∧ t.busy = true) ∧
      (sample.busy = true ∧ ∃ t, step { sample with phase := .flush } = .next t ∧ t.busy = false) :=
  ⟨⟨rfl, _, rfl, rfl⟩, rfl, _, rfl, rfl⟩
theorem witness_RunLeavesItsInputAlone :
    let s := { sample with phase := .pack }
    s.busy = true ∧ s.host.head? ≠ some .reset ∧ ∃ t, step s = .next t :=
  ⟨rfl, by decide, _, rfl⟩
theorem witness_EveryRunStepLowersTheRank :
    let s := { sample with phase := .serl }
    s.host = [] ∧ s.busy = true ∧ s.phase ≠ .idle ∧ ∃ t, step s = .next t :=
  ⟨rfl, rfl, by decide, _, rfl⟩
theorem witness_EveryCommandCompletes : Waiting v4Block := ⟨rfl, rfl⟩
theorem witness_CompressRunGivesItsResult :
    Waiting v4Block ∧ v4Block.inLen ≤ v4Block.params.inCap ∧ v4Block.inLen.toNat < 2 ^ 32 :=
  ⟨⟨rfl, rfl⟩, by decide, by decide⟩
theorem witness_DecompressRunGivesItsResult : Waiting v4Back ∧ v4Back.inLen ≤ v4Back.params.inCap :=
  ⟨⟨rfl, rfl⟩, by decide⟩
/-- The run of vector V4: a step for the command and 13 of the sequencer. -/
theorem v4_run :
    ∃ t, runFor 14 (issued v4Block 0x01) = .next t ∧ t.host = [] ∧ Completed t ∧ t.err = .ok ∧
      outputOf t = [0x01, 0, 0, 0, 0, 0x01, 0, 0, 0, 0x5A] := by
  have h : after (runFor 14 (issued v4Block 0x01)) (fun t => decide (t.host = []) && !t.busy && t.done &&
      decide (t.phase = .idle) && decide (t.err = .ok) &&
      decide (outputOf t = [0x01, 0, 0, 0, 0, 0x01, 0, 0, 0, 0x5A])) = some true := by decide +kernel
  obtain ⟨t, ht, hv⟩ := exists_of_after h
  simp only [Bool.and_eq_true, decide_eq_true_eq, Bool.not_eq_true'] at hv
  exact ⟨t, ht, hv.1.1.1.1.1, ⟨hv.1.1.1.1.2, hv.1.1.1.2, hv.1.1.2⟩, hv.1.2, hv.2⟩
theorem witness_MachineRoundTrip :
    ∃ t, runFor 14 (issued v4Block 0x01) = .next t ∧ t.host = [] ∧ Completed t ∧ t.err = .ok ∧ Waiting v4Back ∧
      v4Back.inLen ≤ v4Back.params.inCap ∧ inputOf v4Back = outputOf t ∧ v4Block.inLen ≤ v4Back.params.outCap := by
  obtain ⟨t, ht, hh, hc, he, ho⟩ := v4_run
  exact ⟨t, ht, hh, hc, he, ⟨rfl, rfl⟩, by decide, ho.symm ▸ by decide, by decide⟩
/-- Two blocks with the same input and different tables. -/
theorem witness_ResultDependsOnInputAlone :
    let s' := { v4Block with node := [(0, leafNode 9 0x77)], acc := 0xFF, cur := 3 }
    Waiting v4Block ∧ Waiting s' ∧ v4Block.params = s'.params ∧ v4Block.inLen = s'.inLen ∧
      inputOf v4Block = inputOf s' ∧
      (∃ t, runFor 14 (issued v4Block 0x01) = .next t ∧ t.host = [] ∧ Completed t) ∧
      ∃ t', runFor 14 (issued s' 0x01) = .next t' ∧ t'.host = [] ∧ Completed t' := by
  obtain ⟨t, ht, hh, hc, -⟩ := v4_run
  refine ⟨⟨rfl, rfl⟩, ⟨rfl, rfl⟩, rfl, rfl, rfl, ⟨t, ht, hh, hc⟩, ?_⟩
  have h : after (runFor 14 (issued { v4Block with node := [(0, leafNode 9 0x77)], acc := 0xFF, cur := 3 } 0x01))
      (fun t => decide (t.host = []) && !t.busy && t.done && decide (t.phase = .idle)) = some true := by decide +kernel
  obtain ⟨u, hu, hv⟩ := exists_of_after h
  simp only [Bool.and_eq_true, decide_eq_true_eq, Bool.not_eq_true'] at hv
  exact ⟨u, hu, hv.1.1.1, hv.1.1.2, hv.1.2, hv.2⟩

end Sys2Proof.Tests
end

section
/-! PROOFS. What each instruction can do when it answers a next state: one equivalence per instruction. Later proofs
cite these and unfold no instruction. -/

namespace Sys2Proof.Machine

/-! ## Commands -/

/-- COMPRESS is ignored, rejected or accepted (45 R191, R192, R195). -/
theorem exec_compress_eq_next (s t : State) :
    exec .compress s = .next t ↔
      (s.busy = true ∧ s = t) ∨
      (s.busy = false ∧ (s.params.inCap < s.inLen ∨ 2 ^ 32 ≤ s.inLen.toNat) ∧ reject .invalidInput s = t) ∨
      (s.busy = false ∧ s.inLen ≤ s.params.inCap ∧ s.inLen.toNat < 2 ^ 32 ∧
        { accept .compress s with origLen := s.inLen.setWidth 32, phase := .fclr } = t) := by
  simp only [exec, execCompress, Host.Outcome.next.injEq, ← BitVec.not_lt, ← Nat.not_le]
  by_cases hb : s.busy = true
  · simp [hb]
  · by_cases hc : s.params.inCap < s.inLen
    · simp [hb, hc]
    · by_cases hl : 2 ^ 32 ≤ s.inLen.toNat
      · simp [hb, hc, hl, -Nat.reducePow]
      · simp [hb, hc, hl, -Nat.reducePow]

/-- DECOMPRESS is ignored, rejected or accepted (45 R191, R193, R195). -/
theorem exec_decompress_eq_next (s t : State) :
    exec .decompress s = .next t ↔
      (s.busy = true ∧ s = t) ∨
      (s.busy = false ∧ s.params.inCap < s.inLen ∧ reject .invalidInput s = t) ∨
      (s.busy = false ∧ s.inLen ≤ s.params.inCap ∧ { accept .decompress s with phase := .parse } = t) := by
  simp only [exec, execDecompress, Host.Outcome.next.injEq, ← BitVec.not_lt]
  by_cases hb : s.busy = true
  · simp [hb]
  · by_cases hc : s.params.inCap < s.inLen
    · simp [hb, hc]
    · simp [hb, hc]

theorem exec_idle_eq_next (s t : State) : exec .idle s = .next t ↔ s = t := by
  simp [exec, execIdle]

/-! ## Frequency table -/

theorem exec_fclr_eq_next (s t : State) :
    exec .fclr s = .next t ↔ { s.setFt clearedFt with ipos := 0, phase := .fcnt } = t := by
  simp [exec, execFclr]

/-- FCNT counts a byte or exits (40 R112). -/
theorem exec_fcnt_eq_next (s t : State) :
    exec .fcnt s = .next t ↔
      (s.ipos.toNat < s.origLen.toNat ∧ s.ipos.toNat < s.inLen.toNat ∧ s.ipos.toNat < s.params.inCap.toNat ∧
        { writeFt s (inByte s s.ipos.toNat) (readFt s (inByte s s.ipos.toNat) + 1) with ipos := s.ipos + 1 } = t) ∨
      (s.origLen.toNat ≤ s.ipos.toNat ∧ { s with phase := .seed } = t) := by
  simp only [exec, execFcnt, finish_eq_next]
  split
  next h =>
    simp only [bind_eq_ok, inRead_eq_ok, Except.ok.injEq, h, Nat.not_le.2 h, true_and, false_and, or_false]
    constructor
    · rintro ⟨_, ⟨⟨hl, hc⟩, rfl⟩, ht⟩
      exact ⟨hl, hc, ht⟩
    · rintro ⟨hl, hc, ht⟩
      exact ⟨_, ⟨⟨hl, hc⟩, rfl⟩, ht⟩
  next h => simp [Nat.le_of_not_lt h, h]

/-- The state SEED leaves, for a seed order (40 R113, R116). -/
def seeded (s : State) (order : List Byte) : State :=
  { seedLeaves (readFt s) order 0 s with
    n := BitVec.ofNat 9 order.length
    qn := BitVec.ofNat 9 order.length
    nn := BitVec.ofNat 9 order.length
    totbits := 0
    li := 0
    phase := if order.length = 0 then .serh else .merge }

theorem exec_seed_eq_next (s t : State) : exec .seed s = .next t ↔ seeded s (seedOrder (readFt s)) = t := by
  simp [exec, execSeed, seeded]

/-! ## Tree builder and code assigner -/

/-- The frequency of the node a merge makes of two (41 R122). -/
def joinedFreq (s : State) (a b : NodeIx) : Freq := (nodeAt s a).freq + (nodeAt s b).freq

/-- The new node of a merge stored at `NN`. -/
def withNewNode (s : State) (a b : NodeIx) : State :=
  s.setNode (sparseSet s.node s.nn.toNat ⟨joinedFreq s a b, 0x00#8, a, b, nil⟩)

/-- A node's `parent` replaced. -/
def withParent (s : State) (i p : NodeIx) : State :=
  s.setNode (sparseSet s.node i.toNat { nodeAt s i with parent := p })

/-- A merge before its insertion scan: the new node stored, its children linked to it, the two entries off the queue. -/
def joined (s : State) (a b : NodeIx) : State :=
  (withParent (withParent (withNewNode s a b) a s.nn) b s.nn).setCounts (s.nn + 1) (s.qn - 2)

/-- The node `p` put into the queue at the place the scan found. -/
def enqueued (r : Nat × State) (p : NodeIx) : State := (r.2.setQ (sparseSet r.2.q r.1 p)).setCounts r.2.nn (r.2.qn + 1)

/-- The entry a merge takes first: the one at the tail (41 R123). -/
def tailEntry (s : State) : NodeIx := queueAt s (s.qn.toNat - 1)

/-- The entry a merge takes second: the one before the tail (41 R123). -/
def secondEntry (s : State) : NodeIx := queueAt s (s.qn.toNat - 2)

/-- The state a merge scans the queue in, and the scan (41 R122). -/
def mergeScan (s : State) : Except Fault (Nat × State) :=
  insertScan (joinedFreq s (tailEntry s) (secondEntry s)) (s.qn - 2).toNat (joined s (tailEntry s) (secondEntry s))

/-- A merge answers exactly when its entries exist and its scan ends (41 R122). -/
theorem mergeOnce_eq_ok (s t : State) :
    mergeOnce s = .ok t ↔
      (s.qn.toNat - 1 < maxQueue ∧ s.nn.toNat < maxNodes ∧ (tailEntry s).toNat < maxNodes ∧
        (secondEntry s).toNat < maxNodes) ∧
        ∃ r, mergeScan s = .ok r ∧ r.1 < maxQueue ∧ enqueued r s.nn = t := by
  simp only [mergeOnce, bind_eq_ok, readQ_eq_ok, readNode_eq_ok, writeNode_eq_ok, setParent_eq_ok, writeQ_eq_ok,
    Except.ok.injEq]
  constructor
  · rintro ⟨_, ⟨hq, rfl⟩, _, ⟨-, rfl⟩, _, ⟨ha, rfl⟩, _, ⟨hb, rfl⟩, _, ⟨hn, rfl⟩, _, ⟨-, rfl⟩, _, ⟨-, rfl⟩, r, hr, _,
      ⟨hi, rfl⟩, rfl⟩
    exact ⟨⟨hq, hn, ha, hb⟩, r, hr, hi, by rw [enqueued, insertScan_frame hr]; rfl⟩
  · rintro ⟨⟨hq, hn, ha, hb⟩, r, hr, hi, rfl⟩
    refine ⟨_, ⟨hq, rfl⟩, _, ⟨by omega, rfl⟩, _, ⟨ha, rfl⟩, _, ⟨hb, rfl⟩, _, ⟨hn, rfl⟩, _, ⟨ha, rfl⟩, _, ⟨hb, rfl⟩, r,
      hr, _, ⟨hi, rfl⟩, ?_⟩
    rfl

/-- The state MERGE's exit leaves (41 R122, R126). -/
def mergeExited (s : State) : State :=
  { s with
    root := queueAt s 0
    cur := queueAt s 0
    phase := if s.mode = .compress then .assign else .unpk }

/-- MERGE's exit always answers: the queue array has an entry 0. -/
theorem mergeExit_eq_ok (s t : State) : mergeExit s = .ok t ↔ mergeExited s = t := by
  simp only [mergeExit, bind_eq_ok, readQ_eq_ok, mergeExited]
  cases s.mode <;> simp []

/-- MERGE merges or exits (41 R122). -/
theorem exec_merge_eq_next (s t : State) :
    exec .merge s = .next t ↔
      (2 ≤ s.qn.toNat ∧ mergeOnce s = .ok t) ∨ (s.qn.toNat < 2 ∧ mergeExited s = t) := by
  simp only [exec, execMerge, finish_eq_next]
  split
  next h => simp [h, Nat.not_lt.2 h]
  next h => simp [h, Nat.lt_of_not_le h, mergeExit_eq_ok]

/-- The state ASSIGN leaves after the leaf at `LI`, for the code its walk gives (42 R141, R144). -/
def assigned (s : State) (c : BitVec 255 × BitVec 8) : State :=
  { writeCode s (nodeAt s s.li).sym ⟨c.1, c.2⟩ with
    totbits := s.totbits + (nodeAt s s.li).freq * c.2.setWidth 40
    li := s.li + 1 }

/-- ASSIGN gives a leaf its code or exits (42 R141). -/
theorem exec_assign_eq_next (s t : State) :
    exec .assign s = .next t ↔
      (s.li < s.n ∧ ∃ c, walkUp s maxNodes s.li 0 0 = .ok c ∧ s.li.toNat < maxNodes ∧ assigned s c = t) ∨
      (s.n ≤ s.li ∧ { s with phase := .serh } = t) := by
  simp only [exec, execAssign, finish_eq_next]
  split
  next h =>
    simp only [assignLeaf, bind_eq_ok, readNode_eq_ok, Except.ok.injEq, h, BitVec.not_le.2 h, true_and, false_and,
      or_false]
    constructor
    · rintro ⟨c, hc, _, ⟨hl, rfl⟩, rfl⟩
      exact ⟨c, hc, hl, rfl⟩
    · rintro ⟨c, hc, hl, rfl⟩
      exact ⟨c, hc, _, ⟨hl, rfl⟩, rfl⟩
  next h => simp [h, BitVec.not_lt.1 h]

/-! ## Serializer and deserializer -/

/-- `OUT` with the header of a COMPRESS at its front (43 R152). -/
def outWithHeader (s : State) : State :=
  (outWith32 s 0 s.origLen).setOutMem (sparseSet (outWith32 s 0 s.origLen).outMem 4 (leafCountByte s.n))

/-- SERH raises or writes the header (43 R151, R152). -/
theorem exec_serh_eq_next (s t : State) :
    exec .serh s = .next t ↔
      (s.params.outCap.toNat < need s ∧ complete .capacityExceeded 0 s = t) ∨
      (need s ≤ s.params.outCap.toNat ∧ 4 < s.params.outCap.toNat ∧
        { outWithHeader s with opos := 5, li := 0, phase := .serl } = t) := by
  simp only [exec, execSerh, finish_eq_next]
  split
  next h => simp [h, Nat.not_le.2 h]
  next h =>
    simp only [writeHeader, bind_eq_ok, outWrite32_eq_ok, outWrite_eq_ok, Except.ok.injEq, h, Nat.le_of_not_lt h,
      true_and, false_and, false_or]
    constructor
    · rintro ⟨_, ⟨_, ⟨-, rfl⟩, hc, rfl⟩, rfl⟩
      exact ⟨hc, rfl⟩
    · rintro ⟨hc, rfl⟩
      exact ⟨_, ⟨_, ⟨by omega, rfl⟩, hc, rfl⟩, rfl⟩

/-- `OUT` with a leaf record at an address (43 R153). -/
def outWithLeaf (s : State) (a : Nat) (l : LeafRecord) : State :=
  (outWith32 s a l.freq).setOutMem (sparseSet (outWith32 s a l.freq).outMem (a + 4) l.sym)

/-- SERL writes a leaf record or exits (43 R153). -/
theorem exec_serl_eq_next (s t : State) :
    exec .serl s = .next t ↔
      (s.li < s.n ∧ s.li.toNat < maxNodes ∧ s.opos.toNat + 4 < s.params.outCap.toNat ∧
        { outWithLeaf s s.opos.toNat (leafRecordOf (nodeAt s s.li)) with opos := s.opos + 5, li := s.li + 1 } = t) ∨
      (s.n ≤ s.li ∧ { s with ipos := 0, acc := 0, accn := 0, phase := .pack } = t) := by
  simp only [exec, execSerl, finish_eq_next]
  split
  next h =>
    simp only [bind_eq_ok, readNode_eq_ok, writeLeaf_eq_ok, Except.ok.injEq, h, BitVec.not_le.2 h, true_and, false_and,
      or_false]
    constructor
    · rintro ⟨_, ⟨hl, rfl⟩, _, ⟨ha, rfl⟩, rfl⟩
      exact ⟨hl, ha, rfl⟩
    · rintro ⟨hl, ha, rfl⟩
      exact ⟨_, ⟨hl, rfl⟩, _, ⟨ha, rfl⟩, rfl⟩
  next h => simp [h, BitVec.not_lt.1 h]

/-- The length field of the header in `IN` (43 R156). -/
def headerLength (s : State) : BitVec 32 := join32 (inByte s 0) (inByte s 1) (inByte s 2) (inByte s 3)

/-- PARSE raises on a short input, or reads the header and checks it (43 R156). -/
theorem exec_parse_eq_next (s t : State) :
    exec .parse s = .next t ↔
      (s.inLen.toNat < 5 ∧ complete .corruptStream 0 s = t) ∨
      (5 ≤ s.inLen.toNat ∧ 4 < s.params.inCap.toNat ∧
        parseChecks (inByte s 4) { s with origLen := headerLength s } = t) := by
  simp only [exec, execParse, finish_eq_next, headerLength]
  split
  next h => simp [h, Nat.not_le.2 h]
  next h =>
    simp only [bind_eq_ok, inRead32_eq_ok, inRead_eq_ok, Except.ok.injEq, h, Nat.le_of_not_lt h, true_and, false_and,
      false_or]
    constructor
    · rintro ⟨_, ⟨-, rfl⟩, _, ⟨⟨-, hc⟩, rfl⟩, rfl⟩
      exact ⟨hc, rfl⟩
    · rintro ⟨hc, rfl⟩
      exact ⟨_, ⟨by omega, rfl⟩, _, ⟨by omega, rfl⟩, rfl⟩

/-- The code PARSE completes with once the header is read, or none when LOADL follows (43 R157 to R159). -/
def parseVerdict (count : BitVec 9) (s : State) : Option ErrCode :=
  if s.origLen = 0#32 then some .ok
  else if s.inLen.toNat < 5 + 5 * count.toNat then some .corruptStream
  else if s.params.outCap.toNat < s.origLen.toNat then some .capacityExceeded
  else none

/-- PARSE after the header acts on its verdict: it completes with it, or goes on to LOADL. -/
theorem parseChecks_eq (nm1 : Byte) (s : State) :
    parseChecks nm1 s =
      match parseVerdict (leafCountOf s.origLen nm1) s with
      | some e => complete e 0 { s with n := leafCountOf s.origLen nm1 }
      | none => { s with n := leafCountOf s.origLen nm1, li := 0, phase := .loadl } := by
  simp only [parseChecks, parseVerdict, raiseError_eq]
  by_cases h0 : s.origLen = 0#32
  · simp only [h0, if_true]
  · by_cases h1 : s.inLen.toNat < 5 + 5 * (leafCountOf s.origLen nm1).toNat
    · simp only [h0, h1, if_true, if_false]
    · by_cases h2 : s.params.outCap.toNat < s.origLen.toNat
      · simp only [h0, h1, h2, if_true, if_false]
      · simp only [h0, h1, h2, if_false]

/-- PARSE goes on only with an original that is not empty (43 R158). -/
theorem origLen_ne_zero_of_parseVerdict {count : BitVec 9} {s : State} (h : parseVerdict count s = none) :
    s.origLen ≠ 0#32 := by
  intro h0
  rw [parseVerdict, if_pos h0] at h
  cases h

/-- What PARSE does once the header is read: it completes, or goes on to LOADL. -/
theorem parseChecks_cases (nm1 : Byte) (s : State) :
    (∃ e, parseChecks nm1 s = complete e 0 { s with n := leafCountOf s.origLen nm1 }) ∨
      parseChecks nm1 s = { s with n := leafCountOf s.origLen nm1, li := 0, phase := .loadl } := by
  rw [parseChecks_eq]
  cases parseVerdict (leafCountOf s.origLen nm1) s with
  | some e => exact .inl ⟨e, rfl⟩
  | none => exact .inr rfl

/-- The leaf record at `LI` of `IN` (43 R160). -/
def leafRecordAt (s : State) (a : Nat) : LeafRecord :=
  ⟨join32 (inByte s a) (inByte s (a + 1)) (inByte s (a + 2)) (inByte s (a + 3)), inByte s (a + 4)⟩

/-- The state LOADL leaves after the leaf at `LI` (43 R160). -/
def loaded (s : State) (l : LeafRecord) : State :=
  { (s.setNode (sparseSet s.node s.li.toNat (leafNode (l.freq.setWidth 40) l.sym))).setQ
      (sparseSet s.q s.li.toNat s.li) with li := s.li + 1 }

/-- The state LOADL's exit leaves (43 R160). -/
def loadExited (s : State) : State :=
  { s with
    qn := s.n
    nn := s.n
    opos := 0
    bitpos := BitVec.ofNat 41 (8 * (5 + 5 * s.n.toNat))
    phase := .merge }

/-- LOADL reads a leaf record or exits (43 R160). -/
theorem exec_loadl_eq_next (s t : State) :
    exec .loadl s = .next t ↔
      (s.li < s.n ∧ (leafAddr s.li.toNat + 4 < s.inLen.toNat ∧ leafAddr s.li.toNat + 4 < s.params.inCap.toNat) ∧
        s.li.toNat < maxNodes ∧ s.li.toNat < maxQueue ∧ loaded s (leafRecordAt s (leafAddr s.li.toNat)) = t) ∨
      (s.n ≤ s.li ∧ loadExited s = t) := by
  simp only [exec, execLoadl, finish_eq_next]
  split
  next h =>
    simp only [bind_eq_ok, readLeaf_eq_ok, writeNode_eq_ok, writeQ_eq_ok, Except.ok.injEq, h, BitVec.not_le.2 h,
      true_and, false_and, or_false]
    constructor
    · rintro ⟨_, ⟨ha, rfl⟩, _, ⟨hl, rfl⟩, _, ⟨hq, rfl⟩, rfl⟩
      exact ⟨ha, hl, hq, rfl⟩
    · rintro ⟨ha, hl, hq, rfl⟩
      exact ⟨_, ⟨ha, rfl⟩, _, ⟨hl, rfl⟩, _, ⟨hq, rfl⟩, rfl⟩
  next h => simp [h, BitVec.not_lt.1 h, loadExited]

/-! ## Bit packer and unpacker -/

/-- PACK appends the code of a byte or exits (44 R171). -/
theorem exec_pack_eq_next (s t : State) :
    exec .pack s = .next t ↔
      (s.ipos.toNat < s.origLen.toNat ∧ s.ipos.toNat < s.inLen.toNat ∧ s.ipos.toNat < s.params.inCap.toNat ∧
        ∃ u, packBits (readCode s (inByte s s.ipos.toNat)).bits (readCode s (inByte s s.ipos.toNat)).len.toNat 0 s =
          .ok u ∧ { u with ipos := u.ipos + 1 } = t) ∨
      (s.origLen.toNat ≤ s.ipos.toNat ∧ { s with phase := .flush } = t) := by
  simp only [exec, execPack, finish_eq_next]
  split
  next h =>
    simp only [bind_eq_ok, inRead_eq_ok, Except.ok.injEq, h, Nat.not_le.2 h, true_and, false_and, or_false]
    constructor
    · rintro ⟨_, ⟨⟨hl, hc⟩, rfl⟩, ht⟩
      exact ⟨hl, hc, ht⟩
    · rintro ⟨hl, hc, ht⟩
      exact ⟨_, ⟨⟨hl, hc⟩, rfl⟩, ht⟩
  next h => simp [Nat.le_of_not_lt h, h]

/-- `OUT` with one byte at `OPOS`, and `OPOS` past it (44 R173, R176). -/
def outAppended (s : State) (b : Byte) : State :=
  { s.setOutMem (sparseSet s.outMem s.opos.toNat b) with opos := s.opos + 1 }

/-- FLUSH completes, after the partial last byte if there is one (44 R173). -/
theorem exec_flush_eq_next (s t : State) :
    exec .flush s = .next t ↔
      (s.accn = 0 ∧ complete .ok s.opos s = t) ∨
      (s.accn ≠ 0 ∧ s.opos.toNat < s.params.outCap.toNat ∧
        complete .ok (s.opos + 1) (outAppended s s.acc) = t) := by
  simp only [exec, execFlush, finish_eq_next, outAppended]
  split
  next h => simp [h]
  next h =>
    simp only [bind_eq_ok, outWrite_eq_ok, Except.ok.injEq, h, ne_eq, not_false_eq_true, true_and, false_and, false_or]
    constructor
    · rintro ⟨_, ⟨ho, rfl⟩, ht⟩
      exact ⟨ho, ht⟩
    · rintro ⟨ho, ht⟩
      exact ⟨_, ⟨ho, rfl⟩, ht⟩

theorem unpkEmit_eq_ok (nd : Node) (s t : State) :
    unpkEmit nd s = .ok t ↔
      s.opos.toNat < s.params.outCap.toNat ∧ { outAppended s nd.sym with cur := s.root } = t := by
  simp only [unpkEmit, bind_eq_ok, outWrite_eq_ok, Except.ok.injEq]
  constructor
  · rintro ⟨_, ⟨ho, rfl⟩, ht⟩
    exact ⟨ho, ht⟩
  · rintro ⟨ho, ht⟩
    exact ⟨_, ⟨ho, rfl⟩, ht⟩

/-- The state UNPK leaves below a node, one bit further on (44 R176, fourth branch). -/
def descended (s : State) (nd : Node) : State :=
  { s with
    cur := if (inByte s (s.bitpos.toNat / 8)).getLsbD (s.bitpos.toNat % 8) then nd.right else nd.left
    bitpos := s.bitpos + 1 }

theorem unpkBit_eq_ok (nd : Node) (s t : State) :
    unpkBit nd s = .ok t ↔
      (s.bitpos.toNat / 8 < s.inLen.toNat ∧ s.bitpos.toNat / 8 < s.params.inCap.toNat) ∧ descended s nd = t := by
  simp only [unpkBit, bind_eq_ok, inBit_eq_ok, Except.ok.injEq, descended]
  constructor
  · rintro ⟨_, ⟨hb, rfl⟩, ht⟩
    exact ⟨hb, ht⟩
  · rintro ⟨hb, ht⟩
    exact ⟨_, ⟨hb, rfl⟩, ht⟩

/-- UNPK completes, emits a symbol, runs out of bits or descends (44 R176). -/
theorem exec_unpk_eq_next (s t : State) :
    exec .unpk s = .next t ↔
      (s.opos.toNat = s.origLen.toNat ∧ complete .ok (s.origLen.setWidth 38) s = t) ∨
      (s.opos.toNat ≠ s.origLen.toNat ∧ s.cur.toNat < maxNodes ∧
        (((nodeAt s s.cur).left = nil ∧ s.opos.toNat < s.params.outCap.toNat ∧
            { outAppended s (nodeAt s s.cur).sym with cur := s.root } = t) ∨
          ((nodeAt s s.cur).left ≠ nil ∧ inBits s ≤ s.bitpos.toNat ∧ complete .corruptStream 0 s = t) ∨
          ((nodeAt s s.cur).left ≠ nil ∧ s.bitpos.toNat < inBits s ∧
            (s.bitpos.toNat / 8 < s.inLen.toNat ∧ s.bitpos.toNat / 8 < s.params.inCap.toNat) ∧
            descended s (nodeAt s s.cur) = t))) := by
  simp only [exec, execUnpk, finish_eq_next]
  by_cases h : s.opos.toNat = s.origLen.toNat
  · simp [h]
  · by_cases hc : s.cur.toNat < maxNodes
    · by_cases hl : (nodeAt s s.cur).left = nil
      · simp [h, hc, readNode, Node.isLeaf, hl, unpkEmit_eq_ok]
      · by_cases hb : inBits s ≤ s.bitpos.toNat
        · simp [h, hc, readNode, Node.isLeaf, hl, hb, Nat.not_lt.2 hb]
        · simp [h, hc, readNode, Node.isLeaf, hl, hb, Nat.lt_of_not_le hb, unpkBit_eq_ok]
    · simp [h, hc, readNode]

end Sys2Proof.Machine
end

section
/-! PROOFS. What each instruction changes: each next state equals its start state but for the fields its rule writes. -/

namespace Sys2Proof.Machine

variable {s t : State}

theorem exec_compress_frame (h : exec .compress s = .next t) :
    t = { s with
      err := t.err, outLen := t.outLen, done := t.done, busy := t.busy, mode := t.mode, origLen := t.origLen,
      phase := t.phase } := by
  rcases (exec_compress_eq_next s t).1 h with ⟨-, rfl⟩ | ⟨-, -, rfl⟩ | ⟨-, -, -, rfl⟩ <;> rfl

theorem exec_decompress_frame (h : exec .decompress s = .next t) :
    t = { s with
      err := t.err, outLen := t.outLen, done := t.done, busy := t.busy, mode := t.mode, phase := t.phase } := by
  rcases (exec_decompress_eq_next s t).1 h with ⟨-, rfl⟩ | ⟨-, -, rfl⟩ | ⟨-, -, rfl⟩ <;> rfl

theorem exec_fclr_frame (h : exec .fclr s = .next t) : t = { s with ft := t.ft, ipos := t.ipos, phase := t.phase } := by
  obtain rfl := (exec_fclr_eq_next s t).1 h
  rfl

theorem exec_fcnt_frame (h : exec .fcnt s = .next t) : t = { s with ft := t.ft, ipos := t.ipos, phase := t.phase } := by
  rcases (exec_fcnt_eq_next s t).1 h with ⟨-, -, -, rfl⟩ | ⟨-, rfl⟩ <;> rfl

theorem exec_seed_frame (h : exec .seed s = .next t) :
    t = { s with
      n := t.n, node := t.node, q := t.q, qn := t.qn, nn := t.nn, totbits := t.totbits, li := t.li,
      phase := t.phase } := by
  obtain rfl := (exec_seed_eq_next s t).1 h
  rw [seeded, seedLeaves_frame]

theorem exec_merge_frame (h : exec .merge s = .next t) :
    t = { s with
      node := t.node, q := t.q, nn := t.nn, qn := t.qn, root := t.root, cur := t.cur, phase := t.phase } := by
  rcases (exec_merge_eq_next s t).1 h with ⟨-, hm⟩ | ⟨-, rfl⟩
  · rw [mergeOnce_frame hm]
  · rfl

theorem exec_assign_frame (h : exec .assign s = .next t) :
    t = { s with code := t.code, totbits := t.totbits, li := t.li, phase := t.phase } := by
  rcases (exec_assign_eq_next s t).1 h with ⟨-, c, -, -, rfl⟩ | ⟨-, rfl⟩ <;> rfl

theorem exec_serh_frame (h : exec .serh s = .next t) :
    t = { s with
      outMem := t.outMem, opos := t.opos, li := t.li, phase := t.phase, err := t.err, outLen := t.outLen,
      busy := t.busy, done := t.done } := by
  rcases (exec_serh_eq_next s t).1 h with ⟨-, rfl⟩ | ⟨-, -, rfl⟩ <;> rfl

theorem exec_serl_frame (h : exec .serl s = .next t) :
    t = { s with
      outMem := t.outMem, opos := t.opos, li := t.li, ipos := t.ipos, acc := t.acc, accn := t.accn,
      phase := t.phase } := by
  rcases (exec_serl_eq_next s t).1 h with ⟨-, -, -, rfl⟩ | ⟨-, rfl⟩ <;> rfl

theorem exec_pack_frame (h : exec .pack s = .next t) :
    t = { s with
      outMem := t.outMem, opos := t.opos, acc := t.acc, accn := t.accn, ipos := t.ipos, phase := t.phase } := by
  rcases (exec_pack_eq_next s t).1 h with ⟨-, -, -, u, hu, rfl⟩ | ⟨-, rfl⟩
  · rw [packBits_frame hu]
  · rfl

theorem exec_flush_frame (h : exec .flush s = .next t) :
    t = { s with
      outMem := t.outMem, opos := t.opos, err := t.err, outLen := t.outLen, busy := t.busy, done := t.done,
      phase := t.phase } := by
  rcases (exec_flush_eq_next s t).1 h with ⟨-, rfl⟩ | ⟨-, -, rfl⟩ <;> rfl

theorem exec_parse_frame (h : exec .parse s = .next t) :
    t = { s with
      origLen := t.origLen, n := t.n, li := t.li, phase := t.phase, err := t.err, outLen := t.outLen,
      busy := t.busy, done := t.done } := by
  rcases (exec_parse_eq_next s t).1 h with ⟨-, rfl⟩ | ⟨-, -, rfl⟩
  · rfl
  · rcases parseChecks_cases (inByte s 4) { s with origLen := headerLength s } with ⟨e, h⟩ | h
    · rw [h]; rfl
    · rw [h]

theorem exec_loadl_frame (h : exec .loadl s = .next t) :
    t = { s with
      node := t.node, q := t.q, li := t.li, qn := t.qn, nn := t.nn, opos := t.opos, bitpos := t.bitpos,
      phase := t.phase } := by
  rcases (exec_loadl_eq_next s t).1 h with ⟨-, -, -, -, rfl⟩ | ⟨-, rfl⟩ <;> rfl

theorem exec_unpk_frame (h : exec .unpk s = .next t) :
    t = { s with
      outMem := t.outMem, opos := t.opos, cur := t.cur, bitpos := t.bitpos, err := t.err, outLen := t.outLen,
      busy := t.busy, done := t.done, phase := t.phase } := by
  rcases (exec_unpk_eq_next s t).1 h with ⟨-, rfl⟩ | ⟨-, -, ⟨-, -, rfl⟩ | ⟨-, -, rfl⟩ | ⟨-, -, -, rfl⟩⟩ <;> rfl

/-- Settles O36: each instruction's own frame names every field it may change. -/
theorem everyInstructionFrame : Obligations.EveryInstructionFrame := by
  intro i s t h
  cases i
  case compress => rw [exec_compress_frame h]; simp
  case decompress => rw [exec_decompress_frame h]; simp
  case idle => rw [← (exec_idle_eq_next s t).1 h]; simp
  case fclr => rw [exec_fclr_frame h]; simp
  case fcnt => rw [exec_fcnt_frame h]; simp
  case seed => rw [exec_seed_frame h]; simp
  case merge => rw [exec_merge_frame h]; simp
  case assign => rw [exec_assign_frame h]; simp
  case serh => rw [exec_serh_frame h]; simp
  case serl => rw [exec_serl_frame h]; simp
  case pack => rw [exec_pack_frame h]; simp
  case flush => rw [exec_flush_frame h]; simp
  case parse => rw [exec_parse_frame h]; simp
  case loadl => rw [exec_loadl_frame h]; simp
  case unpk => rw [exec_unpk_frame h]; simp

end Sys2Proof.Machine
end

section
/-! PROOFS. All that one step of the machine can do, and the rules about which step begins, ends and disturbs a run. -/

namespace Sys2Proof.Machine

/-! ## One step -/

/-- The two states agree but for the host's own fields, and what the host has written to `OUT` is kept or forgotten. -/
structure SameButHost (s u : State) : Prop where
  eq : u = { s with host := u.host, hostData := u.hostData, turn := u.turn, hostOut := u.hostOut }
  hostOut : u.hostOut = s.hostOut ∨ u.hostOut = []

theorem SameButHost.refl (s : State) : SameButHost s s := ⟨rfl, .inl rfl⟩

theorem SameButHost.trans {s u t : State} (h : SameButHost s u) (h' : SameButHost u t) : SameButHost s t := by
  obtain ⟨hu, ho⟩ := h
  obtain ⟨ht, ho'⟩ := h'
  refine ⟨?_, ?_⟩
  · rw [ht, hu]
  · rcases ho' with e | e
    · rw [e]; exact ho
    · exact .inr e

theorem sameButHost_host (s : State) (host : List HostMove) : SameButHost s { s with host := host } := ⟨rfl, .inl rfl⟩

theorem sameButHost_answer (s : State) (v : BitVec 38) : SameButHost s (answer v s) := ⟨rfl, .inl rfl⟩

theorem sameButHost_newTurn (s : State) : SameButHost s (newTurn s) := ⟨rfl, .inr rfl⟩

theorem sameButHost_grantTurn (s : State) : SameButHost s (grantTurn s) := by
  unfold grantTurn
  split
  · exact sameButHost_newTurn s
  · exact .refl s

theorem sameButHost_registerRead (hr : BitVec 3) (s : State) : SameButHost s (registerRead hr s) := by
  rw [registerRead_frame]
  exact sameButHost_answer s _

/-- All that a step which answers can do, by who acts: the sequencer, the host for itself alone, a write of `IN_LEN`, `CMD`,
`IN` or `OUT` that takes, or reset. -/
inductive StepCase (s t : State) : Prop where
  | micro (u : State) (same : SameButHost s u) (busy : u.busy = true) (hexec : exec (phaseInstr u.phase) u = .next t)
  | hostOnly (same : SameButHost s t)
  | length (u : State) (v : Addr) (same : SameButHost s u) (waiting : u.busy = false) (eq : t = { u with inLen := v })
  | command (u : State) (v : BitVec 38) (rest : List HostMove) (i : Instr) (move : s.host = .writeReg 0#3 v :: rest)
      (same : SameButHost s u) (waiting : u.busy = false) (code : decodeCmd (v.setWidth 8) = .ok i)
      (hexec : exec i u = .next t)
  | rejected (u : State) (same : SameButHost s u) (waiting : u.busy = false) (eq : t = reject .invalidInput u)
  | storeIn (u : State) (a : Addr) (b : Byte) (same : SameButHost s u) (waiting : u.busy = false)
      (bound : a < u.params.inCap) (eq : t = u.setInMem (sparseSet u.inMem a.toNat b))
  | storeOut (u : State) (a : Addr) (b : Byte) (same : SameButHost s u) (waiting : u.busy = false)
      (bound : a < u.params.outCap) (eq : t = outputWrite a b u)
  | reset (rest : List HostMove) (move : s.host = .reset :: rest) (eq : t = applyReset { s with host := rest })

/-- The two codes `CMD` takes (30_encoding.md R82). -/
theorem decodeCmd_eq_ok (c : Byte) (i : Instr) :
    decodeCmd c = .ok i ↔ (c = 0x01#8 ∧ i = .compress) ∨ (c = 0x02#8 ∧ i = .decompress) := by
  unfold decodeCmd
  by_cases h1 : c = 0x01#8
  · simp [h1, eq_comm]
  · by_cases h2 : c = 0x02#8
    · simp [h2, eq_comm]
    · simp [h1, h2]

/-- While busy a command changes nothing (45 R195). -/
theorem commandWrite_of_busy {s : State} (h : s.busy = true) (c : Byte) : commandWrite c s = .next s := by
  unfold commandWrite
  split
  next i hi =>
    rcases (decodeCmd_eq_ok c i).1 hi with ⟨-, rfl⟩ | ⟨-, rfl⟩
    · exact (exec_compress_eq_next s s).2 (.inl ⟨h, rfl⟩)
    · exact (exec_decompress_eq_next s s).2 (.inl ⟨h, rfl⟩)
  next => simp [reservedCommand, h]

section
variable {s u t : State} (same : SameButHost s u)
include same

/-- The sequencer's step, on a state that only the host has touched. -/
theorem stepCase_sequencer (h : sequencerStep u = .next t) : StepCase s t := by
  rw [sequencerStep_eq] at h
  split at h
  next hb => exact .micro u same hb h
  next =>
    cases h
    exact .hostOnly same

/-- A host write of a register. -/
theorem stepCase_registerWrite {hr : BitVec 3} {v : BitVec 38} {rest : List HostMove}
    (move : s.host = .writeReg hr v :: rest) (h : registerWrite hr v u = .next t) : StepCase s t := by
  unfold registerWrite at h
  by_cases hb : u.busy = true
  · have : u = t := by
      simpa only [if_pos hb, commandWrite_of_busy hb, ite_self, Host.Outcome.next.injEq] using h
    exact .hostOnly (this ▸ same)
  · have hw : u.busy = false := by simpa using hb
    rw [if_neg hb, if_neg hb] at h
    split at h
    next h0 =>
      subst h0
      have turned := same.trans (sameButHost_newTurn u)
      unfold commandWrite at h
      split at h
      next i hi => exact .command (newTurn u) v rest i move turned hw hi h
      next =>
        rw [reservedCommand, if_neg (by simp [hw])] at h
        cases h
        exact .rejected _ turned hw rfl
    next =>
      split at h
      · cases h
        exact .length u v same hw rfl
      · cases h
        exact .hostOnly same

end

/-- One turn of the host, by its move. -/
theorem stepCase_hostTurn {s t : State} {m : HostMove} {rest : List HostMove} (move : s.host = m :: rest)
    (h : hostTurn m { s with host := rest } = .next t) : StepCase s t := by
  have same := sameButHost_host s rest
  generalize hu : { s with host := rest } = u at same h
  cases m
  case yield => exact stepCase_sequencer (same.trans (sameButHost_grantTurn u)) h
  case await =>
    simp only [hostTurn] at h
    split at h
    · cases h
      exact .hostOnly same
    · exact stepCase_sequencer ((same.trans (sameButHost_host u _)).trans (sameButHost_grantTurn _)) h
  case readReg hr =>
    cases h
    exact .hostOnly (same.trans (sameButHost_registerRead hr u))
  case writeReg hr v => exact stepCase_registerWrite same move h
  case readIn a =>
    simp only [hostTurn] at h
    split at h
    · cases h
      exact .hostOnly (same.trans (sameButHost_answer u _))
    · cases h
  case writeIn a b =>
    simp only [hostTurn] at h
    split at h
    · cases h
    next hb =>
      split at h
      next ha =>
        cases h
        exact .storeIn u a b same (by simpa using hb) ha rfl
      · cases h
  case readOut a =>
    simp only [hostTurn] at h
    split at h
    · cases h
      exact .hostOnly (same.trans (sameButHost_answer u _))
    · cases h
  case writeOut a b =>
    simp only [hostTurn] at h
    split at h
    · cases h
    next hb =>
      split at h
      next ha =>
        cases h
        exact .storeOut u a b same (by simpa using hb) ha rfl
      · cases h
  case feedback =>
    simp only [hostTurn] at h
    split at h
    · cases h
    · cases h
      exact .hostOnly (same.trans (sameButHost_host u _))
  case reset =>
    cases h
    exact .reset rest move (by rw [hu])

/-- Every step that answers is one of the cases. -/
theorem step_cases {s t : State} (h : step s = .next t) : StepCase s t := by
  simp only [step, machineStep] at h
  split at h
  next => exact stepCase_sequencer (.refl s) h
  next m rest move => exact stepCase_hostTurn move h

end Sys2Proof.Machine
end

section
/-! PROOFS. The control state: what a micro-operation and a step do to `BUSY`, `DONE`, `ERR`, `OUT_LEN`, `MODE` and
`PHASE`. -/

namespace Sys2Proof.Machine

/-! ## What a micro-operation does to the control state -/

/-- The phases that can follow a phase without a completion (45 R197). -/
def phasesAfter (m : Mode) : Phase → List Phase
  | .idle => [.idle]
  | .fclr => [.fcnt]
  | .fcnt => [.fcnt, .seed]
  | .seed => [.serh, .merge]
  | .merge => [.merge, if m = .compress then .assign else .unpk]
  | .assign => [.assign, .serh]
  | .serh => [.serl]
  | .serl => [.serl, .pack]
  | .pack => [.pack, .flush]
  | .flush => []
  | .parse => [.loadl]
  | .loadl => [.loadl, .merge]
  | .unpk => [.unpk]

/-- The step from `s` to `t` ends a run (60 R226). -/
def Ends (s t : State) : Prop := ∃ e k u, t = complete e k u ∧ u.mode = s.mode

/-- The step from `s` to `t` leaves the run going, in a phase that can follow. -/
def GoesOn (s t : State) : Prop :=
  t.busy = s.busy ∧ t.done = s.done ∧ t.err = s.err ∧ t.outLen = s.outLen ∧ t.mode = s.mode ∧
    t.phase ∈ phasesAfter s.mode s.phase

/-- A micro-operation ends the run or leaves it going. -/
theorem exec_micro_control {s t : State} (h : exec (phaseInstr s.phase) s = .next t) : Ends s t ∨ GoesOn s t := by
  cases hp : s.phase <;> rw [hp, phaseInstr] at h
  case idle =>
    obtain rfl := (exec_idle_eq_next s t).1 h
    exact .inr ⟨rfl, rfl, rfl, rfl, rfl, by simp [hp, phasesAfter]⟩
  case fclr =>
    obtain rfl := (exec_fclr_eq_next s t).1 h
    exact .inr ⟨rfl, rfl, rfl, rfl, rfl, by simp [hp, phasesAfter]⟩
  case fcnt =>
    rcases (exec_fcnt_eq_next s t).1 h with ⟨-, -, -, rfl⟩ | ⟨-, rfl⟩ <;>
      exact .inr ⟨rfl, rfl, rfl, rfl, rfl, by simp [hp, phasesAfter, writeFt]⟩
  case seed =>
    have hf := exec_seed_frame h
    have hph : t.phase ∈ phasesAfter s.mode s.phase := by
      rw [← (exec_seed_eq_next s t).1 h, hp, phasesAfter, seeded]
      dsimp only
      split <;> simp
    exact .inr ⟨by rw [hf], by rw [hf], by rw [hf], by rw [hf], by rw [hf], hph⟩
  case merge =>
    have hf := exec_merge_frame h
    have hph : t.phase ∈ phasesAfter s.mode s.phase := by
      rcases (exec_merge_eq_next s t).1 h with ⟨-, hm⟩ | ⟨-, rfl⟩
      · rw [mergeOnce_frame hm]
        simp [hp, phasesAfter]
      · simp [hp, phasesAfter, mergeExited]
    exact .inr ⟨by rw [hf], by rw [hf], by rw [hf], by rw [hf], by rw [hf], hph⟩
  case assign =>
    rcases (exec_assign_eq_next s t).1 h with ⟨-, c, -, -, rfl⟩ | ⟨-, rfl⟩ <;>
      exact .inr ⟨rfl, rfl, rfl, rfl, rfl, by simp [hp, phasesAfter, assigned, writeCode]⟩
  case serh =>
    rcases (exec_serh_eq_next s t).1 h with ⟨-, rfl⟩ | ⟨-, -, rfl⟩
    · exact .inl ⟨_, _, _, rfl, rfl⟩
    · exact .inr ⟨rfl, rfl, rfl, rfl, rfl, by simp [hp, phasesAfter]⟩
  case serl =>
    rcases (exec_serl_eq_next s t).1 h with ⟨-, -, -, rfl⟩ | ⟨-, rfl⟩ <;>
      exact .inr ⟨rfl, rfl, rfl, rfl, rfl, by simp [hp, phasesAfter, outWithLeaf, outWith32]⟩
  case pack =>
    have hf := exec_pack_frame h
    have hph : t.phase ∈ phasesAfter s.mode s.phase := by
      rcases (exec_pack_eq_next s t).1 h with ⟨-, -, -, u, hu, rfl⟩ | ⟨-, rfl⟩
      · rw [packBits_frame hu]
        simp [hp, phasesAfter]
      · simp [hp, phasesAfter]
    exact .inr ⟨by rw [hf], by rw [hf], by rw [hf], by rw [hf], by rw [hf], hph⟩
  case flush =>
    rcases (exec_flush_eq_next s t).1 h with ⟨-, rfl⟩ | ⟨-, -, rfl⟩ <;> exact .inl ⟨_, _, _, rfl, rfl⟩
  case parse =>
    rcases (exec_parse_eq_next s t).1 h with ⟨-, rfl⟩ | ⟨-, -, rfl⟩
    · exact .inl ⟨_, _, _, rfl, rfl⟩
    · rcases parseChecks_cases (inByte s 4) { s with origLen := headerLength s } with ⟨e, h⟩ | h
      · exact .inl ⟨_, _, _, h, rfl⟩
      · rw [h]
        exact .inr ⟨rfl, rfl, rfl, rfl, rfl, by simp [hp, phasesAfter]⟩
  case loadl =>
    rcases (exec_loadl_eq_next s t).1 h with ⟨-, -, -, -, rfl⟩ | ⟨-, rfl⟩ <;>
      exact .inr ⟨rfl, rfl, rfl, rfl, rfl, by simp [hp, phasesAfter, loaded, loadExited]⟩
  case unpk =>
    rcases (exec_unpk_eq_next s t).1 h with ⟨-, rfl⟩ | ⟨-, -, ⟨-, -, rfl⟩ | ⟨-, -, rfl⟩ | ⟨-, -, -, rfl⟩⟩
    · exact .inl ⟨_, _, _, rfl, rfl⟩
    · exact .inr ⟨rfl, rfl, rfl, rfl, rfl, by simp [hp, phasesAfter, outAppended]⟩
    · exact .inl ⟨_, _, _, rfl, rfl⟩
    · exact .inr ⟨rfl, rfl, rfl, rfl, rfl, by simp [hp, phasesAfter, descended]⟩

/-- Every phase that can follow a running one runs, and belongs to the mode if the one before did. -/
theorem phasesAfter_fits (m : Mode) (p : Phase) : ∀ q ∈ phasesAfter m p,
    (p ≠ .idle → q ≠ .idle) ∧ (p = .idle → q = .idle) ∧
      ((compressOnly p = true → m = .compress) ∧ (decompressOnly p = true → m = .decompress) →
        (compressOnly q = true → m = .compress) ∧ (decompressOnly q = true → m = .decompress)) := by
  cases m <;> cases p <;> decide

/-! ## The control invariant -/

/-- The control state is the block's, not the host's. -/
theorem ControlOk.of_sameButHost {s u : State} (h : ControlOk s) (same : SameButHost s u) : ControlOk u := by
  rw [same.eq]
  exact h

/-- A completion leaves a legal control state. -/
theorem controlOk_complete (e : ErrCode) (k : Addr) (s : State) : ControlOk (complete e k s) := by
  refine ⟨by simp, by simp, by simp, fun he => ⟨rfl, if_neg he⟩, by simp [compressOnly], by simp [decompressOnly]⟩

/-- A rejection while idle leaves a legal control state. -/
theorem controlOk_reject {s : State} (h : ControlOk s) (hb : s.busy = false) (e : ErrCode) :
    ControlOk (reject e s) := by
  obtain ⟨hphase, -, -, -, hmode⟩ := h
  refine ⟨by simpa using hphase, by simp [hb], by simp [hb], by simp, by simpa using hmode⟩

/-- A command taken while idle leaves a legal control state. -/
theorem controlOk_command {s t : State} {c : Byte} {i : Instr} (h : ControlOk s) (hb : s.busy = false)
    (hc : decodeCmd c = .ok i) (hx : exec i s = .next t) : ControlOk t := by
  rcases (decodeCmd_eq_ok c i).1 hc with ⟨-, rfl⟩ | ⟨-, rfl⟩
  · rcases (exec_compress_eq_next s t).1 hx with ⟨-, rfl⟩ | ⟨-, -, rfl⟩ | ⟨-, -, -, rfl⟩
    · exact h
    · exact controlOk_reject h hb _
    · simp [ControlOk, decompressOnly]
  · rcases (exec_decompress_eq_next s t).1 hx with ⟨-, rfl⟩ | ⟨-, -, rfl⟩ | ⟨-, -, rfl⟩
    · exact h
    · exact controlOk_reject h hb _
    · simp [ControlOk, compressOnly]

/-- A micro-operation during a run keeps the control state legal. -/
theorem controlOk_micro {s t : State} (h : ControlOk s) (hx : exec (phaseInstr s.phase) s = .next t) :
    ControlOk t := by
  rcases exec_micro_control hx with ⟨e, k, u, rfl, -⟩ | ⟨hb, hd, he, ho, hm, hq⟩
  · exact controlOk_complete e k u
  · obtain ⟨hphase, hdone, hrun, hfail, hmode⟩ := h
    obtain ⟨hrunning, hidle, hfits⟩ := phasesAfter_fits _ _ _ hq
    have hiff : t.phase ≠ .idle ↔ s.phase ≠ .idle := ⟨mt hidle, hrunning⟩
    simp only [ControlOk, hb, hd, he, ho, hm, hiff]
    exact ⟨hphase, hdone, hrun, hfail, hfits hmode⟩

/-- Settles O48: every case of a step keeps the control state legal. -/
theorem everyStepKeepsControl : Obligations.EveryStepKeepsControl := by
  intro s t hs h
  cases step_cases h with
  | micro u same busy hexec => exact controlOk_micro (hs.of_sameButHost same) hexec
  | hostOnly same => exact hs.of_sameButHost same
  | length u v same waiting eq =>
    subst eq
    exact (hs.of_sameButHost same : ControlOk u)
  | command u v rest i move same waiting code hexec =>
    exact controlOk_command (hs.of_sameButHost same) waiting code hexec
  | rejected u same waiting eq => exact eq ▸ controlOk_reject (hs.of_sameButHost same) waiting _
  | storeIn u a b same waiting bound eq =>
    subst eq
    exact (hs.of_sameButHost same : ControlOk u)
  | storeOut u a b same waiting bound eq =>
    subst eq
    exact (hs.of_sameButHost same : ControlOk u)
  | reset rest move eq => simp [eq, ControlOk, compressOnly, decompressOnly]

/-! ## Runs -/

/-- A micro-operation that answers during a run completes it or leaves it going. -/
theorem exec_micro_completes_or_busy {s t : State} (hb : s.busy = true) (hx : exec (phaseInstr s.phase) s = .next t) :
    Completed t ∨ t.busy = true := by
  rcases exec_micro_control hx with ⟨e, k, u, rfl, -⟩ | ⟨hbusy, -⟩
  · exact .inl ⟨rfl, rfl, rfl⟩
  · exact .inr (hbusy.trans hb)

/-- A command that makes an idle block busy finds the input within its buffer. -/
theorem inLen_le_of_accepted {s t : State} {c : Byte} {i : Instr} (hb : s.busy = false) (hc : decodeCmd c = .ok i)
    (hx : exec i s = .next t) (ht : t.busy = true) : s.inLen ≤ s.params.inCap := by
  rcases (decodeCmd_eq_ok c i).1 hc with ⟨-, rfl⟩ | ⟨-, rfl⟩
  · rcases (exec_compress_eq_next s t).1 hx with ⟨hs, -⟩ | ⟨-, -, rfl⟩ | ⟨-, hle, -⟩
    · simp [hb] at hs
    · simp [hb] at ht
    · exact hle
  · rcases (exec_decompress_eq_next s t).1 hx with ⟨hs, -⟩ | ⟨-, -, rfl⟩ | ⟨-, hle, -⟩
    · simp [hb] at hs
    · simp [hb] at ht
    · exact hle

theorem SameButHost.busy_eq {s u : State} (same : SameButHost s u) : u.busy = s.busy := by rw [same.eq]

/-- Settles O53: only an accepted command begins a run, and only a completion or reset ends one. -/
theorem runsBeginAndEndAsStated : Obligations.RunsBeginAndEndAsStated := by
  intro s t h
  cases step_cases h with
  | micro u same busy hexec =>
    have hs : s.busy = true := same.busy_eq ▸ busy
    rcases exec_micro_completes_or_busy busy hexec with hc | ht
    · exact ⟨by simp [hs], fun _ _ => .inl hc⟩
    · simp [hs, ht]
  | hostOnly same => exact ⟨by simp +contextual [same.busy_eq], by simp +contextual [same.busy_eq]⟩
  | length u v same waiting eq => simp [eq, waiting, ← same.busy_eq]
  | command u v rest i move same waiting code hexec =>
    refine ⟨fun _ ht => ⟨v, rest, move, ?_, ?_⟩, by simp [← same.busy_eq, waiting]⟩
    · exact ((decodeCmd_eq_ok _ i).1 code).imp And.left And.left
    · have hle := inLen_le_of_accepted waiting code hexec ht
      rw [same.eq] at hle
      exact hle
  | rejected u same waiting eq => simp [eq, waiting, ← same.busy_eq]
  | storeIn u a b same waiting bound eq => simp [eq, waiting, ← same.busy_eq]
  | storeOut u a b same waiting bound eq => simp [eq, outputWrite, waiting, ← same.busy_eq]
  | reset rest move eq => simp [eq, move]

/-- Settles O54: the sequencer never writes the input, and the host may not during a run. -/
theorem runLeavesItsInputAlone : Obligations.RunLeavesItsInputAlone := by
  intro s t h
  cases step_cases h with
  | micro u same busy hexec =>
    obtain ⟨⟨hin, hlen, hpar, -, -, hepoch, -, -⟩, -⟩ := everyInstructionFrame _ _ _ hexec
    rw [hin, hlen, hpar, hepoch, same.eq]
    simp
  | hostOnly same => rw [same.eq]; simp
  | length u v same waiting eq => rw [eq, ← same.busy_eq, waiting, same.eq]; simp
  | command u v rest i move same waiting code hexec =>
    obtain ⟨⟨-, -, hpar, -⟩, -⟩ := everyInstructionFrame _ _ _ hexec
    rw [hpar, ← same.busy_eq, waiting, same.eq]
    simp
  | rejected u same waiting eq => rw [eq, ← same.busy_eq, waiting, same.eq]; simp
  | storeIn u a b same waiting bound eq => rw [eq, ← same.busy_eq, waiting, same.eq]; simp
  | storeOut u a b same waiting bound eq => rw [eq, ← same.busy_eq, waiting, same.eq]; simp [outputWrite]
  | reset rest move eq => rw [eq, move]; simp

end Sys2Proof.Machine
end

section
/-! PROOFS. The canonical form of tables and buffers, and the clean accumulator: each write keeps them, so each
instruction and each step does. -/

namespace Sys2Proof.Machine

/-! ## Canonical form: one lemma for each writer -/

section
variable {s : State} (h : CanonicalOk s)
include h

theorem CanonicalOk.writeFt (b : Byte) (v : BitVec 32) : CanonicalOk (writeFt s b v) :=
  have ⟨hft, rest⟩ := h
  ⟨sparseSet_wf hft b.isLt v, rest⟩

theorem CanonicalOk.setNode {i : Nat} (hi : i < maxNodes) (v : Node) :
    CanonicalOk (s.setNode (sparseSet s.node i v)) :=
  have ⟨hft, hnode, rest⟩ := h
  ⟨hft, sparseSet_wf hnode hi v, rest⟩

theorem CanonicalOk.setQ {i : Nat} (hi : i < maxQueue) (v : NodeIx) : CanonicalOk (s.setQ (sparseSet s.q i v)) :=
  have ⟨hft, hnode, hq, rest⟩ := h
  ⟨hft, hnode, sparseSet_wf hq hi v, rest⟩

theorem CanonicalOk.writeCode (b : Byte) (v : CodeEntry) : CanonicalOk (writeCode s b v) :=
  have ⟨hft, hnode, hq, hcode, rest⟩ := h
  ⟨hft, hnode, hq, sparseSet_wf hcode b.isLt v, rest⟩

theorem CanonicalOk.setInMem {a : Nat} (ha : a < s.params.inCap.toNat) (b : Byte) :
    CanonicalOk (s.setInMem (sparseSet s.inMem a b)) :=
  have ⟨hft, hnode, hq, hcode, hin, rest⟩ := h
  ⟨hft, hnode, hq, hcode, sparseSet_wf hin ha b, rest⟩

theorem CanonicalOk.setOutMem {a : Nat} (ha : a < s.params.outCap.toNat) (b : Byte) :
    CanonicalOk (s.setOutMem (sparseSet s.outMem a b)) :=
  have ⟨hft, hnode, hq, hcode, hin, hout, hhost⟩ := h
  ⟨hft, hnode, hq, hcode, hin, sparseSet_wf hout ha b, hhost⟩

theorem CanonicalOk.outWith32 {a : Nat} (ha : a + 3 < s.params.outCap.toNat) (v : BitVec 32) :
    CanonicalOk (outWith32 s a v) := by
  have h0 := h.setOutMem (a := a) (by omega) (byteOf32 v 0)
  have h1 := h0.setOutMem (a := a + 1) (by simpa using by omega) (byteOf32 v 1)
  have h2 := h1.setOutMem (a := a + 2) (by simpa using by omega) (byteOf32 v 2)
  exact h2.setOutMem (a := a + 3) ha (byteOf32 v 3)

theorem CanonicalOk.outputWrite {a : Addr} (ha : a < s.params.outCap) (b : Byte) : CanonicalOk (outputWrite a b s) :=
  have ⟨hft, hnode, hq, hcode, hin, hout, hhost⟩ := h
  have ⟨hout', hhost'⟩ := outputWrite_wf ha b hout hhost
  ⟨hft, hnode, hq, hcode, hin, hout', hhost'⟩

/-- Creating leaves keeps the canonical form where every leaf has an entry. -/
theorem CanonicalOk.seedLeaves (ft : Byte → BitVec 32) (l : List Byte) (j : Nat) (hl : j + l.length ≤ maxQueue) :
    CanonicalOk (seedLeaves ft l j s) := by
  induction l generalizing j s with
  | nil => exact h
  | cons b rest ih =>
    rw [List.length_cons] at hl
    have hj : j < maxQueue := by omega
    have hn : j < maxNodes := by simp only [maxQueue, maxNodes] at hj ⊢; omega
    exact ih ((h.setNode hn _).setQ hj _) (j + 1) (by omega)

theorem CanonicalOk.insertScan {f : Freq} {i : Nat} {r : Nat × State} (hr : insertScan f i s = .ok r) :
    CanonicalOk r.2 := by
  induction i generalizing s with
  | zero =>
    cases hr
    exact h
  | succ i ih =>
    simp only [Machine.insertScan, bind_eq_ok] at hr
    obtain ⟨k, -, nd, -, hr⟩ := hr
    split at hr
    · rw [bind_eq_ok] at hr
      obtain ⟨u, hu, hr⟩ := hr
      obtain ⟨hi, rfl⟩ := (writeQ_eq_ok _ _ _ _).1 hu
      exact ih (h.setQ hi k) hr
    · cases hr
      exact h

theorem CanonicalOk.joined {a b : NodeIx} (hp : s.nn.toNat < maxNodes) (ha : a.toNat < maxNodes)
    (hb : b.toNat < maxNodes) : CanonicalOk (joined s a b) := by
  have hnew : CanonicalOk (withNewNode s a b) := h.setNode hp _
  have hleft : CanonicalOk (withParent (withNewNode s a b) a s.nn) := hnew.setNode ha _
  exact hleft.setNode hb _

theorem CanonicalOk.mergeOnce {t : State} (ht : mergeOnce s = .ok t) : CanonicalOk t := by
  obtain ⟨⟨-, hp, ha, hb⟩, r, hr, hi, rfl⟩ := (mergeOnce_eq_ok s t).1 ht
  exact ((h.joined hp ha hb).insertScan hr).setQ hi _

theorem CanonicalOk.packBit {v : Bool} {t : State} (ht : packBit v s = .ok t) : CanonicalOk t := by
  simp only [Machine.packBit] at ht
  split at ht
  · rw [bind_eq_ok] at ht
    obtain ⟨u, hu, ht⟩ := ht
    obtain ⟨ha, rfl⟩ := (outWrite_eq_ok _ _ _ _).1 hu
    cases ht
    exact h.setOutMem ha _
  · cases ht
    exact h

theorem CanonicalOk.packBits {bits : BitVec 255} {left k : Nat} {t : State} (ht : packBits bits left k s = .ok t) :
    CanonicalOk t := by
  induction left generalizing k s with
  | zero =>
    cases ht
    exact h
  | succ left ih =>
    simp only [Machine.packBits, bind_eq_ok] at ht
    obtain ⟨u, hu, ht⟩ := ht
    exact ih (h.packBit hu) ht

end

theorem clearedFt_wf : sparseWf alpha clearedFt := by
  have keys : clearedFt.map Prod.fst = List.range alpha := by
    rw [clearedFt, List.map_map]
    exact List.map_id _
  rw [sparseWf, keys]
  exact ⟨List.pairwise_lt_range, fun k hk => List.mem_range.1 hk⟩

/-- Every instruction keeps the canonical form. -/
theorem CanonicalOk.exec {i : Instr} {s t : State} (h : CanonicalOk s) (hx : exec i s = .next t) : CanonicalOk t := by
  cases i
  case compress =>
    rw [exec_compress_frame hx]
    exact h
  case decompress =>
    rw [exec_decompress_frame hx]
    exact h
  case idle => exact (exec_idle_eq_next s t).1 hx ▸ h
  case fclr =>
    obtain rfl := (exec_fclr_eq_next s t).1 hx
    exact ⟨clearedFt_wf, h.2⟩
  case fcnt =>
    rcases (exec_fcnt_eq_next s t).1 hx with ⟨-, -, -, rfl⟩ | ⟨-, rfl⟩
    · exact h.writeFt _ _
    · exact h
  case seed =>
    obtain rfl := (exec_seed_eq_next s t).1 hx
    exact h.seedLeaves _ _ 0 (by simpa using length_seedOrder_le (readFt s))
  case merge =>
    rcases (exec_merge_eq_next s t).1 hx with ⟨-, hm⟩ | ⟨-, rfl⟩
    · exact h.mergeOnce hm
    · exact h
  case assign =>
    rcases (exec_assign_eq_next s t).1 hx with ⟨-, c, -, -, rfl⟩ | ⟨-, rfl⟩
    · exact h.writeCode _ _
    · exact h
  case serh =>
    rcases (exec_serh_eq_next s t).1 hx with ⟨-, rfl⟩ | ⟨-, hc, rfl⟩
    · exact h
    · exact (h.outWith32 (a := 0) (by omega) _).setOutMem hc _
  case serl =>
    rcases (exec_serl_eq_next s t).1 hx with ⟨-, -, hc, rfl⟩ | ⟨-, rfl⟩
    · exact (h.outWith32 (a := s.opos.toNat) (by omega) _).setOutMem hc _
    · exact h
  case pack =>
    rcases (exec_pack_eq_next s t).1 hx with ⟨-, -, -, u, hu, rfl⟩ | ⟨-, rfl⟩
    · have hu' := h.packBits hu
      exact hu'
    · exact h
  case flush =>
    rcases (exec_flush_eq_next s t).1 hx with ⟨-, rfl⟩ | ⟨-, hc, rfl⟩
    · exact h
    · exact h.setOutMem hc _
  case parse =>
    rw [exec_parse_frame hx]
    exact h
  case loadl =>
    rcases (exec_loadl_eq_next s t).1 hx with ⟨-, -, hn, hq, rfl⟩ | ⟨-, rfl⟩
    · exact (h.setNode hn _).setQ hq _
    · exact h
  case unpk =>
    rcases (exec_unpk_eq_next s t).1 hx with ⟨-, rfl⟩ | ⟨-, -, ⟨-, hc, rfl⟩ | ⟨-, -, rfl⟩ | ⟨-, -, -, rfl⟩⟩
    · exact h
    · exact h.setOutMem hc _
    · exact h
    · exact h

/-- The canonical form is kept when the host's record of its writes is kept or forgotten. -/
theorem CanonicalOk.of_sameButHost {s u : State} (h : CanonicalOk s) (same : SameButHost s u) : CanonicalOk u := by
  obtain ⟨hft, hnode, hq, hcode, hin, hout, hhost⟩ := h
  obtain ⟨hu, ho⟩ := same
  have hw : Memory.wf s.params.outCap.toNat u.hostOut := by
    rcases ho with e | e
    · exact e ▸ hhost
    · exact e ▸ sparseWf_nil _
  rw [hu]
  exact ⟨hft, hnode, hq, hcode, hin, hout, hw⟩

/-- Settles O49: every writer keeps the canonical form, and reset empties the lists. -/
theorem everyStepKeepsCanonicalForm : Obligations.EveryStepKeepsCanonicalForm := by
  intro s t hs h
  cases step_cases h with
  | micro u same busy hexec => exact (hs.of_sameButHost same).exec hexec
  | hostOnly same => exact hs.of_sameButHost same
  | length u v same waiting eq =>
    subst eq
    exact (hs.of_sameButHost same : CanonicalOk u)
  | command u v rest i move same waiting code hexec => exact (hs.of_sameButHost same).exec hexec
  | rejected u same waiting eq =>
    subst eq
    exact (hs.of_sameButHost same : CanonicalOk u)
  | storeIn u a b same waiting bound eq => exact eq ▸ (hs.of_sameButHost same).setInMem (BitVec.lt_def.1 bound) b
  | storeOut u a b same waiting bound eq => exact eq ▸ (hs.of_sameButHost same).outputWrite bound b
  | reset rest move eq =>
    subst eq
    refine ⟨?_, ?_, ?_, ?_, ?_, ?_, ?_⟩ <;> exact sparseWf_nil _

/-! ## The accumulator -/

/-- A bit put above the bits collected leaves the rest of the accumulator 0 (44 R171). -/
theorem setAccBit_lt {acc : Byte} {n : Nat} (h : acc.toNat < 2 ^ n) (v : Bool) :
    (setAccBit acc n v).toNat < 2 ^ (n + 1) := by
  have hbit : ((BitVec.ofBool v).setWidth 8 <<< n).toNat < 2 ^ (n + 1) := by
    rw [BitVec.toNat_shiftLeft, Nat.shiftLeft_eq]
    refine (Nat.mod_le _ _).trans_lt ?_
    have hv : ((BitVec.ofBool v).setWidth 8).toNat < 2 := by cases v <;> decide
    rw [Nat.pow_succ, Nat.mul_comm (2 ^ n)]
    exact Nat.mul_lt_mul_of_pos_right hv (by positivity)
  have hold : (acc &&& ~~~(1#8 <<< n)).toNat < 2 ^ (n + 1) := by
    rw [BitVec.toNat_and]
    exact Nat.and_le_left.trans_lt (h.trans (Nat.pow_lt_pow_right (by decide) (Nat.lt_succ_self n)))
  rw [setAccBit, BitVec.toNat_or]
  exact Nat.or_lt_two_pow hold hbit

/-- One bit into the stream keeps the accumulator clean (44 R172). -/
theorem AccOk.packBit {v : Bool} {s t : State} (h : AccOk s) (ht : packBit v s = .ok t) : AccOk t := by
  simp only [Machine.packBit] at ht
  split at ht
  · rw [bind_eq_ok] at ht
    obtain ⟨u, hu, ht⟩ := ht
    cases ht
    simp [AccOk]
  next hn =>
    cases ht
    have hsucc : (s.accn + 1).toNat = s.accn.toNat + 1 := by bv_omega
    simpa only [AccOk, hsucc] using setAccBit_lt h v

theorem AccOk.packBits {bits : BitVec 255} {left k : Nat} {s t : State} (h : AccOk s)
    (ht : packBits bits left k s = .ok t) : AccOk t := by
  induction left generalizing k s with
  | zero =>
    cases ht
    exact h
  | succ left ih =>
    simp only [Machine.packBits, bind_eq_ok] at ht
    obtain ⟨u, hu, ht⟩ := ht
    exact ih (h.packBit hu) ht

/-- Every instruction keeps the accumulator clean: only PACK and SERL's exit touch it. -/
theorem AccOk.exec {i : Instr} {s t : State} (h : AccOk s) (hx : exec i s = .next t) : AccOk t := by
  cases i
  case compress => rw [exec_compress_frame hx]; exact h
  case decompress => rw [exec_decompress_frame hx]; exact h
  case idle => exact (exec_idle_eq_next s t).1 hx ▸ h
  case fclr => rw [exec_fclr_frame hx]; exact h
  case fcnt => rw [exec_fcnt_frame hx]; exact h
  case seed => rw [exec_seed_frame hx]; exact h
  case merge => rw [exec_merge_frame hx]; exact h
  case assign => rw [exec_assign_frame hx]; exact h
  case serh => rw [exec_serh_frame hx]; exact h
  case serl =>
    rcases (exec_serl_eq_next s t).1 hx with ⟨-, -, -, rfl⟩ | ⟨-, rfl⟩
    · exact h
    · simp [AccOk]
  case pack =>
    rcases (exec_pack_eq_next s t).1 hx with ⟨-, -, -, u, hu, rfl⟩ | ⟨-, rfl⟩
    · have hu' := h.packBits hu
      exact hu'
    · exact h
  case flush => rw [exec_flush_frame hx]; exact h
  case parse => rw [exec_parse_frame hx]; exact h
  case loadl => rw [exec_loadl_frame hx]; exact h
  case unpk => rw [exec_unpk_frame hx]; exact h

theorem AccOk.of_sameButHost {s u : State} (h : AccOk s) (same : SameButHost s u) : AccOk u := by
  rw [same.eq]
  exact h

/-- Settles O50: no step but PACK's, SERL's and reset changes the accumulator, and those keep it clean. -/
theorem everyStepKeepsAccumulatorClean : Obligations.EveryStepKeepsAccumulatorClean := by
  intro s t hs h
  cases step_cases h with
  | micro u same busy hexec => exact (hs.of_sameButHost same).exec hexec
  | hostOnly same => exact hs.of_sameButHost same
  | length u v same waiting eq =>
    subst eq
    exact (hs.of_sameButHost same : AccOk u)
  | command u v rest i move same waiting code hexec => exact (hs.of_sameButHost same).exec hexec
  | rejected u same waiting eq =>
    subst eq
    exact (hs.of_sameButHost same : AccOk u)
  | storeIn u a b same waiting bound eq =>
    subst eq
    exact (hs.of_sameButHost same : AccOk u)
  | storeOut u a b same waiting bound eq =>
    subst eq
    exact (hs.of_sameButHost same : AccOk u)
  | reset rest move eq => simp [eq, AccOk]

/-- Settles O51: nothing runs, nothing is listed and nothing is collected. -/
theorem resetMeetsTheInvariants : Obligations.ResetMeetsTheInvariants := by
  unfold Obligations.ResetMeetsTheInvariants
  decide

end Sys2Proof.Machine
end

section
/-! PROOFS. The host's accesses: what one move of the host does, and the fields of `STATUS`. -/

namespace Sys2Proof.Machine

/-- A step with a host move pending is that move, off the list. -/
theorem step_of_host {s : State} {m : HostMove} {rest : List HostMove} (h : s.host = m :: rest) :
    step s = hostTurn m { s with host := rest } := by
  simp only [step, machineStep, h]

/-- Settles O13: the write decodes its low byte, and takes a new turn first while the block is idle. -/
theorem commandWriteRunsCommand : Obligations.CommandWriteRunsCommand := by
  intro s v rest i h hc
  rw [step_of_host h, hostTurn, registerWrite, if_pos rfl, commandWrite, hc]

/-- The four fields of the assembled byte, for every error code and both flags (10_state.md R22). -/
theorem statusFields (e : ErrCode) (d b : Bool) :
    let v : Byte := 0#3 ++ errBits e ++ BitVec.ofBool d ++ BitVec.ofBool b
    v.getLsbD 0 = b ∧ v.getLsbD 1 = d ∧ v.extractLsb' 2 3 = errBits e ∧ v.extractLsb' 5 3 = 0#3 := by
  cases e <;> cases d <;> cases b <;> decide

/-- Settles O40: the fields of `STATUS` are those of the byte assembled from `ERR`, `DONE` and `BUSY`. -/
theorem statusLayout : Obligations.StatusLayout := by
  refine ⟨fun s => ?_, rfl, rfl, rfl, rfl, rfl, rfl⟩
  obtain ⟨hbusy, hdone, herr, hzero⟩ := statusFields s.err s.done s.busy
  exact ⟨hbusy, hdone, herr, hzero, rfl⟩

/-- The value a register holds, as the host reads it: `CMD` and the numbers that do not exist read 0 (R21). -/
def registerValue (hr : BitVec 3) (s : State) : BitVec 38 :=
  if hr = 1#3 then (statusByte s).setWidth 38
  else if hr = 2#3 then s.inLen
  else if hr = 3#3 then s.outLen
  else if hr = 4#3 then s.origLen.setWidth 38
  else if hr = 5#3 then s.n.setWidth 38
  else 0

/-- A read of a register returns its value, but for `ORIG_LEN` and `NLEAF` during a run (70 R260). -/
theorem registerRead_eq_answer {hr : BitVec 3} {s : State} (h : s.busy = false ∨ hr ≠ 4#3 ∧ hr ≠ 5#3) :
    registerRead hr s = answer (registerValue hr s) s := by
  simp only [registerRead, registerValue, apply_ite (answer · s)]
  rcases h with hb | ⟨h4, h5⟩
  · simp only [hb, Bool.false_eq_true, if_false]
  · simp only [h4, h5, if_false]

/-- Settles O41: a read that has a value returns it, and no read changes more than what was read. -/
theorem registerReads : Obligations.RegisterReads := by
  refine ⟨fun s hr rest h hfree => ?_, fun s hr rest h _ _ => ?_⟩
  · rw [step_of_host h, hostTurn, registerRead_eq_answer (s := { s with host := rest }) hfree]
    rfl
  · rw [step_of_host h, hostTurn, registerRead_frame]
    exact ⟨_, rfl⟩

/-- A write of any register during a run is ignored (45 R195). -/
theorem registerWrite_of_busy {s : State} (h : s.busy = true) (hr : BitVec 3) (v : BitVec 38) :
    registerWrite hr v s = .next s := by
  rw [registerWrite, if_pos h, if_pos h, commandWrite_of_busy h, ite_self, ite_self]

/-- Settles O42: during a run every write is ignored, while idle only `IN_LEN` takes one. -/
theorem registerWrites : Obligations.RegisterWrites := by
  intro s hr v rest h
  rw [step_of_host h, hostTurn]
  refine ⟨fun hb => registerWrite_of_busy (s := { s with host := rest }) hb hr v, fun hb hr0 => ?_⟩
  rw [registerWrite, if_neg hr0]
  by_cases h2 : hr = 2#3
  · simp [h2, hb]
  · simp [h2]

/-! ## Buffers -/

theorem outSeen_withHost (s : State) (rest : List HostMove) (a : Addr) :
    outSeen { s with host := rest } a = outSeen s a := rfl

section
variable {s : State} {a : Addr} {rest : List HostMove}

theorem step_writeIn {b : Byte} (hb : s.busy = false) (ha : a < s.params.inCap) (h : s.host = .writeIn a b :: rest) :
    step s = .next ({ s with host := rest }.setInMem (sparseSet s.inMem a.toNat b)) := by
  rw [step_of_host h, hostTurn, if_neg (by simp [hb]), if_pos ha]

theorem step_writeOut {b : Byte} (hb : s.busy = false) (ha : a < s.params.outCap) (h : s.host = .writeOut a b :: rest) :
    step s = .next (outputWrite a b { s with host := rest }) := by
  rw [step_of_host h, hostTurn, if_neg (by simp [hb]), if_pos ha]

theorem step_readIn (ha : a < s.params.inCap) (h : s.host = .readIn a :: rest) :
    step s = .next { s with host := rest, hostData := (inByte s a.toNat).setWidth 38 } := by
  rw [step_of_host h, hostTurn, if_pos ha]
  rfl

theorem step_readOut (ha : a < s.params.outCap) (h : s.host = .readOut a :: rest) :
    step s = .next { s with host := rest, hostData := (outSeen s a).setWidth 38 } := by
  rw [step_of_host h, hostTurn, if_pos ha, outputRead_frame, outSeen_withHost]

end

/-- The host's writes of a buffer, and FEEDBACK, are refused during a run (70 R261). -/
theorem step_bufferWrite_of_busy {s : State} {m : HostMove} {rest : List HostMove} (hb : s.busy = true)
    (h : s.host = m :: rest) (hm : (∃ a b, m = .writeIn a b) ∨ (∃ a b, m = .writeOut a b) ∨ m = .feedback) :
    step s = .refused .hostBufferWriteWhileBusy := by
  rw [step_of_host h]
  rcases hm with ⟨a, b, rfl⟩ | ⟨a, b, rfl⟩ | rfl <;> exact if_pos hb

/-- A byte of `IN` after the host's write to any address (70 R260). -/
theorem inByte_hostWrite (s : State) (rest : List HostMove) (a c : Nat) (b : Byte) :
    inByte ({ s with host := rest }.setInMem (sparseSet s.inMem a b)) c = if c = a then b else inByte s c :=
  inByte_set { s with host := rest } a c b

/-- A byte of `OUT` after the host's write to any address (70 R260). -/
theorem outByte_outputWrite (s : State) (a : Addr) (c : Nat) (b : Byte) :
    outByte (outputWrite a b s) c = if c = a.toNat then b else outByte s c := by
  rw [← outByte_set]
  rfl

/-- Settles O43: each access's step, and what is read after a write. -/
theorem hostBufferAccesses : Obligations.HostBufferAccesses := by
  refine ⟨fun s a b rest hb ha h => ?_, fun s a b rest hb ha h => ?_, fun s a rest ha h => step_readIn ha h,
    fun s a rest ha h => ⟨step_readOut ha h, fun hb he hl => ?_⟩, fun s a rest ha h => ?_,
    fun s m rest hb h hm => step_bufferWrite_of_busy hb h hm⟩
  · refine ⟨_, step_writeIn hb ha h, ?_, fun c hc => ?_, rfl⟩
    · rw [inByte_hostWrite, if_pos rfl]
    · rw [inByte_hostWrite, if_neg hc]
  · refine ⟨_, step_writeOut hb ha h, ?_, fun c hc => ?_, ?_, fun c hc => ?_, rfl⟩
    · rw [outByte_outputWrite, if_pos rfl]
    · rw [outByte_outputWrite, if_neg (by omega)]
      rfl
    · rw [outSeen_outputWrite, if_pos rfl]
    · rw [outSeen_outputWrite, if_neg hc, outSeen_withHost]
  · exact outSeen_of_readable (by simp [outReadable, hb, he, hl])
  · exact ⟨_, _, step_readOut ha h, step_readOut ha rfl, rfl, rfl⟩

/-- Settles O46: by the definition of the reset state. -/
theorem resetValues : Obligations.ResetValues := by
  unfold Obligations.ResetValues
  decide

end Sys2Proof.Machine
end

section
/-! PROOFS. One merge: what its insertion scan does to the queue, and what it does to the nodes. -/

namespace Sys2Proof.Machine

/-! ## Reads after writes, at any place -/

theorem nodeAt_set (s : State) (i j : NodeIx) (v : Node) :
    nodeAt (s.setNode (sparseSet s.node i.toNat v)) j = if j = i then v else nodeAt s j := by
  split
  next h => rw [h, nodeAt_set_same]
  next h => exact nodeAt_set_other s v h

theorem queueAt_set (s : State) (i j : Nat) (v : NodeIx) :
    queueAt (s.setQ (sparseSet s.q i v)) j = if j = i then v else queueAt s j := by
  split
  next h => rw [h, queueAt_set_same]
  next h => exact queueAt_set_other s v h

/-- A node is read from the store and the count of resets alone. -/
theorem nodeAt_congr {s t : State} (hn : t.node = s.node) (he : t.epoch = s.epoch) (i : NodeIx) :
    nodeAt t i = nodeAt s i := by
  rw [nodeAt, nodeAt, hn, he]

/-- A queue entry is read from the queue array and the count of resets alone. -/
theorem queueAt_congr {s t : State} (hq : t.q = s.q) (he : t.epoch = s.epoch) (i : Nat) :
    queueAt t i = queueAt s i := by
  rw [queueAt, queueAt, hq, he]

/-! ## The insertion scan -/

/-- The queue, head first (10_state.md R33). -/
def queue (s : State) : List NodeIx := (List.range s.qn.toNat).map (queueAt s)

theorem mem_queue {s : State} {x : NodeIx} : x ∈ queue s ↔ ∃ j < s.qn.toNat, queueAt s j = x := by
  simp [queue]

/-- Exchanging the entries at two places of a list's range permutes it. -/
theorem map_swap_perm {α : Type} (g : Nat → α) {i j m : Nat} (hi : i < m) (hj : j < m) :
    ((List.range m).map (g ∘ Equiv.swap i j)).Perm ((List.range m).map g) := by
  rw [← List.map_map]
  refine List.Perm.map g ((List.perm_ext_iff_of_nodup ?_ List.nodup_range).2 fun x => ?_)
  · exact List.nodup_range.map (Equiv.swap i j).injective
  · rw [List.mem_map]
    constructor
    · rintro ⟨y, hy, rfl⟩
      rw [List.mem_range] at hy ⊢
      rw [Equiv.swap_apply_def]
      split_ifs <;> assumption
    · intro hx
      refine ⟨Equiv.swap i j x, ?_, Equiv.swap_apply_self i j x⟩
      rw [List.mem_range] at hx ⊢
      rw [Equiv.swap_apply_def]
      split_ifs <;> assumption

/-- Shifting one entry toward the tail exchanges it with the free place. -/
theorem queueAt_shift (s : State) (i : Nat) (p : NodeIx) :
    queueAt ((s.setQ (sparseSet s.q (i + 1) (queueAt s i))).setQ
        (sparseSet (sparseSet s.q (i + 1) (queueAt s i)) i p)) =
      queueAt (s.setQ (sparseSet s.q (i + 1) p)) ∘ Equiv.swap i (i + 1) := by
  funext j
  have hset := queueAt_set (s.setQ (sparseSet s.q (i + 1) (queueAt s i))) i j p
  rw [setQ_q] at hset
  rw [hset, queueAt_set, Function.comp_apply, queueAt_set, Equiv.swap_apply_def]
  by_cases h0 : j = i
  · simp [h0]
  · by_cases h1 : j = i + 1
    · simp [h1]
    · simp [h0, h1]

/-- The scan only shifts entries: with the free place filled, the queue is the one it began with, in another order. -/
theorem insertScan_perm {f : Freq} {i m : Nat} {s : State} {r : Nat × State} (h : insertScan f i s = .ok r) (hi : i < m)
    (p : NodeIx) :
    ((List.range m).map (queueAt (r.2.setQ (sparseSet r.2.q r.1 p)))).Perm
      ((List.range m).map (queueAt (s.setQ (sparseSet s.q i p)))) := by
  induction i generalizing s with
  | zero =>
    cases h
    exact .refl _
  | succ i ih =>
    simp only [insertScan, bind_eq_ok, readQ_eq_ok] at h
    obtain ⟨_, ⟨-, rfl⟩, nd, -, h⟩ := h
    split at h
    · rw [bind_eq_ok] at h
      obtain ⟨u, hu, h⟩ := h
      obtain ⟨-, rfl⟩ := (writeQ_eq_ok _ _ _ _).1 hu
      refine (ih h (by omega)).trans ?_
      rw [setQ_q, queueAt_shift]
      exact map_swap_perm _ (by omega) hi
    · cases h
      exact .refl _

/-- The scan ends where the entries it passes exist. -/
theorem insertScan_answers (f : Freq) {i : Nat} {s : State} (hi : i < maxQueue)
    (hq : ∀ j < i, (queueAt s j).toNat < maxNodes) : ∃ r, insertScan f i s = .ok r := by
  induction i generalizing s with
  | zero => exact ⟨_, rfl⟩
  | succ i ih =>
    have hread : readQ s i = .ok (queueAt s i) := (readQ_eq_ok _ _ _).2 ⟨by omega, rfl⟩
    have hnode : readNode s (queueAt s i) = .ok (nodeAt s (queueAt s i)) :=
      (readNode_eq_ok _ _ _).2 ⟨hq i (Nat.lt_succ_self i), rfl⟩
    have hwrite := (writeQ_eq_ok s (i + 1) (queueAt s i) _).2 ⟨hi, rfl⟩
    simp only [insertScan, hread, hnode, ok_bind]
    split
    · rw [hwrite, ok_bind]
      refine ih (by omega) fun j hj => ?_
      rw [queueAt_set, if_neg (by omega)]
      exact hq j (by omega)
    · exact ⟨_, rfl⟩

/-! ## One merge -/

section
variable (s : State) (a b : NodeIx)

@[simp] theorem joined_q : (joined s a b).q = s.q := by simp [joined, withParent, withNewNode]
@[simp] theorem joined_epoch : (joined s a b).epoch = s.epoch := by simp [joined, withParent, withNewNode]

@[simp] theorem queueAt_joined (j : Nat) : queueAt (joined s a b) j = queueAt s j :=
  queueAt_congr (joined_q s a b) (joined_epoch s a b) j

end

theorem nodeAt_withParent (s : State) (i p j : NodeIx) :
    nodeAt (withParent s i p) j = { nodeAt s j with parent := if j = i then p else (nodeAt s j).parent } := by
  rw [withParent, nodeAt_set]
  split
  next h => rw [h]
  next h => rfl

/-- Every node after a merge: the new one at `NN`, every other as before but for the parents of the two joined. -/
theorem nodeAt_joined (s : State) (a b j : NodeIx) :
    nodeAt (joined s a b) j =
      { (if j = s.nn then ⟨joinedFreq s a b, 0x00#8, a, b, nil⟩ else nodeAt s j : Node) with
        parent := if j = a ∨ j = b then s.nn else if j = s.nn then nil else (nodeAt s j).parent } := by
  change nodeAt (withParent (withParent (withNewNode s a b) a s.nn) b s.nn) j = _
  rw [nodeAt_withParent, nodeAt_withParent, withNewNode, nodeAt_set]
  by_cases hb : j = b
  · simp [hb]
  · by_cases ha : j = a
    · simp [ha, show a ≠ b from ha ▸ hb]
    · simp only [ha, hb, or_self, if_false]
      split <;> rfl

theorem queueAt_enqueued (r : Nat × State) (p : NodeIx) (j : Nat) :
    queueAt (enqueued r p) j = if j = r.1 then p else queueAt r.2 j :=
  queueAt_set r.2 r.1 j p

section
variable {s t : State} (ht : mergeOnce s = .ok t)
include ht

/-- The node store after a merge. -/
theorem nodeAt_mergeOnce (j : NodeIx) : nodeAt t j = nodeAt (joined s (tailEntry s) (secondEntry s)) j := by
  obtain ⟨-, r, hr, -, rfl⟩ := (mergeOnce_eq_ok s t).1 ht
  have hf := insertScan_frame hr
  refine nodeAt_congr ?_ ?_ j
  · rw [enqueued, hf]
    simp
  · rw [enqueued, hf]
    simp

/-- The queue length after a merge. -/
theorem qn_mergeOnce (hq : 2 ≤ s.qn.toNat) : t.qn.toNat = s.qn.toNat - 1 := by
  have hqn : t.qn = s.qn - 2 + 1 := by rw [mergeOnce_frame ht]
  rw [hqn]
  bv_omega

/-- The node count after a merge; it does not wrap, since the new node has an entry. -/
theorem nn_mergeOnce : t.nn.toNat = s.nn.toNat + 1 := by
  obtain ⟨⟨-, hroom, -⟩, -⟩ := (mergeOnce_eq_ok s t).1 ht
  have hnn : t.nn = s.nn + 1 := by rw [mergeOnce_frame ht]
  simp only [maxNodes] at hroom
  rw [hnn]
  bv_omega

/-- A merge takes the last two entries off the queue and puts the new node somewhere among the rest. -/
theorem queue_mergeOnce (hq : 2 ≤ s.qn.toNat) :
    ∃ rest, queue s = rest ++ [secondEntry s, tailEntry s] ∧ (queue t).Perm (s.nn :: rest) := by
  obtain ⟨m, hm⟩ : ∃ m, s.qn.toNat = m + 2 := ⟨s.qn.toNat - 2, by omega⟩
  refine ⟨(List.range m).map (queueAt s), ?_, ?_⟩
  · rw [queue, hm, List.range_succ, List.range_succ, secondEntry, tailEntry, hm]
    simp
  · have hlen := qn_mergeOnce ht hq
    obtain ⟨-, r, hr, -, rfl⟩ := (mergeOnce_eq_ok s t).1 ht
    have hstart : (s.qn - 2).toNat = m := by bv_omega
    have hlen' : (enqueued r s.nn).qn.toNat = m + 1 := by omega
    rw [queue, hlen']
    rw [mergeScan, hstart] at hr
    refine (insertScan_perm hr (Nat.lt_succ_self m) s.nn).trans ?_
    rw [List.range_succ, List.map_append, List.map_singleton, queueAt_set_same]
    refine (List.perm_append_singleton _ _).trans (List.Perm.cons _ (List.Perm.of_eq ?_))
    refine List.map_congr_left fun j hj => ?_
    rw [queueAt_set, if_neg (by have := List.mem_range.1 hj; omega), queueAt_joined]

/-- The queue after a merge holds the new node and entries it held before. -/
theorem mem_queue_mergeOnce (hq : 2 ≤ s.qn.toNat) {x : NodeIx} (hx : x ∈ queue t) : x = s.nn ∨ x ∈ queue s := by
  obtain ⟨rest, hbefore, hafter⟩ := queue_mergeOnce ht hq
  refine (List.mem_cons.1 (hafter.mem_iff.1 hx)).imp_right fun hrest => ?_
  rw [hbefore]
  exact List.mem_append_left _ hrest

end

/-- A merge answers where the queue's entries and the place of the new node exist. -/
theorem mergeOnce_answers {s : State} (hq : 2 ≤ s.qn.toNat) (hq' : s.qn.toNat ≤ maxQueue) (hn : s.nn.toNat < maxNodes)
    (hb : ∀ x ∈ queue s, x.toNat < maxNodes) : ∃ t, mergeOnce s = .ok t := by
  have nodes_exist : ∀ j < s.qn.toNat, (queueAt s j).toNat < maxNodes := fun j hj => hb _ (mem_queue.2 ⟨j, hj, rfl⟩)
  have hstart : (s.qn - 2).toNat = s.qn.toNat - 2 := by bv_omega
  have hscan : ∃ r, mergeScan s = .ok r := by
    rw [mergeScan, hstart]
    refine insertScan_answers _ (by omega) fun j hj => ?_
    rw [queueAt_joined]
    exact nodes_exist j (by omega)
  obtain ⟨r, hr⟩ := hscan
  have hle : r.1 ≤ s.qn.toNat - 2 := by
    rw [mergeScan, hstart] at hr
    exact insertScan_le hr
  exact ⟨_, (mergeOnce_eq_ok s _).2
    ⟨⟨by omega, hn, nodes_exist _ (by omega), nodes_exist _ (by omega)⟩, r, hr, by omega, rfl⟩⟩

end Sys2Proof.Machine
end

section
/-! PROOFS. N steps of MERGE build the tree of N leaves: the merged nodes form a forest whose roots are the queue. -/

namespace Sys2Proof.Machine

/-! ## The forest of a partly merged queue -/

/-- Node `x` is one of the two children of node `p`, and only one (10_state.md R38). -/
def OneChild (s : State) (p x : NodeIx) : Prop :=
  ((nodeAt s p).left = x ∧ (nodeAt s p).right ≠ x) ∨ ((nodeAt s p).left ≠ x ∧ (nodeAt s p).right = x)

/-- What holds between two merges (41 R127): the nodes below `NN` form trees, and the queue lists their roots, the
newest node among them. -/
structure Forest (s : State) : Prop where
  leafCount : 1 ≤ s.n.toNat ∧ s.n.toNat ≤ 256
  grown : s.n.toNat ≤ s.nn.toNat
  counts : s.nn.toNat + s.qn.toNat = 2 * s.n.toNat
  distinct : (queue s).Nodup
  below : ∀ x ∈ queue s, x.toNat < s.nn.toNat
  newest : ∃ x ∈ queue s, x.toNat + 1 = s.nn.toNat
  roots : ∀ x ∈ queue s, (nodeAt s x).parent = nil
  linked : ∀ x : NodeIx, x.toNat < s.nn.toNat → x ∉ queue s →
    ∃ p : NodeIx, s.n.toNat ≤ p.toNat ∧ p.toNat < s.nn.toNat ∧ (nodeAt s x).parent = p ∧ OneChild s p x
  inner : ∀ x : NodeIx, s.n.toNat ≤ x.toNat → x.toNat < s.nn.toNat →
    (nodeAt s x).left.toNat < x.toNat ∧ (nodeAt s x).right.toNat < x.toNat ∧ (nodeAt s x).left ≠ (nodeAt s x).right
  leaves : ∀ x : NodeIx, x.toNat < s.n.toNat → (nodeAt s x).left = nil ∧ (nodeAt s x).right = nil

theorem toNat_ofNat_of_lt {j : Nat} (h : j < maxNodes) : (BitVec.ofNat 9 j).toNat = j := by
  rw [BitVec.toNat_ofNat]
  exact Nat.mod_eq_of_lt (by simp only [maxNodes] at h; omega)

section
variable {s : State} (h : MergeEntry s)
include h

/-- The queue MERGE starts from lists the leaves in index order. -/
theorem queue_of_mergeEntry : queue s = (List.range s.n.toNat).map (BitVec.ofNat 9) := by
  obtain ⟨-, -, hqn, -, hleaf⟩ := h
  rw [queue, hqn]
  refine List.map_congr_left fun j hj => ?_
  obtain ⟨hqueue, -⟩ := hleaf j (List.mem_range.1 hj)
  exact hqueue

theorem toNat_ofNat_of_mergeEntry {j : Nat} (hj : j < s.n.toNat) : (BitVec.ofNat 9 j).toNat = j := by
  obtain ⟨-, h256, -⟩ := h
  exact toNat_ofNat_of_lt (by simp only [maxNodes]; omega)

theorem mem_queue_of_mergeEntry (x : NodeIx) : x ∈ queue s ↔ x.toNat < s.n.toNat := by
  rw [queue_of_mergeEntry h, List.mem_map]
  constructor
  · rintro ⟨j, hj, rfl⟩
    rw [List.mem_range] at hj
    rwa [toNat_ofNat_of_mergeEntry h hj]
  · intro hx
    exact ⟨x.toNat, List.mem_range.2 hx, by simp⟩

theorem nodup_queue_of_mergeEntry : (queue s).Nodup := by
  rw [queue_of_mergeEntry h]
  refine List.nodup_range.map_on fun i hi j hj hij => ?_
  rw [← toNat_ofNat_of_mergeEntry h (List.mem_range.1 hi), ← toNat_ofNat_of_mergeEntry h (List.mem_range.1 hj), hij]

theorem leaf_of_mergeEntry {x : NodeIx} (hx : x.toNat < s.n.toNat) : ∃ freq sym, nodeAt s x = leafNode freq sym := by
  obtain ⟨-, -, -, -, hleaf⟩ := h
  obtain ⟨-, hnode⟩ := hleaf x.toNat hx
  simpa using hnode

/-- Before the first merge every leaf is a tree of its own (41 R120). -/
theorem forest_of_mergeEntry : Forest s := by
  have hmem := mem_queue_of_mergeEntry h
  have hlast := toNat_ofNat_of_mergeEntry h (j := s.n.toNat - 1)
  have hdistinct := nodup_queue_of_mergeEntry h
  have hnode := fun x => leaf_of_mergeEntry h (x := x)
  obtain ⟨h1, h256, hqn, hnn, -⟩ := h
  refine ⟨⟨h1, h256⟩, by rw [hnn], by rw [hnn, hqn]; omega, hdistinct, ?_, ?_, ?_, ?_, ?_, ?_⟩
  · intro x hx
    rw [hnn]
    exact (hmem x).1 hx
  · rw [hnn]
    exact ⟨BitVec.ofNat 9 (s.n.toNat - 1), (hmem _).2 (by omega), by omega⟩
  · intro x hx
    obtain ⟨freq, sym, e⟩ := hnode x ((hmem x).1 hx)
    rw [e, leafNode]
  · intro x hx hq
    rw [hnn] at hx
    exact absurd ((hmem x).2 hx) hq
  · intro x hx hx'
    rw [hnn] at hx'
    omega
  · intro x hx
    obtain ⟨freq, sym, e⟩ := hnode x hx
    simp [e, leafNode]

end

/-! ## A merge keeps the forest -/

/-- The sum of the roots' frequencies. -/
def rootSum (s : State) : Freq := ((queue s).map fun x => (nodeAt s x).freq).sum

/-- The second state has the leaves of the first, with their frequencies and symbols. -/
def KeepsLeaves (s t : State) : Prop :=
  t.n = s.n ∧ ∀ x : NodeIx, x.toNat < s.n.toNat →
    (nodeAt t x).freq = (nodeAt s x).freq ∧ (nodeAt t x).sym = (nodeAt s x).sym

theorem KeepsLeaves.refl (s : State) : KeepsLeaves s s := ⟨rfl, fun _ _ => ⟨rfl, rfl⟩⟩

theorem KeepsLeaves.trans {s t u : State} (h : KeepsLeaves s t) (h' : KeepsLeaves t u) : KeepsLeaves s u := by
  obtain ⟨hn, hl⟩ := h
  obtain ⟨hn', hl'⟩ := h'
  refine ⟨hn'.trans hn, fun x hx => ?_⟩
  obtain ⟨hf, hs⟩ := hl x hx
  obtain ⟨hf', hs'⟩ := hl' x (by rwa [hn])
  exact ⟨hf'.trans hf, hs'.trans hs⟩

/-- A forest with two roots or more can be merged. -/
theorem Forest.mergeOnce_answers {s : State} (h : Forest s) (hq : 2 ≤ s.qn.toNat) : ∃ t, mergeOnce s = .ok t := by
  obtain ⟨-, h256⟩ := h.leafCount
  have hgrown := h.grown
  have hcounts := h.counts
  refine Machine.mergeOnce_answers hq (by simp only [maxQueue]; omega) (by simp only [maxNodes]; omega) fun x hx => ?_
  have := h.below x hx
  simp only [maxNodes]
  omega

/-- The nodes after a merge of two distinct nodes, neither of them the new one. -/
structure Joins (s t : State) (a b : NodeIx) : Prop where
  new : nodeAt t s.nn = ⟨joinedFreq s a b, 0x00#8, a, b, nil⟩
  child : ∀ x, x = a ∨ x = b → nodeAt t x = { nodeAt s x with parent := s.nn }
  other : ∀ x, x ≠ s.nn → x ≠ a → x ≠ b → nodeAt t x = nodeAt s x

theorem joins_of_mergeOnce {s t : State} (ht : mergeOnce s = .ok t) (ha : tailEntry s ≠ s.nn)
    (hb : secondEntry s ≠ s.nn) : Joins s t (tailEntry s) (secondEntry s) := by
  refine ⟨?_, ?_, ?_⟩
  · rw [nodeAt_mergeOnce ht, nodeAt_joined]
    simp [ha.symm, hb.symm]
  · intro x hx
    have hn : x ≠ s.nn := by rcases hx with rfl | rfl <;> assumption
    rw [nodeAt_mergeOnce ht, nodeAt_joined]
    simp [hn, hx]
  · intro x hn hxa hxb
    rw [nodeAt_mergeOnce ht, nodeAt_joined]
    simp [hn, hxa, hxb]

/-- Children are as before at every node but the new one. -/
theorem Joins.children {s t : State} {a b x : NodeIx} (j : Joins s t a b) (hx : x ≠ s.nn) :
    (nodeAt t x).freq = (nodeAt s x).freq ∧ (nodeAt t x).sym = (nodeAt s x).sym ∧
      (nodeAt t x).left = (nodeAt s x).left ∧ (nodeAt t x).right = (nodeAt s x).right := by
  by_cases hab : x = a ∨ x = b
  · rw [j.child x hab]
    exact ⟨rfl, rfl, rfl, rfl⟩
  · rw [not_or] at hab
    rw [j.other x hx hab.1 hab.2]
    exact ⟨rfl, rfl, rfl, rfl⟩

/-- One merge of a forest: `b` and `a` are the queue's last two entries, `rest` the others. -/
structure MergeOf (s t : State) (a b : NodeIx) (rest : List NodeIx) : Prop where
  before : queue s = rest ++ [b, a]
  after : (queue t).Perm (s.nn :: rest)
  joins : Joins s t a b
  n : t.n = s.n
  nn : t.nn.toNat = s.nn.toNat + 1
  qn : t.qn.toNat + 1 = s.qn.toNat
  apart : a ≠ b
  unmoved : ∀ x ∈ rest, x ≠ s.nn ∧ x ≠ a ∧ x ≠ b
  distinct : rest.Nodup

theorem Forest.mergeOf {s t : State} (h : Forest s) (hq : 2 ≤ s.qn.toNat) (ht : mergeOnce s = .ok t) :
    ∃ a b rest, MergeOf s t a b rest := by
  obtain ⟨rest, before, after⟩ := queue_mergeOnce ht hq
  have hold : ∀ x ∈ queue s, x ≠ s.nn := fun x hx e => absurd (h.below x hx) (by rw [e]; omega)
  have hdistinct := h.distinct
  rw [before] at hold hdistinct
  obtain ⟨distinct, hpair, hapart⟩ := List.nodup_append.1 hdistinct
  refine ⟨_, _, rest, before, after,
    joins_of_mergeOnce ht (hold _ (by simp)) (hold _ (by simp)), by rw [mergeOnce_frame ht], nn_mergeOnce ht,
    ?_, ?_, ?_, distinct⟩
  · have := qn_mergeOnce ht hq
    omega
  · intro e
    simp [e] at hpair
  · exact fun x hx => ⟨hold x (by simp [hx]), hapart x hx _ (by simp), hapart x hx _ (by simp)⟩

section
variable {s t : State} {a b : NodeIx} {rest : List NodeIx} (h : Forest s) (m : MergeOf s t a b rest)

theorem MergeOf.mem_before (m : MergeOf s t a b rest) (x : NodeIx) : x ∈ queue s ↔ x ∈ rest ∨ x = b ∨ x = a := by
  simp [m.before]

theorem MergeOf.mem_after (m : MergeOf s t a b rest) (x : NodeIx) : x ∈ queue t ↔ x = s.nn ∨ x ∈ rest := by
  rw [m.after.mem_iff, List.mem_cons]

/-- A node below the new count is the new one or was there before. -/
theorem MergeOf.lt_or_new (m : MergeOf s t a b rest) {x : NodeIx} (hx : x.toNat < t.nn.toNat) :
    x = s.nn ∨ (x ≠ s.nn ∧ x.toNat < s.nn.toNat) := by
  by_cases e : x = s.nn
  · exact .inl e
  · have hne : x.toNat ≠ s.nn.toNat := fun e' => e (BitVec.eq_of_toNat_eq e')
    have := m.nn
    exact .inr ⟨e, by omega⟩

include h m

theorem Forest.merge_below (x : NodeIx) (hx : x ∈ queue t) : x.toNat < t.nn.toNat := by
  have hnn := m.nn
  rcases (m.mem_after x).1 hx with rfl | hx
  · omega
  · have := h.below x ((m.mem_before x).2 (.inl hx))
    omega

theorem Forest.merge_roots (x : NodeIx) (hx : x ∈ queue t) : (nodeAt t x).parent = nil := by
  rcases (m.mem_after x).1 hx with rfl | hx
  · rw [m.joins.new]
  · obtain ⟨hn, ha, hb⟩ := m.unmoved x hx
    rw [m.joins.other x hn ha hb]
    exact h.roots x ((m.mem_before x).2 (.inl hx))

/-- The two joined nodes hang below the new one, the others where they did. -/
theorem Forest.merge_linked (x : NodeIx) (hx : x.toNat < t.nn.toNat) (hxq : x ∉ queue t) :
    ∃ p : NodeIx, t.n.toNat ≤ p.toNat ∧ p.toNat < t.nn.toNat ∧ (nodeAt t x).parent = p ∧ OneChild t p x := by
  have hnn := m.nn
  rw [m.mem_after, not_or] at hxq
  obtain ⟨hxn, hxr⟩ := hxq
  rw [m.n]
  by_cases hab : x = a ∨ x = b
  · refine ⟨s.nn, h.grown, by omega, by rw [m.joins.child x hab], ?_⟩
    rw [OneChild, m.joins.new]
    rcases hab with rfl | rfl
    · exact .inl ⟨rfl, m.apart.symm⟩
    · exact .inr ⟨m.apart, rfl⟩
  · rw [not_or] at hab
    obtain ⟨-, hx'⟩ := (m.lt_or_new hx).resolve_left hxn
    have hout : x ∉ queue s := by
      rw [m.mem_before]
      tauto
    obtain ⟨p, hp, hp', hparent, hchild⟩ := h.linked x hx' hout
    have hpn : p ≠ s.nn := by
      rintro rfl
      omega
    refine ⟨p, hp, by omega, by rw [m.joins.other x hxn hab.1 hab.2]; exact hparent, ?_⟩
    obtain ⟨-, -, hl, hr⟩ := m.joins.children hpn
    rw [OneChild, hl, hr]
    exact hchild

theorem Forest.merge_inner (x : NodeIx) (hx : t.n.toNat ≤ x.toNat) (hx' : x.toNat < t.nn.toNat) :
    (nodeAt t x).left.toNat < x.toNat ∧ (nodeAt t x).right.toNat < x.toNat ∧
      (nodeAt t x).left ≠ (nodeAt t x).right := by
  rw [m.n] at hx
  rcases m.lt_or_new hx' with rfl | ⟨hxn, hxlt⟩
  · rw [m.joins.new]
    exact ⟨h.below a ((m.mem_before a).2 (by simp)), h.below b ((m.mem_before b).2 (by simp)), m.apart⟩
  · obtain ⟨-, -, hl, hr⟩ := m.joins.children hxn
    rw [hl, hr]
    exact h.inner x hx hxlt

/-- A leaf is not the new node, so it is as before but for its parent. -/
theorem Forest.merge_leaf (x : NodeIx) (hx : x.toNat < s.n.toNat) :
    (nodeAt t x).freq = (nodeAt s x).freq ∧ (nodeAt t x).sym = (nodeAt s x).sym ∧
      (nodeAt t x).left = (nodeAt s x).left ∧ (nodeAt t x).right = (nodeAt s x).right := by
  have hgrown := h.grown
  refine m.joins.children ?_
  rintro rfl
  omega

/-- A merge keeps the forest. -/
theorem Forest.merge : Forest t where
  leafCount := m.n ▸ h.leafCount
  grown := by
    have := h.grown
    have := m.nn
    rw [m.n]
    omega
  counts := by
    have := h.counts
    have := m.nn
    have := m.qn
    rw [m.n]
    omega
  distinct := m.after.nodup_iff.2 (List.nodup_cons.2 ⟨fun hx => (m.unmoved _ hx).1 rfl, m.distinct⟩)
  below := h.merge_below m
  newest := ⟨s.nn, (m.mem_after _).2 (.inl rfl), m.nn.symm⟩
  roots := h.merge_roots m
  linked := h.merge_linked m
  inner := h.merge_inner m
  leaves x hx := by
    rw [m.n] at hx
    obtain ⟨-, -, hl, hr⟩ := h.merge_leaf m x hx
    rw [hl, hr]
    exact h.leaves x hx

theorem Forest.merge_keepsLeaves : KeepsLeaves s t := by
  refine ⟨m.n, fun x hx => ?_⟩
  obtain ⟨hf, hs, -⟩ := h.merge_leaf m x hx
  exact ⟨hf, hs⟩

omit h in
/-- A merge keeps the sum of the roots' frequencies: the new root's is the sum of the two it joins. -/
theorem MergeOf.rootSum_eq : rootSum t = rootSum s := by
  have hfreq : ∀ x ∈ rest, (nodeAt t x).freq = (nodeAt s x).freq := fun x hx =>
    (m.joins.children (m.unmoved x hx).1).1
  calc rootSum t
      = ((s.nn :: rest).map fun x => (nodeAt t x).freq).sum := (m.after.map _).sum_eq
    _ = joinedFreq s a b + (rest.map fun x => (nodeAt s x).freq).sum := by
        rw [List.map_cons, List.sum_cons, m.joins.new, List.map_congr_left hfreq]
    _ = rootSum s := by
        rw [rootSum, m.before, List.map_append, List.sum_append, joinedFreq]
        simp only [List.map_cons, List.map_nil, List.sum_cons, List.sum_nil]
        ring

end

/-! ## The run -/

/-- A run's first step. -/
theorem runFor_of_step {s t : State} (h : step s = .next t) (k : Nat) : runFor (k + 1) s = runFor k t := by
  simp only [runFor, h]

/-- During a run with no host move pending, a step of MERGE. -/
theorem step_merge {s : State} (hb : s.busy = true) (hh : s.host = []) (hp : s.phase = .merge) :
    step s = exec .merge s := by
  simp only [step, machineStep, hh, sequencerStep_eq, hb, if_true, hp, phaseInstr]

/-- What the run of MERGE leaves: the exit from a forest of one tree, with the leaves and the sum it began with. -/
def Built (s t : State) : Prop :=
  ∃ u, Forest u ∧ u.qn.toNat = 1 ∧ KeepsLeaves s u ∧ rootSum u = rootSum s ∧ t = mergeExited u

/-- From a forest of `m + 1` trees, `m` merges and the exit. -/
theorem merge_run (m : Nat) {s : State} (hb : s.busy = true) (hh : s.host = []) (hp : s.phase = .merge) (hf : Forest s)
    (hq : s.qn.toNat = m + 1) : ∃ t, runFor (m + 1) s = .next t ∧ Built s t := by
  induction m generalizing s with
  | zero =>
    have hx : exec .merge s = .next (mergeExited s) := (exec_merge_eq_next s _).2 (.inr ⟨by omega, rfl⟩)
    exact ⟨_, runFor_of_step (by rw [step_merge hb hh hp, hx]) 0, s, hf, hq, .refl s, rfl, rfl⟩
  | succ m ih =>
    obtain ⟨u, hu⟩ := hf.mergeOnce_answers (by omega)
    have hx : exec .merge s = .next u := (exec_merge_eq_next s u).2 (.inl ⟨by omega, hu⟩)
    have hframe := mergeOnce_frame hu
    obtain ⟨a, b, rest, hm⟩ := hf.mergeOf (by omega) hu
    have hqu := qn_mergeOnce hu (by omega)
    obtain ⟨t, ht, v, hv, hv1, hvkeep, hvsum, rfl⟩ := ih (s := u) (by rw [hframe]; exact hb) (by rw [hframe]; exact hh)
      (by rw [hframe]; exact hp) (hf.merge hm) (by omega)
    refine ⟨_, ?_, v, hv, hv1, (hf.merge_keepsLeaves hm).trans hvkeep, hvsum.trans hm.rootSum_eq, rfl⟩
    rw [runFor_of_step ((step_merge hb hh hp).trans hx), ht]

/-- A forest of one tree is the tree of N leaves, its root the newest node (10_state.md R38). -/
theorem Forest.treeOk {s : State} (h : Forest s) (hq : s.qn.toNat = 1) (hroot : s.root = queueAt s 0) : TreeOk s := by
  have hqueue : queue s = [s.root] := by
    rw [queue, hq, hroot]
    rfl
  have hcounts := h.counts
  obtain ⟨h1, h256⟩ := h.leafCount
  have hlast : s.root.toNat = 2 * s.n.toNat - 2 := by
    obtain ⟨x, hx, hx'⟩ := h.newest
    rw [hqueue, List.mem_singleton] at hx
    subst hx
    omega
  have hnat : ∀ i ≤ 2 * s.n.toNat - 2, (BitVec.ofNat 9 i).toNat = i := fun i hi =>
    toNat_ofNat_of_lt (by simp only [maxNodes]; omega)
  have hofNat : BitVec.ofNat 9 (2 * s.n.toNat - 2) = s.root :=
    BitVec.eq_of_toNat_eq ((hnat _ (Nat.le_refl _)).trans hlast.symm)
  refine ⟨by omega, hlast, ?_, fun i hi => ?_, fun i hi hi' => ?_, fun i hi => ?_⟩
  · change (nodeAt s (BitVec.ofNat 9 (2 * s.n.toNat - 2))).parent = nil
    rw [hofNat]
    exact h.roots _ (by simp [hqueue])
  · have hi' := hnat i (by omega)
    obtain ⟨p, hp, hp', hparent, hchild⟩ := h.linked (BitVec.ofNat 9 i) (by omega) (by
      rw [hqueue, List.mem_singleton]
      intro e
      rw [e] at hi'
      omega)
    exact ⟨p.toNat, hp, by omega, by simpa using hparent, by simpa [OneChild] using hchild⟩
  · have e := hnat i hi'
    have hinner := h.inner (BitVec.ofNat 9 i) (by omega) (by omega)
    rwa [e] at hinner
  · exact h.leaves _ (by rw [hnat i (by omega)]; exact hi)

/-- The exit of MERGE touches no field a forest speaks of. -/
theorem Forest.mergeExited {s : State} (h : Forest s) : Forest (mergeExited s) :=
  ⟨h.leafCount, h.grown, h.counts, h.distinct, h.below, h.newest, h.roots, h.linked, h.inner, h.leaves⟩

/-- Settles O27: each merge keeps the forest, and the exit takes the one tree left. -/
theorem mergeRunBuildsTheTree : Obligations.MergeRunBuildsTheTree := by
  intro s hb hh hp hentry
  have hqueue := queue_of_mergeEntry hentry
  have hforest := forest_of_mergeEntry hentry
  obtain ⟨h1, h256, hqn, -⟩ := hentry
  obtain ⟨m, hm⟩ : ∃ m, s.n.toNat = m + 1 := ⟨s.n.toNat - 1, by omega⟩
  obtain ⟨t, ht, u, hu, hu1, ⟨-, hkeep⟩, hsum, rfl⟩ := merge_run m hb hh hp hforest (by rw [hqn, hm])
  refine ⟨mergeExited u, by rw [hm]; exact ht, ?_, BitVec.eq_of_toNat_eq hu1, rfl, rfl,
    hu.mergeExited.treeOk hu1 rfl, ?_, fun i hi => hkeep (BitVec.ofNat 9 i) ?_⟩
  · simp only [mergeExited]
    split <;> simp
  · have hone : rootSum u = (nodeAt u (queueAt u 0)).freq := by
      rw [rootSum, queue, hu1]
      simp
    change (nodeAt u (queueAt u 0)).freq = _
    rw [← hone, hsum, rootSum, hqueue, List.map_map]
    rfl
  · rwa [toNat_ofNat_of_lt (by simp only [maxNodes]; omega)]

end Sys2Proof.Machine
end

section
/-! PROOFS. Two blocks side by side: when two states agree on what an instruction reads, and which writes keep the
agreement. -/

namespace Sys2Proof.Machine

/-! ## Agreement on tables and buffers -/

/-- The same input, of blocks with the same capacities (10_state.md R40). -/
structure SameInput (s s' : State) : Prop where
  params : s'.params = s.params
  inLen : s'.inLen = s.inLen
  bytes : ∀ a < s.inLen.toNat, inByte s' a = inByte s a

/-- The same frequency table. -/
def SameFt (s s' : State) : Prop := ∀ b, readFt s' b = readFt s b

/-- The same nodes below an index. -/
def SameNodes (k : Nat) (s s' : State) : Prop := ∀ x : NodeIx, x.toNat < k → nodeAt s' x = nodeAt s x

/-- The same first entries of the queue. -/
def SameQueue (k : Nat) (s s' : State) : Prop := ∀ j < k, queueAt s' j = queueAt s j

/-- The same bytes of `OUT` below an address. -/
def SameOut (k : Nat) (s s' : State) : Prop := ∀ a < k, outByte s' a = outByte s a

/-- The same codes for the symbols of the leaves below an index. -/
def SameLeafCodes (k : Nat) (s s' : State) : Prop :=
  ∀ x : NodeIx, x.toNat < k → readCode s' (nodeAt s x).sym = readCode s (nodeAt s x).sym

/-- The same codes for the bytes of the input. -/
def SameInputCodes (s s' : State) : Prop :=
  ∀ a < s.inLen.toNat, readCode s' (inByte s a) = readCode s (inByte s a)

/-! ## What reads go through -/

section
variable {s t : State}

theorem inByte_congr (hm : t.inMem = s.inMem) (he : t.epoch = s.epoch) (a : Nat) : inByte t a = inByte s a := by
  rw [inByte, inByte, hm, he]

theorem outByte_congr (hm : t.outMem = s.outMem) (he : t.epoch = s.epoch) (a : Nat) : outByte t a = outByte s a := by
  rw [outByte, outByte, hm, he]

theorem readCode_congr (hm : t.code = s.code) (he : t.epoch = s.epoch) (b : Byte) : readCode t b = readCode s b := by
  rw [readCode, readCode, hm, he]

end

theorem readFt_writeFt (s : State) (b c : Byte) (v : BitVec 32) :
    readFt (writeFt s b v) c = if c = b then v else readFt s c := by
  split
  next h => rw [h, readFt_writeFt_same]
  next h => exact readFt_writeFt_other s v h

theorem readCode_writeCode (s : State) (b c : Byte) (v : CodeEntry) :
    readCode (writeCode s b v) c = if c = b then v else readCode s c := by
  split
  next h => rw [h, readCode_writeCode_same]
  next h => exact readCode_writeCode_other s v h

theorem nodeAt_set_nat (s : State) (j : Nat) (x : NodeIx) (v : Node) :
    nodeAt (s.setNode (sparseSet s.node j v)) x = if x.toNat = j then v else nodeAt s x := by
  simp only [nodeAt, setNode_node, setNode_epoch, sparseGet_set]
  split <;> rfl

/-- A list of equal entries answers at every index it lists. -/
theorem sparseGet_map_const {α : Type} (l : List Nat) (v : α) {i : Nat} (h : i ∈ l) :
    sparseGet (l.map (·, v)) i = some v := by
  induction l with
  | nil => cases h
  | cons k rest ih =>
    rw [List.map_cons, sparseGet]
    split
    · rfl
    next hk => exact ih ((List.mem_cons.1 h).resolve_left (Ne.symm hk))

/-- Every entry of the cleared frequency table reads 0 (40 R111). -/
theorem readFt_of_cleared {s : State} (h : s.ft = clearedFt) (b : Byte) : readFt s b = 0#32 := by
  rw [readFt, h, clearedFt, sparseGet_map_const _ _ (List.mem_range.2 b.isLt)]
  rfl

/-! ## What SEED stores -/

section
variable (ft : Byte → BitVec 32)

theorem nodeAt_seedLeaves_of_lt (l : List Byte) (j : Nat) (s : State) {x : NodeIx} (hx : x.toNat < j) :
    nodeAt (seedLeaves ft l j s) x = nodeAt s x := by
  induction l generalizing j s with
  | nil => rfl
  | cons b rest ih =>
    rw [seedLeaves, ih (j + 1) _ (by omega), nodeAt_congr (setQ_node _ _) (setQ_epoch _ _), nodeAt_set_nat,
      if_neg (by omega)]

theorem queueAt_seedLeaves_of_lt (l : List Byte) (j : Nat) (s : State) {i : Nat} (hi : i < j) :
    queueAt (seedLeaves ft l j s) i = queueAt s i := by
  induction l generalizing j s with
  | nil => rfl
  | cons b rest ih =>
    rw [seedLeaves, ih (j + 1) _ (by omega)]
    exact (queueAt_set (s.setNode _) j i _).trans (if_neg (by omega))

/-- The leaf of a symbol in the list stands at its place, in the node store and in the queue (40 R113). -/
theorem seedLeaves_leaf (l : List Byte) (j : Nat) (s : State) (i : Nat) (hi : i < l.length) :
    (∀ x : NodeIx, x.toNat = j + i → nodeAt (seedLeaves ft l j s) x = leafNode ((ft l[i]).setWidth 40) l[i]) ∧
      queueAt (seedLeaves ft l j s) (j + i) = BitVec.ofNat 9 (j + i) := by
  induction l generalizing j s i with
  | nil => cases hi
  | cons b rest ih =>
    rw [seedLeaves]
    cases i with
    | zero =>
      refine ⟨fun x hx => ?_, ?_⟩
      · rw [nodeAt_seedLeaves_of_lt _ _ _ _ (by omega), nodeAt_congr (setQ_node _ _) (setQ_epoch _ _), nodeAt_set_nat,
          if_pos (by omega)]
        rfl
      · rw [queueAt_seedLeaves_of_lt _ _ _ _ (by omega)]
        exact (queueAt_set (s.setNode _) j _ _).trans (if_pos (by omega))
    | succ i =>
      have hplace : j + 1 + i = j + (i + 1) := by omega
      simpa only [hplace, List.getElem_cons_succ] using ih (j + 1) _ i (by simpa using hi)

end

/-! ## Agreement kept -/

/-- No instruction changes the input. -/
theorem exec_input {i : Instr} {s t : State} (hx : exec i s = .next t) :
    t.inLen = s.inLen ∧ ∀ a, inByte t a = inByte s a := by
  obtain ⟨⟨hin, hlen, -, -, -, hepoch, -⟩, -⟩ := everyInstructionFrame _ _ _ hx
  exact ⟨hlen, inByte_congr hin hepoch⟩

/-- No instruction changes the input, so two blocks that each execute one keep the same input. -/
theorem SameInput.exec {s s' t t' : State} {i i' : Instr} (h : SameInput s s') (hx : exec i s = .next t)
    (hx' : exec i' s' = .next t') : SameInput t t' := by
  obtain ⟨⟨hin, hlen, hpar, -, -, hepoch, -⟩, -⟩ := everyInstructionFrame _ _ _ hx
  obtain ⟨⟨hin', hlen', hpar', -, -, hepoch', -⟩, -⟩ := everyInstructionFrame _ _ _ hx'
  obtain ⟨hp, hl, hb⟩ := h
  refine ⟨by rw [hpar', hp, hpar], by rw [hlen', hl, hlen], fun a ha => ?_⟩
  rw [inByte_congr hin' hepoch', inByte_congr hin hepoch]
  exact hb a (by rwa [← hlen])

/-- The header and a leaf record of the same input are the same. -/
theorem SameInput.leafRecordAt {s s' : State} (h : SameInput s s') {a : Nat} (ha : a + 4 < s.inLen.toNat) :
    leafRecordAt s' a = leafRecordAt s a := by
  obtain ⟨-, -, hb⟩ := h
  rw [Machine.leafRecordAt, Machine.leafRecordAt, hb a (by omega), hb (a + 1) (by omega), hb (a + 2) (by omega),
    hb (a + 3) (by omega), hb (a + 4) ha]

theorem SameInput.headerLength {s s' : State} (h : SameInput s s') (ha : 5 ≤ s.inLen.toNat) :
    headerLength s' = headerLength s := by
  obtain ⟨-, -, hb⟩ := h
  rw [Machine.headerLength, Machine.headerLength, hb 0 (by omega), hb 1 (by omega), hb 2 (by omega), hb 3 (by omega)]

section
variable {s s' : State} {k : Nat}

theorem SameFt.writeFt (h : SameFt s s') (b : Byte) (v : BitVec 32) : SameFt (writeFt s b v) (writeFt s' b v) := by
  intro c
  rw [readFt_writeFt, readFt_writeFt, h c]

theorem SameFt.readFt_eq (h : SameFt s s') : readFt s' = readFt s := funext h

/-- The same byte written at the end of what agrees. -/
theorem SameOut.append (h : SameOut k s s') (b : Byte) :
    SameOut (k + 1) (s.setOutMem (sparseSet s.outMem k b)) (s'.setOutMem (sparseSet s'.outMem k b)) := by
  intro c hc
  rw [outByte_set, outByte_set]
  split
  · rfl
  · exact h c (by omega)

theorem SameOut.congr {t t' : State} (h : SameOut k s s') (hm : t.outMem = s.outMem) (he : t.epoch = s.epoch)
    (hm' : t'.outMem = s'.outMem) (he' : t'.epoch = s'.epoch) : SameOut k t t' := by
  intro a ha
  rw [outByte_congr hm he, outByte_congr hm' he', h a ha]

/-- The same field written at the end of what agrees. -/
theorem SameOut.outWith32 (h : SameOut k s s') (v : BitVec 32) :
    SameOut (k + 4) (outWith32 s k v) (outWith32 s' k v) := by
  have h4 := (((h.append (byteOf32 v 0)).append (byteOf32 v 1)).append (byteOf32 v 2)).append (byteOf32 v 3)
  simpa only [Machine.outWith32, setOutMem_setOutMem, setOutMem_outMem, Nat.add_assoc, Nat.reduceAdd] using h4

/-- The same record written at the end of what agrees. -/
theorem SameOut.outWithLeaf (h : SameOut k s s') (l : LeafRecord) :
    SameOut (k + 5) (outWithLeaf s k l) (outWithLeaf s' k l) :=
  (h.outWith32 l.freq).append l.sym

theorem SameOut.zero (s s' : State) : SameOut 0 s s' := fun a ha => absurd ha (Nat.not_lt_zero a)

end

/-! ## Walks and scans that agree -/

/-- What a tree's pointers lead to is below the node count. -/
def PointersBelow (s : State) : Prop :=
  ∀ x : NodeIx, x.toNat < s.nn.toNat →
    ((nodeAt s x).parent = nil ∨ (nodeAt s x).parent.toNat < s.nn.toNat) ∧
      ((nodeAt s x).left = nil ∨ (nodeAt s x).left.toNat < s.nn.toNat ∧ (nodeAt s x).right.toNat < s.nn.toNat)

/-- The same tree, or forest, with its pointers inside it. -/
structure SameTree (s s' : State) : Prop where
  nn : s'.nn = s.nn
  nodes : SameNodes s.nn.toNat s s'
  closed : PointersBelow s

theorem readNode_eq {s s' : State} {x : NodeIx} (h : nodeAt s' x = nodeAt s x) : readNode s' x = readNode s x := by
  rw [readNode, readNode, h]

/-- In the same tree a walk toward the root gives the same code. -/
theorem SameTree.walkUp {s s' : State} (h : SameTree s s') (fuel : Nat) (x : NodeIx) (hx : x.toNat < s.nn.toNat)
    (bits : BitVec 255) (len : BitVec 8) : walkUp s' fuel x bits len = walkUp s fuel x bits len := by
  induction fuel generalizing x bits len with
  | zero => rw [Machine.walkUp, Machine.walkUp, readNode_eq (h.nodes x hx)]
  | succ fuel ih =>
    rw [Machine.walkUp, Machine.walkUp, readNode_eq (h.nodes x hx)]
    cases hr : readNode s x with
    | error f => rfl
    | ok nd =>
      obtain ⟨-, rfl⟩ := (readNode_eq_ok _ _ _).1 hr
      simp only [ok_bind]
      by_cases hp : (nodeAt s x).parent = nil
      · rw [if_pos hp, if_pos hp]
      · have hlt := (h.closed x hx).1.resolve_left hp
        rw [if_neg hp, if_neg hp, readNode_eq (h.nodes _ hlt)]
        simp only [ih _ hlt]

/-- Scans of queues that agree, but for the free place, end at the same place with queues that agree but for it. -/
theorem insertScan_same {f : Freq} {i m : Nat} {s s' : State} {r r' : Nat × State} (h : insertScan f i s = .ok r)
    (h' : insertScan f i s' = .ok r') (hi : i < m) (hq : ∀ j < m, j ≠ i → queueAt s' j = queueAt s j)
    (hn : ∀ j < i, nodeAt s' (queueAt s j) = nodeAt s (queueAt s j)) :
    r'.1 = r.1 ∧ ∀ j < m, j ≠ r.1 → queueAt r'.2 j = queueAt r.2 j := by
  induction i generalizing s s' with
  | zero =>
    cases h
    cases h'
    exact ⟨rfl, hq⟩
  | succ i ih =>
    simp only [insertScan, bind_eq_ok, readQ_eq_ok, readNode_eq_ok] at h h'
    obtain ⟨_, ⟨-, rfl⟩, _, ⟨-, rfl⟩, h⟩ := h
    obtain ⟨_, ⟨-, rfl⟩, _, ⟨-, rfl⟩, h'⟩ := h'
    have hk : queueAt s' i = queueAt s i := hq i (by omega) (by omega)
    rw [hk, hn i (Nat.lt_succ_self i)] at h'
    split at h
    next hlt =>
      rw [if_pos hlt] at h'
      simp only [bind_eq_ok, writeQ_eq_ok] at h h'
      obtain ⟨_, ⟨-, rfl⟩, h⟩ := h
      obtain ⟨_, ⟨-, rfl⟩, h'⟩ := h'
      refine ih h h' (by omega) (fun j hj hji => ?_) fun j hj => ?_
      · rw [queueAt_set, queueAt_set]
        split
        · rfl
        next hne => exact hq j hj hne
      · rw [queueAt_set, if_neg (by omega)]
        exact hn j (by omega)
    next hlt =>
      rw [if_neg hlt] at h'
      cases h
      cases h'
      exact ⟨rfl, hq⟩

end Sys2Proof.Machine
end

section
/-! PROOFS. Two runs side by side, a phase at a time: what two blocks with the same input agree on in each phase, and
that one step of both keeps the agreement or ends both runs with the same result. -/

namespace Sys2Proof.Machine

/-! ## What agrees in each phase -/

/-- A run in a mode and a phase, with no host move pending. -/
structure Runs (m : Mode) (p : Phase) (s : State) : Prop where
  busy : s.busy = true
  host : s.host = []
  mode : s.mode = m
  phase : s.phase = p

/-- The same original length and leaf count. -/
structure SameHeader (s s' : State) : Prop where
  origLen : s'.origLen = s.origLen
  n : s'.n = s.n

/-- A COMPRESS of the whole input. -/
structure WholeInput (s s' : State) : Prop where
  origLen : s'.origLen = s.origLen
  whole : s.origLen.toNat = s.inLen.toNat

/-- Every input byte is the symbol of a leaf. -/
structure InputHasLeaves (s : State) : Prop where
  grown : s.n.toNat ≤ s.nn.toNat
  leaf : ∀ a < s.inLen.toNat, ∃ x : NodeIx, x.toNat < s.n.toNat ∧ (nodeAt s x).sym = inByte s a

/-- What agrees besides the tree while it is built, by mode. -/
def BuildsFor (s s' : State) : Mode → Prop
  | .compress => WholeInput s s' ∧ InputHasLeaves s ∧ s'.totbits = s.totbits ∧ s.li = 0 ∧ s'.li = 0
  | .decompress => s'.origLen = s.origLen ∧ s'.bitpos = s.bitpos ∧ s.opos = 0 ∧ s'.opos = 0

/-- The same queue, its entries below the node count, and not empty. -/
structure SameQueued (s s' : State) : Prop where
  qn : s'.qn = s.qn
  nonempty : 1 ≤ s.qn.toNat
  same : SameQueue s.qn.toNat s s'
  below : ∀ j < s.qn.toNat, (queueAt s j).toNat < s.nn.toNat

/-- What two runs of a mode with the same input agree on in a phase. -/
def Agree (m : Mode) (s s' : State) : Phase → Prop
  | .idle => False
  | .fclr => m = .compress ∧ WholeInput s s'
  | .fcnt => m = .compress ∧ WholeInput s s' ∧ SameFt s s' ∧ s'.ipos = s.ipos ∧
      (∀ b, (readFt s b).toNat ≤ s.ipos.toNat) ∧ ∀ a < s.ipos.toNat, readFt s (inByte s a) ≠ 0
  | .seed => m = .compress ∧ WholeInput s s' ∧ SameFt s s' ∧ ∀ a < s.inLen.toNat, readFt s (inByte s a) ≠ 0
  | .merge => s'.n = s.n ∧ SameTree s s' ∧ SameQueued s s' ∧ BuildsFor s s' m
  | .assign => s'.n = s.n ∧ SameTree s s' ∧ WholeInput s s' ∧ InputHasLeaves s ∧ s'.totbits = s.totbits ∧
      s'.li = s.li ∧ SameLeafCodes s.li.toNat s s'
  | .serh => s'.n = s.n ∧ SameNodes s.n.toNat s s' ∧ WholeInput s s' ∧ s'.totbits = s.totbits ∧ SameInputCodes s s'
  | .serl => s'.n = s.n ∧ SameNodes s.n.toNat s s' ∧ WholeInput s s' ∧ SameInputCodes s s' ∧ s'.li = s.li ∧
      s'.opos = s.opos ∧ SameOut s.opos.toNat s s'
  | .pack => s'.n = s.n ∧ WholeInput s s' ∧ SameInputCodes s s' ∧ s'.ipos = s.ipos ∧ s'.acc = s.acc ∧
      s'.accn = s.accn ∧ s'.opos = s.opos ∧ SameOut s.opos.toNat s s'
  | .flush => SameHeader s s' ∧ s'.acc = s.acc ∧ s'.accn = s.accn ∧ s'.opos = s.opos ∧ SameOut s.opos.toNat s s'
  | .parse => m = .decompress
  | .loadl => m = .decompress ∧ SameHeader s s' ∧ 1 ≤ s.n.toNat ∧ s'.li = s.li ∧ SameNodes s.li.toNat s s' ∧
      (∀ x : NodeIx, x.toNat < s.li.toNat → (nodeAt s x).parent = nil ∧ (nodeAt s x).left = nil) ∧
      ∀ j < s.li.toNat, queueAt s j = BitVec.ofNat 9 j ∧ queueAt s' j = BitVec.ofNat 9 j
  | .unpk => SameHeader s s' ∧ SameTree s s' ∧ s'.cur = s.cur ∧ s'.root = s.root ∧ s.cur.toNat < s.nn.toNat ∧
      s.root.toNat < s.nn.toNat ∧ s'.bitpos = s.bitpos ∧ s'.opos = s.opos ∧ SameOut s.opos.toNat s s'

/-- Two ended runs with the same result. -/
def SameResult (t t' : State) : Prop :=
  (Completed t ∧ t.host = []) ∧ (Completed t' ∧ t'.host = []) ∧ t'.err = t.err ∧ t'.outLen = t.outLen ∧
    SameOut t.outLen.toNat t t' ∧ (t.err = .ok → SameHeader t t')

/-- Two runs that have ended alike, or go on in agreement. -/
def Alike (t t' : State) : Prop := SameResult t t' ∨ ∃ m p, Runs m p t ∧ Runs m p t' ∧ Agree m t t' p

theorem Alike.goOn {t t' : State} {m : Mode} {p : Phase} (r : Runs m p t) (r' : Runs m p t') (h : Agree m t t' p) :
    Alike t t' :=
  .inr ⟨m, p, r, r', h⟩

/-- Two completions with the same code and length, where the bytes below that length agree. -/
theorem Alike.complete {s s' : State} {e : ErrCode} {k : Addr} (hh : s.host = []) (hh' : s'.host = [])
    (hout : SameOut k.toNat s s') (hhead : e = .ok → SameHeader s s') :
    Alike (complete e k s) (complete e k s') := by
  refine .inl ⟨⟨⟨rfl, rfl, rfl⟩, hh⟩, ⟨⟨rfl, rfl, rfl⟩, hh'⟩, rfl, rfl, fun a ha => hout a ?_,
    fun he => ⟨(hhead he).origLen, (hhead he).n⟩⟩
  rw [complete_outLen] at ha
  split at ha
  · exact ha
  · simp at ha

/-- Two failures with the same code. -/
theorem Alike.fail {s s' : State} {e : ErrCode} (hh : s.host = []) (hh' : s'.host = []) (he : e ≠ .ok) :
    Alike (Machine.complete e 0 s) (Machine.complete e 0 s') :=
  .complete hh hh' (.zero s s') fun h => absurd h he

theorem Runs.next {s t : State} {m : Mode} {p q : Phase} (r : Runs m p s) (hb : t.busy = s.busy) (hh : t.host = s.host)
    (hm : t.mode = s.mode) (hp : t.phase = q) : Runs m q t := by
  obtain ⟨hb', hh', hm', -⟩ := r
  exact ⟨hb.trans hb', hh.trans hh', hm.trans hm', hp⟩

/-- Agreement on the length of a whole input is kept while neither the input nor `ORIG_LEN` changes. -/
theorem WholeInput.congr {s s' t t' : State} (h : WholeInput s s') (ho : t.origLen = s.origLen)
    (ho' : t'.origLen = s'.origLen) (hl : t.inLen = s.inLen) : WholeInput t t' := by
  obtain ⟨heq, hlen⟩ := h
  exact ⟨by rw [ho, ho', heq], by rw [ho, hl, hlen]⟩

/-! ## COMPRESS -/

section
variable {s s' t t' : State} {m : Mode}

theorem alike_fclr (r : Runs m .fclr s) (r' : Runs m .fclr s') (h : Agree m s s' .fclr) (hx : exec .fclr s = .next t)
    (hx' : exec .fclr s' = .next t') : Alike t t' := by
  obtain ⟨hc, hw⟩ := h
  obtain rfl := (exec_fclr_eq_next s t).1 hx
  obtain rfl := (exec_fclr_eq_next s' t').1 hx'
  refine .goOn (p := .fcnt) (r.next rfl rfl rfl rfl) (r'.next rfl rfl rfl rfl)
    ⟨hc, ⟨hw.origLen, hw.whole⟩, fun b => ?_, rfl, fun b => ?_, fun a ha => ?_⟩
  · rw [readFt_of_cleared rfl, readFt_of_cleared rfl]
  · rw [readFt_of_cleared rfl]
    exact Nat.zero_le _
  · exact absurd ha (by simp)

/-- Counting a byte keeps every count within the number of bytes read, and makes the byte's own positive. -/
theorem readFt_counted {b : Byte} {i : Nat} (hle : ∀ c, (readFt s c).toNat ≤ i) (hi : i + 1 < 2 ^ 32) (c : Byte) :
    (readFt (writeFt s b (readFt s b + 1)) c).toNat ≤ i + 1 ∧
      (c = b ∨ readFt s c ≠ 0 → readFt (writeFt s b (readFt s b + 1)) c ≠ 0) := by
  have hb := hle b
  have hsucc : (readFt s b + 1).toNat = (readFt s b).toNat + 1 := by
    rw [BitVec.toNat_add]
    exact Nat.mod_eq_of_lt (by simpa using by omega)
  rw [readFt_writeFt]
  split
  · refine ⟨by omega, fun _ e => ?_⟩
    rw [e] at hsucc
    simp at hsucc
  next hne =>
    have hc := hle c
    exact ⟨by omega, fun hor => hor.resolve_left hne⟩

theorem alike_fcnt (hin : SameInput s s') (r : Runs m .fcnt s) (r' : Runs m .fcnt s') (h : Agree m s s' .fcnt)
    (hx : exec .fcnt s = .next t) (hx' : exec .fcnt s' = .next t') : Alike t t' := by
  obtain ⟨hc, hw, hft, hipos, hle, hpos⟩ := h
  obtain ⟨hol, hlen⟩ := hw
  rcases (exec_fcnt_eq_next s t).1 hx with ⟨hlt, hil, -, rfl⟩ | ⟨hge, rfl⟩
  · obtain ⟨-, -, -, rfl⟩ := ((exec_fcnt_eq_next s' t').1 hx').resolve_right (by rw [hipos, hol]; omega)
    have hbyte : inByte s' s'.ipos.toNat = inByte s s.ipos.toNat := by
      rw [hipos]
      exact hin.bytes _ hil
    have hsmall := s.origLen.isLt
    have hnext : (s.ipos + 1).toNat = s.ipos.toNat + 1 := by bv_omega
    have hcount := readFt_counted (b := inByte s s.ipos.toNat) hle (by omega)
    rw [hbyte, hft]
    refine .goOn (p := .fcnt) (r.next rfl rfl rfl r.phase) (r'.next rfl rfl rfl r'.phase)
      ⟨hc, ⟨hol, hlen⟩, hft.writeFt _ _, by rw [hipos], fun b => ?_, fun a ha => ?_⟩
    · rw [hnext]
      exact (hcount b).1
    · rw [hnext] at ha
      refine (hcount _).2 ?_
      rcases Nat.lt_succ_iff_lt_or_eq.1 ha with ha | rfl
      · exact .inr (hpos a ha)
      · exact .inl rfl
  · obtain ⟨-, rfl⟩ := ((exec_fcnt_eq_next s' t').1 hx').resolve_left (by rw [hipos, hol]; omega)
    refine .goOn (p := .seed) (r.next rfl rfl rfl rfl) (r'.next rfl rfl rfl rfl) ⟨hc, ⟨hol, hlen⟩, hft, fun a ha => ?_⟩
    exact hpos a (by rw [hlen] at hge; exact ha.trans_le hge)

/-- Leaves queued in index order, the same in both blocks, are a queue and a forest in agreement. -/
theorem sameForest_of_leaves (hnn : t'.nn = t.nn) (hqn : t.qn = t.nn) (hqn' : t'.qn = t'.nn) (hone : 1 ≤ t.nn.toNat)
    (hnodes : SameNodes t.nn.toNat t t')
    (hleaf : ∀ x : NodeIx, x.toNat < t.nn.toNat → (nodeAt t x).parent = nil ∧ (nodeAt t x).left = nil)
    (hqueue : ∀ j < t.nn.toNat, queueAt t j = BitVec.ofNat 9 j ∧ queueAt t' j = BitVec.ofNat 9 j) :
    SameTree t t' ∧ SameQueued t t' := by
  refine ⟨⟨hnn, hnodes, fun x hx => ⟨.inl (hleaf x hx).1, .inl (hleaf x hx).2⟩⟩, by rw [hqn', hqn, hnn], by rwa [hqn],
    fun j hj => ?_, fun j hj => ?_⟩
  · rw [hqn] at hj
    rw [(hqueue j hj).1, (hqueue j hj).2]
  · rw [hqn] at hj
    have hlt := t.nn.isLt
    rw [(hqueue j hj).1, toNat_ofNat_of_lt (by simp only [maxNodes]; omega)]
    exact hj

/-- What SEED leaves, for the symbols of a seed order (40 R113, R116). -/
structure Seeded (ft : Byte → BitVec 32) (order : List Byte) (t : State) : Prop where
  n : t.n = t.nn
  nn : t.nn.toNat = order.length
  qn : t.qn = t.nn
  totbits : t.totbits = 0
  li : t.li = 0
  phase : t.phase = if order.length = 0 then .serh else .merge
  leaf : ∀ (x : NodeIx) (hx : x.toNat < order.length),
    nodeAt t x = leafNode ((ft order[x.toNat]).setWidth 40) order[x.toNat]
  queued : ∀ j < order.length, queueAt t j = BitVec.ofNat 9 j

theorem seeded_of_exec (hx : exec .seed s = .next t) : Seeded (readFt s) (seedOrder (readFt s)) t := by
  have hle := length_seedOrder_le (readFt s)
  obtain rfl := (exec_seed_eq_next s t).1 hx
  generalize seedOrder (readFt s) = order at hle
  have hleaf := seedLeaves_leaf (readFt s) order 0 s
  simp only [Nat.zero_add] at hleaf
  refine ⟨rfl, ?_, rfl, rfl, rfl, rfl, fun x hx => ?_, fun j hj => ?_⟩
  · exact toNat_ofNat_of_lt (by simp only [alpha, maxNodes] at hle ⊢; omega)
  · exact (nodeAt_congr rfl rfl x).trans ((hleaf _ hx).1 x rfl)
  · exact (queueAt_congr rfl rfl j).trans (hleaf j hj).2

/-- A listed symbol has a leaf. -/
theorem Seeded.exists_leaf {ft : Byte → BitVec 32} {order : List Byte} (h : Seeded ft order t) {b : Byte}
    (hb : b ∈ order) : ∃ x : NodeIx, x.toNat < t.n.toNat ∧ (nodeAt t x).sym = b := by
  obtain ⟨i, hi, rfl⟩ := List.getElem_of_mem hb
  have hlt := t.nn.isLt
  have hnn := h.nn
  have hnat : (BitVec.ofNat 9 i).toNat = i := toNat_ofNat_of_lt (by simp only [maxNodes]; omega)
  refine ⟨BitVec.ofNat 9 i, by rw [hnat, h.n, hnn]; exact hi, ?_⟩
  rw [h.leaf _ (by rw [hnat]; exact hi)]
  simp only [hnat, leafNode]

theorem alike_seed (r : Runs m .seed s) (r' : Runs m .seed s') (h : Agree m s s' .seed)
    (hx : exec .seed s = .next t) (hx' : exec .seed s' = .next t') : Alike t t' := by
  obtain ⟨rfl, hw, hft, hpos⟩ := h
  have hf := exec_seed_frame hx
  have hf' := exec_seed_frame hx'
  obtain ⟨hlen, hbyte⟩ := exec_input hx
  have hs := seeded_of_exec hx
  have hs' := seeded_of_exec hx'
  rw [hft.readFt_eq] at hs'
  have hmem : ∀ a < t.inLen.toNat, inByte t a ∈ seedOrder (readFt s) := fun a ha => by
    rw [mem_seedOrder, hbyte, BitVec.lt_def]
    have hne := hpos a (by rwa [← hlen])
    exact Nat.pos_of_ne_zero fun e => hne (BitVec.eq_of_toNat_eq e)
  generalize seedOrder (readFt s) = order at hs hs' hmem
  have hnn : t'.nn = t.nn := BitVec.eq_of_toNat_eq (hs'.nn.trans hs.nn.symm)
  have hn : t'.n = t.n := by rw [hs'.n, hs.n, hnn]
  have htot : t'.totbits = t.totbits := hs'.totbits.trans hs.totbits.symm
  have hw' : WholeInput t t' := hw.congr (by rw [hf]) (by rw [hf']) hlen
  have hph := hs.phase
  have hph' := hs'.phase
  by_cases hzero : order.length = 0
  · rw [if_pos hzero] at hph hph'
    refine .goOn (p := .serh) (r.next (by rw [hf]) (by rw [hf]) (by rw [hf]) hph)
      (r'.next (by rw [hf']) (by rw [hf']) (by rw [hf']) hph') ⟨hn, fun x hx => ?_, hw', htot, fun a ha => ?_⟩
    · rw [hs.n, hs.nn, hzero] at hx
      exact absurd hx (Nat.not_lt_zero _)
    · exact absurd (hmem a ha) (by simp [List.length_eq_zero_iff.1 hzero])
  · rw [if_neg hzero] at hph hph'
    have hnodes : SameNodes t.nn.toNat t t' := fun x hx => by
      rw [hs.nn] at hx
      rw [hs.leaf x hx, hs'.leaf x hx]
    obtain ⟨htree, hqueued⟩ := sameForest_of_leaves hnn hs.qn hs'.qn (by rw [hs.nn]; omega) hnodes
      (fun x hx => by rw [hs.leaf x (hs.nn ▸ hx)]; exact ⟨rfl, rfl⟩)
      (fun j hj => ⟨hs.queued j (hs.nn ▸ hj), hs'.queued j (hs.nn ▸ hj)⟩)
    exact .goOn (p := .merge) (r.next (by rw [hf]) (by rw [hf]) (by rw [hf]) hph)
      (r'.next (by rw [hf']) (by rw [hf']) (by rw [hf']) hph')
      ⟨hn, htree, hqueued, hw', ⟨by rw [hs.n], fun a ha => hs.exists_leaf (hmem a ha)⟩, htot, hs.li, hs'.li⟩

/-! ## MERGE -/

/-- Joining the same two nodes of the same tree gives the same nodes, the new one among them. -/
theorem SameTree.nodeAt_joined (h : SameTree s s') {a b x : NodeIx} (ha : a.toNat < s.nn.toNat)
    (hb : b.toNat < s.nn.toNat) (hx : x = s.nn ∨ x.toNat < s.nn.toNat) :
    nodeAt (joined s' a b) x = nodeAt (joined s a b) x := by
  rw [Machine.nodeAt_joined, Machine.nodeAt_joined, joinedFreq, joinedFreq, h.nn, h.nodes a ha, h.nodes b hb]
  by_cases hxn : x = s.nn
  · simp only [hxn, if_true]
  · simp only [hxn, if_false, h.nodes x (hx.resolve_left hxn)]

/-- The two entries taken from the same queue are the same, and below the node count. -/
theorem SameQueued.entries (h : SameQueued s s') (hq : 2 ≤ s.qn.toNat) :
    (tailEntry s' = tailEntry s ∧ secondEntry s' = secondEntry s) ∧
      (tailEntry s).toNat < s.nn.toNat ∧ (secondEntry s).toNat < s.nn.toNat := by
  obtain ⟨hqn, -, hqueue, hbelow⟩ := h
  refine ⟨⟨?_, ?_⟩, hbelow _ (by omega), hbelow _ (by omega)⟩
  · rw [tailEntry, tailEntry, hqn]
    exact hqueue _ (by omega)
  · rw [secondEntry, secondEntry, hqn]
    exact hqueue _ (by omega)

/-- A merge of the same queue in the same tree leaves the same tree, its pointers inside it. -/
theorem SameTree.mergeOnce (h : SameTree s s') (hqueued : SameQueued s s') (hq : 2 ≤ s.qn.toNat)
    (ht : mergeOnce s = .ok t) (ht' : mergeOnce s' = .ok t') : SameTree t t' := by
  obtain ⟨⟨hae, hbe⟩, ha, hb⟩ := hqueued.entries hq
  have hnn := h.nn
  have hsucc := nn_mergeOnce ht
  have hsucc' := nn_mergeOnce ht'
  have hold : ∀ x : NodeIx, x.toNat < t.nn.toNat → x = s.nn ∨ x.toNat < s.nn.toNat := fun x hx => by
    by_cases hxn : x = s.nn
    · exact .inl hxn
    · have : x.toNat ≠ s.nn.toNat := fun e => hxn (BitVec.eq_of_toNat_eq e)
      exact .inr (by omega)
  refine ⟨BitVec.eq_of_toNat_eq (by rw [hsucc, hsucc', hnn]), fun x hx => ?_, fun x hx => ?_⟩
  · rw [nodeAt_mergeOnce ht, nodeAt_mergeOnce ht', hae, hbe]
    exact h.nodeAt_joined ha hb (hold x hx)
  · rw [nodeAt_mergeOnce ht, Machine.nodeAt_joined, hsucc]
    by_cases hxn : x = s.nn
    · simp only [hxn, if_true]
      exact ⟨by split <;> simp, .inr ⟨by omega, by omega⟩⟩
    · obtain ⟨hp, hl⟩ := h.closed x ((hold x hx).resolve_left hxn)
      simp only [hxn, if_false]
      refine ⟨?_, hl.imp_right fun ⟨hl, hr⟩ => ⟨by omega, by omega⟩⟩
      split
      · exact .inr (Nat.lt_succ_self _)
      · exact hp.imp_right fun hp => by omega

/-- A merge of the same queue in the same tree leaves the same queue, its entries in the tree. -/
theorem SameQueued.mergeOnce (h : SameQueued s s') (htree : SameTree s s') (hq : 2 ≤ s.qn.toNat)
    (ht : mergeOnce s = .ok t) (ht' : mergeOnce s' = .ok t') : SameQueued t t' := by
  obtain ⟨⟨hae, hbe⟩, ha, hb⟩ := h.entries hq
  obtain ⟨hqn, -, hqueue, hbelow⟩ := h
  have htq := qn_mergeOnce ht hq
  have htq' := qn_mergeOnce ht' (by rw [hqn]; exact hq)
  have hsucc := nn_mergeOnce ht
  refine ⟨BitVec.eq_of_toNat_eq (by rw [htq, htq', hqn]), by omega, fun j hj => ?_, fun j hj => ?_⟩
  · obtain ⟨-, r, hr, -, rfl⟩ := (mergeOnce_eq_ok s t).1 ht
    obtain ⟨-, r', hr', -, rfl⟩ := (mergeOnce_eq_ok s' t').1 ht'
    have hfe : joinedFreq s' (tailEntry s) (secondEntry s) = joinedFreq s (tailEntry s) (secondEntry s) := by
      rw [joinedFreq, joinedFreq, htree.nodes _ ha, htree.nodes _ hb]
    have hstart : (s.qn - 2).toNat = s.qn.toNat - 2 := by bv_omega
    rw [mergeScan, hstart] at hr
    rw [mergeScan, hqn, hstart, hae, hbe, hfe] at hr'
    obtain ⟨hplace, hsame⟩ := insertScan_same hr hr' (m := s.qn.toNat - 1) (by omega)
      (fun i hi _ => by rw [queueAt_joined, queueAt_joined, hqueue i (by omega)])
      (fun i hi => by
        rw [queueAt_joined]
        exact htree.nodeAt_joined ha hb (.inr (hbelow i (by omega))))
    rw [queueAt_enqueued, queueAt_enqueued, hplace, htree.nn]
    split
    · rfl
    next hne => exact hsame j (by omega) hne
  · rcases mem_queue_mergeOnce ht hq (mem_queue.2 ⟨j, hj, rfl⟩) with e | hin
    · rw [e]
      omega
    · obtain ⟨i, hi, e⟩ := mem_queue.1 hin
      have := hbelow i hi
      rw [← e]
      omega

/-- A merge leaves every leaf's symbol. -/
theorem InputHasLeaves.mergeOnce (h : InputHasLeaves s) (ht : mergeOnce s = .ok t) : InputHasLeaves t := by
  obtain ⟨hgrown, hleaf⟩ := h
  have hn : t.n = s.n := by rw [mergeOnce_frame ht]
  have hlen : t.inLen = s.inLen := by rw [mergeOnce_frame ht]
  have hsucc := nn_mergeOnce ht
  refine ⟨by rw [hn]; omega, fun a ha => ?_⟩
  obtain ⟨x, hx, hsym⟩ := hleaf a (by rwa [← hlen])
  have hxn : x ≠ s.nn := by
    rintro rfl
    omega
  refine ⟨x, by rwa [hn], ?_⟩
  have hbyte : inByte t a = inByte s a := inByte_congr (by rw [mergeOnce_frame ht]) (by rw [mergeOnce_frame ht]) a
  rw [nodeAt_mergeOnce ht, Machine.nodeAt_joined, hbyte]
  simp only [hxn, if_false]
  exact hsym

/-- What agrees besides the tree is no field a merge writes. -/
theorem BuildsFor.mergeOnce (h : BuildsFor s s' m) (ht : mergeOnce s = .ok t) (ht' : mergeOnce s' = .ok t') :
    BuildsFor t t' m := by
  have hf := mergeOnce_frame ht
  have hf' := mergeOnce_frame ht'
  cases m with
  | compress =>
    obtain ⟨hw, hl, htot, hli, hli'⟩ := h
    exact ⟨hw.congr (by rw [hf]) (by rw [hf']) (by rw [hf]), hl.mergeOnce ht, by rw [hf, hf']; exact htot,
      by rw [hf]; exact hli, by rw [hf']; exact hli'⟩
  | decompress =>
    obtain ⟨hol, hbit, hopos, hopos'⟩ := h
    exact ⟨by rw [hf, hf']; exact hol, by rw [hf, hf']; exact hbit, by rw [hf]; exact hopos, by rw [hf']; exact hopos'⟩

theorem alike_merge (r : Runs m .merge s) (r' : Runs m .merge s') (h : Agree m s s' .merge)
    (hx : exec .merge s = .next t) (hx' : exec .merge s' = .next t') : Alike t t' := by
  obtain ⟨hn, htree, hqueued, hbuild⟩ := h
  have hqn := hqueued.qn
  rcases (exec_merge_eq_next s t).1 hx with ⟨hq, ht⟩ | ⟨hq, rfl⟩
  · obtain ⟨-, ht'⟩ := ((exec_merge_eq_next s' t').1 hx').resolve_right (by rw [hqn]; omega)
    have hf := mergeOnce_frame ht
    have hf' := mergeOnce_frame ht'
    exact .goOn (p := .merge) (r.next (by rw [hf]) (by rw [hf]) (by rw [hf]) (by rw [hf]; exact r.phase))
      (r'.next (by rw [hf']) (by rw [hf']) (by rw [hf']) (by rw [hf']; exact r'.phase))
      ⟨by rw [hf, hf']; exact hn, htree.mergeOnce hqueued hq ht ht', hqueued.mergeOnce htree hq ht ht',
        hbuild.mergeOnce ht ht'⟩
  · obtain ⟨-, rfl⟩ := ((exec_merge_eq_next s' t').1 hx').resolve_left (by rw [hqn]; omega)
    have hm := r.mode
    have hm' := r'.mode
    obtain ⟨-, hone, hqueue, hbelow⟩ := hqueued
    cases m with
    | compress =>
      obtain ⟨hw, hl, htot, hli, hli'⟩ := hbuild
      refine .goOn (p := .assign) (r.next rfl rfl rfl (if_pos hm)) (r'.next rfl rfl rfl (if_pos hm'))
        ⟨hn, ⟨htree.nn, htree.nodes, htree.closed⟩, ⟨hw.origLen, hw.whole⟩, ⟨hl.grown, hl.leaf⟩, htot,
          hli'.trans hli.symm, fun x hx => ?_⟩
      change x.toNat < s.li.toNat at hx
      rw [hli] at hx
      exact absurd hx (Nat.not_lt_zero _)
    | decompress =>
      obtain ⟨hol, hbit, hopos, hopos'⟩ := hbuild
      have hroot : queueAt s' 0 = queueAt s 0 := hqueue 0 (by omega)
      have hlt : (queueAt s 0).toNat < s.nn.toNat := hbelow 0 (by omega)
      refine .goOn (p := .unpk) (r.next rfl rfl rfl (if_neg (by simp [hm])))
        (r'.next rfl rfl rfl (if_neg (by simp [hm'])))
        ⟨⟨hol, hn⟩, ⟨htree.nn, htree.nodes, htree.closed⟩, hroot, hroot, hlt, hlt, hbit, hopos'.trans hopos.symm, ?_⟩
      change SameOut s.opos.toNat _ _
      rw [hopos]
      exact .zero _ _

end

end Sys2Proof.Machine
end

section
/-! PROOFS. Two runs side by side, continued: ASSIGN to FLUSH of a COMPRESS; PARSE, LOADL and UNPK of a DECOMPRESS. -/

namespace Sys2Proof.Machine

section
variable {s s' t t' : State} {m : Mode}

/-! ## ASSIGN -/

/-- The same code written for the same leaf. -/
theorem SameLeafCodes.assigned {c : BitVec 255 × BitVec 8} (h : SameLeafCodes s.li.toNat s s')
    (hleaf : nodeAt s' s'.li = nodeAt s s.li) (hli : (s.li + 1).toNat = s.li.toNat + 1) :
    SameLeafCodes (assigned s c).li.toNat (assigned s c) (assigned s' c) := by
  have hread : ∀ (u : State) (b : Byte),
      readCode (Machine.assigned u c) b = if b = (nodeAt u u.li).sym then ⟨c.1, c.2⟩ else readCode u b := fun u b =>
    readCode_writeCode u _ b _
  intro x hx
  change x.toNat < (s.li + 1).toNat at hx
  have hsym : nodeAt (Machine.assigned s c) x = nodeAt s x := nodeAt_congr rfl rfl x
  rw [hread, hread, hleaf, hsym]
  split
  · rfl
  next hne =>
    refine h x ?_
    have : x.toNat ≠ s.li.toNat := fun e => hne (by rw [BitVec.eq_of_toNat_eq e])
    omega

theorem alike_assign (r : Runs m .assign s) (r' : Runs m .assign s')
    (h : Agree m s s' .assign) (hx : exec .assign s = .next t) (hx' : exec .assign s' = .next t') : Alike t t' := by
  obtain ⟨hn, htree, hw, hleaves, htot, hli, hcodes⟩ := h
  have hgrown := hleaves.grown
  rcases (exec_assign_eq_next s t).1 hx with ⟨hlt, c, hc, -, rfl⟩ | ⟨hge, rfl⟩
  · obtain ⟨-, c', hc', -, rfl⟩ := ((exec_assign_eq_next s' t').1 hx').resolve_right (by
      rw [hli, hn]
      exact fun hge => absurd hlt (BitVec.not_lt.2 hge.1))
    have hltn : s.li.toNat < s.n.toNat := BitVec.lt_def.1 hlt
    have hlow : s.li.toNat < s.nn.toNat := by omega
    rw [hli, htree.walkUp _ _ hlow, hc] at hc'
    cases hc'
    have hleaf : nodeAt s' s'.li = nodeAt s s.li := by rw [hli, htree.nodes _ hlow]
    have hsucc : (s.li + 1).toNat = s.li.toNat + 1 := by bv_omega
    refine .goOn (p := .assign) (r.next rfl rfl rfl r.phase) (r'.next rfl rfl rfl r'.phase)
      ⟨hn, ⟨htree.nn, htree.nodes, htree.closed⟩, ⟨hw.origLen, hw.whole⟩, ⟨hleaves.grown, hleaves.leaf⟩, ?_, ?_,
        hcodes.assigned hleaf hsucc⟩
    · change s'.totbits + (nodeAt s' s'.li).freq * _ = s.totbits + (nodeAt s s.li).freq * _
      rw [htot, hleaf]
    · change s'.li + 1 = s.li + 1
      rw [hli]
  · obtain ⟨-, rfl⟩ := ((exec_assign_eq_next s' t').1 hx').resolve_left (by
      rw [hli, hn]
      exact fun hlt => absurd hlt.1 (BitVec.not_lt.2 hge))
    have hle : s.n.toNat ≤ s.li.toNat := BitVec.le_def.1 hge
    refine .goOn (p := .serh) (r.next rfl rfl rfl rfl) (r'.next rfl rfl rfl rfl)
      ⟨hn, fun x hx => htree.nodes x (lt_of_lt_of_le hx hgrown), ⟨hw.origLen, hw.whole⟩, htot, fun a ha => ?_⟩
    obtain ⟨x, hx, hsym⟩ := hleaves.leaf a ha
    have hcode := hcodes x (by omega)
    rwa [hsym] at hcode

/-! ## SERH, SERL -/

/-- Codes agree for the same input while no code is written. -/
theorem SameInputCodes.congr (h : SameInputCodes s s') {i i' : Instr} (hx : exec i s = .next t)
    (hx' : exec i' s' = .next t') (hi : i ≠ .assign) (hi' : i' ≠ .assign) : SameInputCodes t t' := by
  obtain ⟨hlen, hbyte⟩ := exec_input hx
  obtain ⟨⟨-, -, -, -, -, he, -⟩, -, -, -, hcode⟩ := everyInstructionFrame _ _ _ hx
  obtain ⟨⟨-, -, -, -, -, he', -⟩, -, -, -, hcode'⟩ := everyInstructionFrame _ _ _ hx'
  intro a ha
  rw [hbyte, readCode_congr (hcode hi) he, readCode_congr (hcode' hi') he']
  exact h a (by rwa [← hlen])

/-- The same header written at the front. -/
theorem sameOut_outWithHeader (ho : s'.origLen = s.origLen) (hn : s'.n = s.n) :
    SameOut 5 (outWithHeader s) (outWithHeader s') := by
  rw [outWithHeader, outWithHeader, ho, hn]
  exact ((SameOut.zero s s').outWith32 s.origLen).append (leafCountByte s.n)

theorem alike_serh (hin : SameInput s s') (r : Runs m .serh s) (r' : Runs m .serh s') (h : Agree m s s' .serh)
    (hx : exec .serh s = .next t) (hx' : exec .serh s' = .next t') : Alike t t' := by
  obtain ⟨hn, hnodes, hw, htot, hcodes⟩ := h
  have hneed : need s' = need s := by rw [need, need, hn, htot]
  have hpar := hin.params
  have hcodes' := hcodes.congr hx hx' (by simp) (by simp)
  rcases (exec_serh_eq_next s t).1 hx with ⟨hlt, rfl⟩ | ⟨hle, -, rfl⟩
  · obtain ⟨-, rfl⟩ := ((exec_serh_eq_next s' t').1 hx').resolve_right (by rw [hpar, hneed]; omega)
    exact .fail r.host r'.host (by simp)
  · obtain ⟨-, -, rfl⟩ := ((exec_serh_eq_next s' t').1 hx').resolve_left (by rw [hpar, hneed]; omega)
    refine .goOn (p := .serl) (r.next rfl rfl rfl rfl) (r'.next rfl rfl rfl rfl)
      ⟨hn, hnodes, ⟨hw.origLen, hw.whole⟩, hcodes', rfl, rfl, ?_⟩
    exact (sameOut_outWithHeader hw.origLen hn).congr rfl rfl rfl rfl

theorem alike_serl (r : Runs m .serl s) (r' : Runs m .serl s') (h : Agree m s s' .serl)
    (hx : exec .serl s = .next t) (hx' : exec .serl s' = .next t') : Alike t t' := by
  obtain ⟨hn, hnodes, hw, hcodes, hli, hopos, hout⟩ := h
  have hcodes' := hcodes.congr hx hx' (by simp) (by simp)
  rcases (exec_serl_eq_next s t).1 hx with ⟨hlt, -, hroom, rfl⟩ | ⟨hge, rfl⟩
  · obtain ⟨-, -, -, rfl⟩ := ((exec_serl_eq_next s' t').1 hx').resolve_right (by
      rw [hli, hn]
      exact fun hge => absurd hlt (BitVec.not_lt.2 hge.1))
    have hleaf : nodeAt s' s'.li = nodeAt s s.li := by rw [hli, hnodes _ (BitVec.lt_def.1 hlt)]
    have hcap := s.params.outCap.isLt
    have hnext : (s.opos + 5).toNat = s.opos.toNat + 5 := by bv_omega
    refine .goOn (p := .serl) (r.next rfl rfl rfl r.phase) (r'.next rfl rfl rfl r'.phase)
      ⟨hn, hnodes, ⟨hw.origLen, hw.whole⟩, hcodes', ?_, ?_, ?_⟩
    · change s'.li + 1 = s.li + 1
      rw [hli]
    · change s'.opos + 5 = s.opos + 5
      rw [hopos]
    · change SameOut (s.opos + 5).toNat _ _
      rw [hnext, hleaf, hopos]
      exact (hout.outWithLeaf _).congr rfl rfl rfl rfl
  · obtain ⟨-, rfl⟩ := ((exec_serl_eq_next s' t').1 hx').resolve_left (by
      rw [hli, hn]
      exact fun hlt => absurd hlt.1 (BitVec.not_lt.2 hge))
    exact .goOn (p := .pack) (r.next rfl rfl rfl rfl) (r'.next rfl rfl rfl rfl)
      ⟨hn, ⟨hw.origLen, hw.whole⟩, hcodes', rfl, rfl, rfl, hopos, hout⟩

/-! ## PACK, FLUSH -/

/-- The same accumulator and the same bytes written so far. -/
def SameStream (s s' : State) : Prop :=
  s'.acc = s.acc ∧ s'.accn = s.accn ∧ s'.opos = s.opos ∧ SameOut s.opos.toNat s s'

/-- The same byte appended to the same bytes. -/
theorem sameOut_outAppended (hopos : s'.opos = s.opos) (hout : SameOut s.opos.toNat s s')
    (hroom : s.opos.toNat < s.params.outCap.toNat) (b : Byte) :
    SameOut (s.opos + 1).toNat (outAppended s b) (outAppended s' b) := by
  have hcap := s.params.outCap.isLt
  have hnext : (s.opos + 1).toNat = s.opos.toNat + 1 := by bv_omega
  rw [hnext, outAppended, outAppended, hopos]
  exact (hout.append b).congr rfl rfl rfl rfl

/-- The same bit appended to the same stream. -/
theorem SameStream.packBit {v : Bool} (h : SameStream s s') (ht : packBit v s = .ok t) (ht' : packBit v s' = .ok t') :
    SameStream t t' := by
  obtain ⟨hacc, haccn, hopos, hout⟩ := h
  simp only [Machine.packBit] at ht ht'
  rw [hacc, haccn, hopos] at ht'
  split at ht
  next hz =>
    rw [if_pos hz] at ht'
    simp only [bind_eq_ok, outWrite_eq_ok, Except.ok.injEq] at ht ht'
    obtain ⟨_, ⟨hroom, rfl⟩, rfl⟩ := ht
    obtain ⟨_, ⟨-, rfl⟩, rfl⟩ := ht'
    refine ⟨rfl, rfl, ?_, ?_⟩
    · change s'.opos + 1 = s.opos + 1
      rw [hopos]
    · have happ := sameOut_outAppended hopos hout hroom (setAccBit s.acc s.accn.toNat v)
      rw [outAppended, outAppended, hopos] at happ
      exact happ.congr rfl rfl rfl rfl
  next hz =>
    rw [if_neg hz] at ht'
    cases ht
    cases ht'
    exact ⟨rfl, rfl, rfl, hout⟩

/-- The same code appended to the same stream. -/
theorem SameStream.packBits {bits : BitVec 255} {left k : Nat} (h : SameStream s s')
    (ht : packBits bits left k s = .ok t) (ht' : packBits bits left k s' = .ok t') : SameStream t t' := by
  induction left generalizing k s s' with
  | zero =>
    cases ht
    cases ht'
    exact h
  | succ left ih =>
    simp only [Machine.packBits, bind_eq_ok] at ht ht'
    obtain ⟨u, hu, ht⟩ := ht
    obtain ⟨u', hu', ht'⟩ := ht'
    exact ih (h.packBit hu hu') ht ht'

theorem alike_pack (hin : SameInput s s') (r : Runs m .pack s) (r' : Runs m .pack s') (h : Agree m s s' .pack)
    (hx : exec .pack s = .next t) (hx' : exec .pack s' = .next t') : Alike t t' := by
  obtain ⟨hn, hw, hcodes, hipos, hstream⟩ := h
  have hcodes' := hcodes.congr hx hx' (by simp) (by simp)
  have hf := exec_pack_frame hx
  have hf' := exec_pack_frame hx'
  have hn' : t'.n = t.n := by rw [hf, hf']; exact hn
  have hw' : WholeInput t t' := hw.congr (by rw [hf]) (by rw [hf']) (by rw [hf])
  rcases (exec_pack_eq_next s t).1 hx with ⟨hlt, hil, -, u, hu, rfl⟩ | ⟨hge, rfl⟩
  · obtain ⟨-, -, -, u', hu', rfl⟩ := ((exec_pack_eq_next s' t').1 hx').resolve_right (by rw [hipos, hw.origLen]; omega)
    have hbyte : inByte s' s'.ipos.toNat = inByte s s.ipos.toNat := by
      rw [hipos]
      exact hin.bytes _ hil
    rw [hbyte, hcodes _ hil] at hu'
    obtain ⟨hacc, haccn, hopos, hout⟩ := SameStream.packBits hstream hu hu'
    refine .goOn (p := .pack) (r.next (by rw [hf]) (by rw [hf]) (by rw [hf]) ?_)
      (r'.next (by rw [hf']) (by rw [hf']) (by rw [hf']) ?_) ⟨hn', hw', hcodes', ?_, hacc, haccn, hopos, hout⟩
    · rw [packBits_frame hu]
      exact r.phase
    · rw [packBits_frame hu']
      exact r'.phase
    · change u'.ipos + 1 = u.ipos + 1
      rw [packBits_frame hu, packBits_frame hu']
      exact congrArg (· + 1) hipos
  · obtain ⟨-, rfl⟩ := ((exec_pack_eq_next s' t').1 hx').resolve_left (by rw [hipos, hw.origLen]; omega)
    exact .goOn (p := .flush) (r.next rfl rfl rfl rfl) (r'.next rfl rfl rfl rfl) ⟨⟨hw.origLen, hn⟩, hstream⟩

theorem alike_flush (r : Runs m .flush s) (r' : Runs m .flush s') (h : Agree m s s' .flush)
    (hx : exec .flush s = .next t) (hx' : exec .flush s' = .next t') : Alike t t' := by
  obtain ⟨hhead, hstream⟩ := h
  obtain ⟨hacc, haccn, hopos, hout⟩ := hstream
  rcases (exec_flush_eq_next s t).1 hx with ⟨hz, rfl⟩ | ⟨hz, hroom, rfl⟩
  · obtain ⟨-, rfl⟩ := ((exec_flush_eq_next s' t').1 hx').resolve_right (by rw [haccn]; exact fun h => h.1 hz)
    rw [hopos]
    exact .complete r.host r'.host hout fun _ => hhead
  · obtain ⟨-, -, rfl⟩ := ((exec_flush_eq_next s' t').1 hx').resolve_left (by rw [haccn]; exact fun h => hz h.1)
    rw [hopos, hacc]
    exact .complete r.host r'.host (sameOut_outAppended hopos hout hroom s.acc) fun _ =>
      ⟨hhead.origLen, hhead.n⟩

/-! ## DECOMPRESS -/

theorem alike_parse (hin : SameInput s s') (r : Runs m .parse s) (r' : Runs m .parse s') (h : Agree m s s' .parse)
    (hx : exec .parse s = .next t) (hx' : exec .parse s' = .next t') : Alike t t' := by
  obtain ⟨hpar, hlen, hbyte⟩ := hin
  rcases (exec_parse_eq_next s t).1 hx with ⟨hlt, rfl⟩ | ⟨hge, -, rfl⟩
  · obtain ⟨-, rfl⟩ := ((exec_parse_eq_next s' t').1 hx').resolve_right (by rw [hlen]; omega)
    exact .fail r.host r'.host (by simp)
  · obtain ⟨-, -, rfl⟩ := ((exec_parse_eq_next s' t').1 hx').resolve_left (by rw [hlen]; omega)
    have hheader : headerLength s' = headerLength s := SameInput.headerLength ⟨hpar, hlen, hbyte⟩ hge
    rw [hbyte 4 (by omega), hheader]
    have hverdict : ∀ count, parseVerdict count { s' with origLen := headerLength s } =
        parseVerdict count { s with origLen := headerLength s } := fun count => by
      simp only [parseVerdict, hlen, hpar]
    rw [parseChecks_eq, parseChecks_eq, hverdict]
    cases hv : parseVerdict (leafCountOf (headerLength s) (inByte s 4)) { s with origLen := headerLength s } with
    | some e =>
      exact .complete r.host r'.host (.zero _ _) fun _ => ⟨rfl, rfl⟩
    | none =>
      have hne := origLen_ne_zero_of_parseVerdict hv
      refine .goOn (p := .loadl) (r.next rfl rfl rfl rfl) (r'.next rfl rfl rfl rfl)
        ⟨h, ⟨rfl, rfl⟩, ?_, rfl, fun x hx => ?_, fun x hx => ?_, fun j hj => ?_⟩
      · change 1 ≤ (leafCountOf (headerLength s) (inByte s 4)).toNat
        rw [leafCountOf, if_neg hne]
        bv_omega
      · exact absurd hx (Nat.not_lt_zero _)
      · exact absurd hx (Nat.not_lt_zero _)
      · exact absurd hj (Nat.not_lt_zero _)

/-- Every node and queue entry after a leaf is loaded at `LI`. -/
theorem loaded_leaf (s : State) (l : LeafRecord) :
    (∀ x, nodeAt (loaded s l) x = if x = s.li then leafNode (l.freq.setWidth 40) l.sym else nodeAt s x) ∧
      ∀ j, queueAt (loaded s l) j = if j = s.li.toNat then s.li else queueAt s j := by
  refine ⟨fun x => ?_, fun j => ?_⟩
  · rw [← nodeAt_set]
    exact nodeAt_congr rfl rfl x
  · refine Eq.trans ?_ (queueAt_set s s.li.toNat j s.li)
    exact queueAt_congr rfl rfl j

theorem alike_loadl (hin : SameInput s s') (r : Runs m .loadl s) (r' : Runs m .loadl s') (h : Agree m s s' .loadl)
    (hx : exec .loadl s = .next t) (hx' : exec .loadl s' = .next t') : Alike t t' := by
  obtain ⟨rfl, ⟨hol, hn⟩, hone, hli, hnodes, hleaf, hqueue⟩ := h
  rcases (exec_loadl_eq_next s t).1 hx with ⟨hlt, ⟨hil, -⟩, -, hq, rfl⟩ | ⟨hge, rfl⟩
  · obtain ⟨-, -, -, -, rfl⟩ := ((exec_loadl_eq_next s' t').1 hx').resolve_right (by
      rw [hli, hn]
      exact fun hge => absurd hlt (BitVec.not_lt.2 hge.1))
    rw [hli, hin.leafRecordAt hil]
    generalize leafRecordAt s (leafAddr s.li.toNat) = l
    obtain ⟨hnode, hentry⟩ := loaded_leaf s l
    obtain ⟨hnode', hentry'⟩ := loaded_leaf s' l
    rw [hli] at hnode' hentry'
    have hsucc : (s.li + 1).toNat = s.li.toNat + 1 := by
      simp only [maxQueue] at hq
      bv_omega
    have hold : ∀ x : NodeIx, x.toNat < (s.li + 1).toNat → x ≠ s.li → x.toNat < s.li.toNat := fun x hx hxn => by
      have : x.toNat ≠ s.li.toNat := fun e => hxn (BitVec.eq_of_toNat_eq e)
      omega
    refine .goOn (p := .loadl) (r.next rfl rfl rfl r.phase) (r'.next rfl rfl rfl r'.phase)
      ⟨rfl, ⟨hol, hn⟩, hone, ?_, fun x hx => ?_, fun x hx => ?_, fun j hj => ?_⟩
    · change s'.li + 1 = s.li + 1
      rw [hli]
    · rw [hnode, hnode']
      split
      · rfl
      next hne => exact hnodes x (hold x hx hne)
    · rw [hnode]
      split
      · exact ⟨rfl, rfl⟩
      next hne => exact hleaf x (hold x hx hne)
    · change j < (s.li + 1).toNat at hj
      rw [hentry, hentry']
      split
      next e =>
        rw [e]
        exact ⟨by simp, by simp⟩
      next hne => exact hqueue j (by omega)
  · obtain ⟨-, rfl⟩ := ((exec_loadl_eq_next s' t').1 hx').resolve_left (by
      rw [hli, hn]
      exact fun hlt => absurd hlt.1 (BitVec.not_lt.2 hge))
    have hle : s.n.toNat ≤ s.li.toNat := BitVec.le_def.1 hge
    obtain ⟨htree, hqueued⟩ := sameForest_of_leaves (t := loadExited s) (t' := loadExited s') hn rfl rfl hone
      (fun x hx => hnodes x (lt_of_lt_of_le hx hle)) (fun x hx => hleaf x (lt_of_lt_of_le hx hle))
      (fun j hj => hqueue j (lt_of_lt_of_le hj hle))
    refine .goOn (p := .merge) (r.next rfl rfl rfl rfl) (r'.next rfl rfl rfl rfl)
      ⟨hn, htree, hqueued, hol, ?_, rfl, rfl⟩
    change BitVec.ofNat 41 (8 * (5 + 5 * s'.n.toNat)) = BitVec.ofNat 41 (8 * (5 + 5 * s.n.toNat))
    rw [hn]

theorem alike_unpk (hin : SameInput s s') (r : Runs m .unpk s) (r' : Runs m .unpk s') (h : Agree m s s' .unpk)
    (hx : exec .unpk s = .next t) (hx' : exec .unpk s' = .next t') : Alike t t' := by
  obtain ⟨⟨hol, hn⟩, htree, hcur, hroot, hcurlt, hrootlt, hbit, hopos, hout⟩ := h
  have hnode : nodeAt s' s.cur = nodeAt s s.cur := htree.nodes _ hcurlt
  have hbits : inBits s' = inBits s := by rw [inBits, inBits, hin.inLen]
  rw [exec_unpk_eq_next, hopos, hol, hcur, hnode, hbits, hbit] at hx'
  rcases (exec_unpk_eq_next s t).1 hx with ⟨hend, rfl⟩ | ⟨hmore, hc, ⟨hleaf, hroom, rfl⟩ | ⟨hinner, hdry, rfl⟩ |
    ⟨hinner, hbitlt, ⟨hil, -⟩, rfl⟩⟩
  · obtain ⟨-, rfl⟩ := hx'.resolve_right fun h => h.1 hend
    refine .complete r.host r'.host ?_ fun _ => ⟨hol, hn⟩
    rw [BitVec.toNat_setWidth, Nat.mod_eq_of_lt (by have := s.origLen.isLt; omega), ← hend]
    exact hout
  · obtain ⟨-, -, ⟨-, -, rfl⟩ | ⟨hne, -⟩ | ⟨hne, -⟩⟩ := hx'.resolve_left fun h => hmore h.1
    · have happ := sameOut_outAppended hopos hout hroom (nodeAt s s.cur).sym
      refine .goOn (p := .unpk) (r.next rfl rfl rfl r.phase) (r'.next rfl rfl rfl r'.phase)
        ⟨⟨hol, hn⟩, ⟨htree.nn, htree.nodes, htree.closed⟩, hroot, hroot, hrootlt, hrootlt, hbit, ?_,
          happ.congr rfl rfl rfl rfl⟩
      change s'.opos + 1 = s.opos + 1
      rw [hopos]
    · exact absurd hleaf hne
    · exact absurd hleaf hne
  · obtain ⟨-, -, ⟨he, -⟩ | ⟨-, -, rfl⟩ | ⟨-, hlt, -⟩⟩ := hx'.resolve_left fun h => hmore h.1
    · exact absurd he hinner
    · exact .fail r.host r'.host (by simp)
    · omega
  · obtain ⟨-, -, ⟨he, -⟩ | ⟨-, hge, -⟩ | ⟨-, -, -, rfl⟩⟩ := hx'.resolve_left fun h => hmore h.1
    · exact absurd he hinner
    · omega
    · have hbyte : inByte s' (s.bitpos.toNat / 8) = inByte s (s.bitpos.toNat / 8) := hin.bytes _ hil
      obtain ⟨hleft, hright⟩ := (htree.closed _ hcurlt).2.resolve_left hinner
      refine .goOn (p := .unpk) (r.next rfl rfl rfl r.phase) (r'.next rfl rfl rfl r'.phase)
        ⟨⟨hol, hn⟩, ⟨htree.nn, htree.nodes, htree.closed⟩, ?_, hroot, ?_, hrootlt, ?_, hopos, hout⟩
      · simp only [descended, hbit, hbyte]
      · simp only [descended]
        split
        · exact hright
        · exact hleft
      · change s'.bitpos + 1 = s.bitpos + 1
        rw [hbit]

end

end Sys2Proof.Machine
end

section
/-! PROOFS. A command's result is a function of its input: two blocks with the same input run in step. -/

namespace Sys2Proof.Machine

/-! ## Two blocks in step -/

/-- Two blocks with the same input, whose runs have ended alike or go on in agreement. -/
def InStep (s s' : State) : Prop := SameInput s s' ∧ Alike s s'

section
variable {s s' t t' : State}

/-- With no host move pending and no run, a step changes nothing (45 R196). -/
theorem step_of_ended (h : Completed s ∧ s.host = []) : step s = .next s := by
  obtain ⟨⟨hb, -, -⟩, hh⟩ := h
  simp only [step, machineStep, hh, sequencerStep_eq, hb, Bool.false_eq_true, if_false]

theorem step_of_runs {m : Mode} {p : Phase} (r : Runs m p s) : step s = exec (phaseInstr p) s := by
  obtain ⟨hb, hh, -, hp⟩ := r
  simp only [step, machineStep, hh, sequencerStep_eq, hb, if_true, hp]

/-- A micro-operation of two runs in agreement ends both alike or keeps them in agreement. -/
theorem alike_micro {m : Mode} {p : Phase} (hin : SameInput s s') (r : Runs m p s) (r' : Runs m p s')
    (h : Agree m s s' p) (hx : exec (phaseInstr p) s = .next t) (hx' : exec (phaseInstr p) s' = .next t') :
    Alike t t' := by
  cases p
  case idle => exact h.elim
  case fclr => exact alike_fclr r r' h hx hx'
  case fcnt => exact alike_fcnt hin r r' h hx hx'
  case seed => exact alike_seed r r' h hx hx'
  case merge => exact alike_merge r r' h hx hx'
  case assign => exact alike_assign r r' h hx hx'
  case serh => exact alike_serh hin r r' h hx hx'
  case serl => exact alike_serl r r' h hx hx'
  case pack => exact alike_pack hin r r' h hx hx'
  case flush => exact alike_flush r r' h hx hx'
  case parse => exact alike_parse hin r r' h hx hx'
  case loadl => exact alike_loadl hin r r' h hx hx'
  case unpk => exact alike_unpk hin r r' h hx hx'

theorem InStep.step (h : InStep s s') (hx : step s = .next t) (hx' : step s' = .next t') : InStep t t' := by
  obtain ⟨hin, ⟨hend, hend', hsame⟩ | ⟨m, p, r, r', hagree⟩⟩ := h
  · rw [step_of_ended hend] at hx
    rw [step_of_ended hend'] at hx'
    cases hx
    cases hx'
    exact ⟨hin, .inl ⟨hend, hend', hsame⟩⟩
  · rw [step_of_runs r] at hx
    rw [step_of_runs r'] at hx'
    exact ⟨hin.exec hx hx', alike_micro hin r r' hagree hx hx'⟩

/-- A run of one step more, taken apart at its first step. -/
theorem runFor_succ_eq_next (k : Nat) (s t : State) :
    runFor (k + 1) s = .next t ↔ ∃ u, Machine.step s = .next u ∧ runFor k u = .next t := by
  rw [runFor]
  cases Machine.step s with
  | next u => simp
  | fault f => simp
  | refused f => simp

/-- A run taken apart after its first steps. -/
theorem runFor_add_eq_next (j k : Nat) (s t : State) :
    runFor (j + k) s = .next t ↔ ∃ u, runFor j s = .next u ∧ runFor k u = .next t := by
  induction j generalizing s with
  | zero => simp [runFor]
  | succ j ih =>
    rw [Nat.succ_add, runFor_succ_eq_next]
    simp only [runFor_succ_eq_next, ih]
    constructor
    · rintro ⟨v, hv, u, hu, ht⟩
      exact ⟨u, ⟨v, hv, hu⟩, ht⟩
    · rintro ⟨u, ⟨v, hv, hu⟩, ht⟩
      exact ⟨v, hv, u, hu, ht⟩

theorem runFor_of_ended (h : Completed s ∧ s.host = []) (k : Nat) : runFor k s = .next s := by
  induction k with
  | zero => rfl
  | succ k ih => rw [runFor_of_step (step_of_ended h), ih]

theorem InStep.run (h : InStep s s') (k : Nat) (hx : runFor k s = .next t) (hx' : runFor k s' = .next t') :
    InStep t t' := by
  induction k generalizing s s' with
  | zero =>
    cases hx
    cases hx'
    exact h
  | succ k ih =>
    obtain ⟨u, hu, hx⟩ := (runFor_succ_eq_next k s t).1 hx
    obtain ⟨u', hu', hx'⟩ := (runFor_succ_eq_next k s' t').1 hx'
    exact ih (h.step hu hu') hx hx'

/-- In step, the two runs end together. -/
theorem InStep.completed_iff (h : InStep s s') : (Completed s ↔ Completed s') ∧ (Completed s → SameResult s s') := by
  obtain ⟨-, hsame | ⟨m, p, r, r', -⟩⟩ := h
  · have ⟨⟨hc, _⟩, ⟨hc', _⟩, _⟩ := hsame
    exact ⟨iff_of_true hc hc', fun _ => hsame⟩
  · have hno : ¬ Completed s := fun hc => by simp [Completed, r.busy] at hc
    have hno' : ¬ Completed s' := fun hc => by simp [Completed, r'.busy] at hc
    exact ⟨iff_of_false hno hno', fun hc => absurd hc hno⟩

/-- Of two runs in step, each to its completion, the longer goes on from where the shorter ended and changes nothing. -/
theorem InStep.sameResult (h : InStep s s') {k k' : Nat} (hx : runFor k s = .next t) (hc : Completed t)
    (hx' : runFor k' s' = .next t') (hc' : Completed t') : SameResult t t' := by
  rcases Nat.le_total k k' with hle | hle
  · obtain ⟨d, rfl⟩ := Nat.exists_eq_add_of_le hle
    obtain ⟨u', hu', hx'⟩ := (runFor_add_eq_next k d s' t').1 hx'
    obtain ⟨-, hsame⟩ := (h.run k hx hu').completed_iff
    obtain ⟨-, hend, -⟩ := hsame hc
    rw [runFor_of_ended hend] at hx'
    cases hx'
    exact hsame hc
  · obtain ⟨d, rfl⟩ := Nat.exists_eq_add_of_le hle
    obtain ⟨u, hu, hx⟩ := (runFor_add_eq_next k' d s t).1 hx
    obtain ⟨hiff, hsame⟩ := (h.run k' hu hx').completed_iff
    have hcu := hiff.2 hc'
    obtain ⟨hend, -⟩ := hsame hcu
    rw [runFor_of_ended hend] at hx
    cases hx
    exact hsame hcu

/-! ## The command -/

/-- The first step of a command's run is its write to `CMD` (45 R191). -/
theorem step_issued (s : State) (c : Byte) (hb : s.busy = false) :
    Machine.step (issued s c) = commandWrite c (newTurn { s with host := [] }) := by
  have hbyte : (c.setWidth 38).setWidth 8 = c := by
    rw [BitVec.setWidth_setWidth_of_le c (by decide), BitVec.setWidth_eq]
  rw [step_of_host (s := issued s c) rfl, hostTurn, registerWrite, if_pos rfl, hbyte]
  exact congrArg (commandWrite c) (if_neg (by simp [issued, hb]))

/-- A waiting block with no host move pending. -/
structure WaitingAlone (s : State) : Prop where
  busy : s.busy = false
  phase : s.phase = .idle
  host : s.host = []

/-- Two rejections with the same code. -/
theorem Alike.reject (h : WaitingAlone s) (h' : WaitingAlone s') {e : ErrCode} (he : e ≠ .ok) :
    Alike (reject e s) (reject e s') := by
  obtain ⟨hb, hp, hh⟩ := h
  obtain ⟨hb', hp', hh'⟩ := h'
  exact .inl ⟨⟨⟨hb, rfl, hp⟩, hh⟩, ⟨⟨hb', rfl, hp'⟩, hh'⟩, rfl, rfl, .zero _ _, fun hok => absurd hok he⟩

/-- The same command in two waiting blocks with the same input is rejected in both, or begins two runs in agreement. -/
theorem alike_command (hin : SameInput s s') (h : WaitingAlone s) (h' : WaitingAlone s') {c : Byte} {i : Instr}
    (hc : decodeCmd c = .ok i) (hx : exec i s = .next t) (hx' : exec i s' = .next t') : Alike t t' := by
  obtain ⟨hpar, hlen, -⟩ := hin
  rcases (decodeCmd_eq_ok c i).1 hc with ⟨-, rfl⟩ | ⟨-, rfl⟩
  · rw [exec_compress_eq_next, hpar, hlen] at hx'
    rcases (exec_compress_eq_next s t).1 hx with ⟨hb, -⟩ | ⟨-, hbad, rfl⟩ | ⟨-, hcap, hfit, rfl⟩
    · simp [h.busy] at hb
    · rcases hx' with ⟨hb, -⟩ | ⟨-, -, rfl⟩ | ⟨-, hcap, hfit, -⟩
      · simp [h'.busy] at hb
      · exact .reject h h' (by simp)
      · rcases hbad with hbad | hbad
        · exact absurd hcap (BitVec.not_le.2 hbad)
        · exact absurd hfit (Nat.not_lt.2 hbad)
    · rcases hx' with ⟨hb, -⟩ | ⟨-, hbad | hbad, -⟩ | ⟨-, -, -, rfl⟩
      · simp [h'.busy] at hb
      · exact absurd hcap (BitVec.not_le.2 hbad)
      · exact absurd hfit (Nat.not_lt.2 hbad)
      · refine .goOn (p := .fclr) ⟨rfl, h.host, rfl, rfl⟩ ⟨rfl, h'.host, rfl, rfl⟩ ⟨rfl, rfl, ?_⟩
        exact (BitVec.toNat_setWidth 32 s.inLen).trans (Nat.mod_eq_of_lt hfit)
  · rw [exec_decompress_eq_next, hpar, hlen] at hx'
    rcases (exec_decompress_eq_next s t).1 hx with ⟨hb, -⟩ | ⟨-, hbad, rfl⟩ | ⟨-, hcap, rfl⟩
    · simp [h.busy] at hb
    · rcases hx' with ⟨hb, -⟩ | ⟨-, -, rfl⟩ | ⟨-, hcap, -⟩
      · simp [h'.busy] at hb
      · exact .reject h h' (by simp)
      · exact absurd hcap (BitVec.not_le.2 hbad)
    · rcases hx' with ⟨hb, -⟩ | ⟨-, hbad, -⟩ | ⟨-, -, rfl⟩
      · simp [h'.busy] at hb
      · exact absurd hcap (BitVec.not_le.2 hbad)
      · exact .goOn (p := .parse) ⟨rfl, h.host, rfl, rfl⟩ ⟨rfl, h'.host, rfl, rfl⟩ rfl

/-- The same byte written to `CMD` of two waiting blocks with the same input leaves them in step. -/
theorem inStep_commandWrite (hin : SameInput s s') (h : WaitingAlone s) (h' : WaitingAlone s') (c : Byte)
    (hx : commandWrite c s = .next t) (hx' : commandWrite c s' = .next t') : InStep t t' := by
  unfold commandWrite at hx hx'
  cases hc : decodeCmd c with
  | ok i =>
    rw [hc] at hx hx'
    exact ⟨hin.exec hx hx', alike_command hin h h' hc hx hx'⟩
  | error e =>
    rw [hc] at hx hx'
    simp only [reservedCommand, h.busy, h'.busy, Bool.false_eq_true, if_false, Host.Outcome.next.injEq] at hx hx'
    subst hx
    subst hx'
    exact ⟨⟨hin.params, hin.inLen, hin.bytes⟩, .reject h h' (by simp)⟩

end

/-- Settles O60: the command leaves the two blocks in step, and blocks in step end with the same result. -/
theorem resultDependsOnInputAlone : Obligations.ResultDependsOnInputAlone := by
  rintro s s' t t' c k k' ⟨hb, hp⟩ ⟨hb', hp'⟩ hpar hlen hinput hx hh hc hx' hh' hc'
  have hin : SameInput (newTurn { s with host := [] }) (newTurn { s' with host := [] }) := by
    refine ⟨hpar.symm, hlen.symm, fun a ha => ?_⟩
    rw [inputOf, inputOf, ← hlen] at hinput
    exact (List.map_inj_left.1 hinput a (List.mem_range.2 ha)).symm
  cases k with
  | zero =>
    cases hx
    simp [issued] at hh
  | succ k =>
    cases k' with
    | zero =>
      cases hx'
      simp [issued] at hh'
    | succ k' =>
      obtain ⟨u, hu, hx⟩ := (runFor_succ_eq_next k _ t).1 hx
      obtain ⟨u', hu', hx'⟩ := (runFor_succ_eq_next k' _ t').1 hx'
      rw [step_issued s c hb] at hu
      rw [step_issued s' c hb'] at hu'
      have hstep := inStep_commandWrite hin ⟨hb, hp, rfl⟩ ⟨hb', hp', rfl⟩ c hu hu'
      obtain ⟨-, -, herr, hout, hbytes, hhead⟩ := hstep.sameResult hx hc hx' hc'
      refine ⟨herr.symm, hout.symm, ?_, fun hok => ⟨(hhead hok).origLen.symm, (hhead hok).n.symm⟩⟩
      rw [outputOf, outputOf, hout]
      exact List.map_congr_left fun a ha => (hbytes a (List.mem_range.1 ha)).symm

end Sys2Proof.Machine
end

section
/-! PROOFS. The four-byte fields: the number four bytes make, the bytes of a number, and `OUT` after a field is written. -/

namespace Sys2Proof.Machine

/-- Four bytes joined, as a number (20_memory.md R65). -/
theorem toNat_join32 (b0 b1 b2 b3 : Byte) :
    (join32 b0 b1 b2 b3).toNat =
      b0.toNat + 2 ^ 8 * b1.toNat + 2 ^ 16 * b2.toNat + 2 ^ 24 * b3.toNat := by
  rw [join32, BitVec.toNat_append, BitVec.toNat_append, BitVec.toNat_append, ← Nat.shiftLeft_add_eq_or_of_lt b2.isLt,
    ← Nat.shiftLeft_add_eq_or_of_lt b1.isLt, ← Nat.shiftLeft_add_eq_or_of_lt b0.isLt]
  simp only [Nat.shiftLeft_eq]
  omega

/-- A byte of a field, as a number (20_memory.md R65). -/
theorem toNat_byteOf32 (v : BitVec 32) (k : Nat) : (byteOf32 v k).toNat = v.toNat / 2 ^ (8 * k) % 256 := by
  rw [byteOf32, BitVec.toNat_setWidth, BitVec.toNat_ushiftRight, Nat.shiftRight_eq_div_pow]

/-- A byte of `OUT` after one more write on top of others. -/
theorem outByte_setOutMem_set (s : State) (m : List Host.Cell) (a c : Nat) (b : Byte) :
    outByte (s.setOutMem (sparseSet m a b)) c = if c = a then b else outByte (s.setOutMem m) c :=
  outByte_set (s.setOutMem m) a c b

/-- A byte within a field just written is the field's byte. -/
theorem outByte_outWith32_within (s : State) (a : Nat) (v : BitVec 32) {k : Nat} (hk : k < 4) :
    outByte (outWith32 s a v) (a + k) = byteOf32 v k := by
  simp only [outWith32, outByte_setOutMem_set]
  interval_cases k <;> simp

/-- A field's write leaves every byte outside its four alone. -/
theorem outWith32_sameOutside (s : State) (a : Nat) (v : BitVec 32) : OutSameOutside a 4 s (outWith32 s a v) := by
  intro c hc
  have h0 : c ≠ a := by omega
  have h1 : c ≠ a + 1 := by omega
  have h2 : c ≠ a + 2 := by omega
  have h3 : c ≠ a + 3 := by omega
  rw [outWith32, outByte_setOutMem_set, if_neg h3, outByte_setOutMem_set, if_neg h2, outByte_setOutMem_set, if_neg h1,
    outByte_set, if_neg h0]

/-- Settles O47: a read joins the four bytes, a write stores the four bytes of the number. -/
theorem fieldsAreLittleEndian : Obligations.FieldsAreLittleEndian := by
  constructor
  · intro s a ha hcap
    have hcap := BitVec.le_def.1 hcap
    exact ⟨_, (inRead32_eq_ok s a _).2 ⟨⟨by omega, by omega⟩, rfl⟩, toNat_join32 _ _ _ _⟩
  · intro s a v ha
    refine ⟨_, (outWrite32_eq_ok s a v _).2 ⟨by omega, rfl⟩, outWith32_sameOutside s a v, rfl, fun k hk => ?_⟩
    rw [outByte_outWith32_within s a v hk, toNat_byteOf32]

end Sys2Proof.Machine
end

section
/-! PROOFS. The codes of the two instruction formats (30_encoding.md R81 to R86), and the step that polls `STATUS`. -/

namespace Sys2Proof.Machine

/-! ## Codes -/

/-- A `PHASE` code decodes exactly when R85 lists it. -/
theorem decodePhase_isOk (p : BitVec 4) : (decodePhase p).isOk = wellFormedPhase p := by
  revert p
  decide

/-- `PHASE` holds the value that selects its micro-operation. -/
theorem phaseOf_phaseInstr (p : Phase) : phaseOf (phaseInstr p) = some p := by
  cases p <;> rfl

/-- Settles O1: a command by the order of its tests, a `PHASE` code by the well-formedness check and the code of each
value. -/
theorem codesDecode : Obligations.CodesDecode := by
  refine ⟨⟨rfl, rfl, fun c h1 h2 => ?_⟩, fun p => ?_, fun p => ⟨_, decodePhase_phaseCode p, phaseOf_phaseInstr p⟩⟩
  · rw [decodeCmd, if_neg h1, if_neg h2]
  · have hwf : (decodePhase p).isOk = true ↔ p.toNat ≤ 12 := by rw [decodePhase_isOk, wellFormedPhase, decide_eq_true_iff]
    rw [← hwf]
    cases decodePhase p <;> simp [Except.isOk, Except.toBool]

/-- Settles O2: each row is a closed computation. -/
theorem writtenWordsDecode : Obligations.WrittenWordsDecode := by
  unfold Obligations.WrittenWordsDecode
  and_intros <;> rfl

/-- Decoding looks at one byte, and hands back what follows it (R81, R84). -/
theorem decodeBytes_cons (f : Format) (b : Byte) (rest : List Byte) :
    decodeBytes f (b :: rest) = (decodeBytes f [b]).map fun p => (p.1, rest) := by
  cases f with
  | cmd8 =>
    simp only [decodeBytes]
    cases decodeCmd b <;> rfl
  | phase4 =>
    simp only [decodeBytes]
    split
    · cases decodePhase (b.setWidth 4) <;> rfl
    · rfl

/-- The laws of the single instructions, for all of them. -/
theorem encodingStatement (i : Instr) : Laws.Encoding.Statement i := by
  cases i
  exacts [Laws.Encoding.compress, Laws.Encoding.decompress, Laws.Encoding.idle, Laws.Encoding.fclr, Laws.Encoding.fcnt,
    Laws.Encoding.seed, Laws.Encoding.merge, Laws.Encoding.assign, Laws.Encoding.serh, Laws.Encoding.serl,
    Laws.Encoding.pack, Laws.Encoding.flush, Laws.Encoding.parse, Laws.Encoding.loadl, Laws.Encoding.unpk]

/-- Settles O3: the word alone reads back by its law, and what follows it is not looked at. -/
theorem instructionDecodesFromItsWords : Obligations.InstructionDecodesFromItsWords := by
  intro i rest
  obtain ⟨-, hread, -⟩ := encodingStatement i
  rw [encode] at hread ⊢
  rw [List.singleton_append, decodeBytes_cons, hread]
  rfl

/-! ## IDLE and polling -/

/-- Settles O18: by the meaning of IDLE. -/
theorem idleDoesNothing : Obligations.IdleDoesNothing := fun s => (exec_idle_eq_next s s).2 rfl

/-- Settles O14: the polling move is dropped when `DONE` = 1, and until then put back before the sequencer's step. -/
theorem pollingWaitsForDone : Obligations.PollingWaitsForDone := by
  intro s rest h
  rw [step_of_host h, hostTurn]
  refine ⟨fun hd => if_pos hd, fun hd hb i hi => ?_⟩
  have hback : ({ s with host := .await :: rest } : State) = s := by rw [← h]
  rw [decodePhase_phaseCode, Except.ok.injEq] at hi
  rw [if_neg (by simp [hd]), hback, grantTurn, if_pos hb, sequencerStep_eq, newTurn_busy, if_pos hb, newTurn_phase, hi]

end Sys2Proof.Machine
end

section
/-! PROOFS. The records of the compressed buffer (30_encoding.md R87 to R91): the header and the leaf records byte by byte
and read back, the leaf count through its byte, and which buffers decompress (R100). -/

namespace Sys2Proof.Machine

/-! ## Header and leaf records -/

/-- The four bytes of a field, joined, are the field. -/
theorem join32_byteOf32 (v : BitVec 32) : join32 (byteOf32 v 0) (byteOf32 v 1) (byteOf32 v 2) (byteOf32 v 3) = v := by
  apply BitVec.eq_of_toNat_eq
  simp only [toNat_join32, toNat_byteOf32]
  omega

theorem decodeHdr_encodeHdr (h : HdrRecord) (rest : List Byte) : decodeHdr (encodeHdr h ++ rest) = .ok (h, rest) := by
  simp [encodeHdr, bytes32, decodeHdr, join32_byteOf32]

theorem decodeLeaf_encodeLeaf (l : LeafRecord) (rest : List Byte) :
    decodeLeaf (encodeLeaf l ++ rest) = .ok (l, rest) := by
  simp [encodeLeaf, bytes32, decodeLeaf, join32_byteOf32]

/-- A four-byte field and the byte after it, as the bytes of their 40-bit view (R89, R90). -/
theorem bytes32_append_getD (b : Byte) (v : BitVec 32) (k : Fin 5) :
    (bytes32 v ++ [b]).getD k 0 = ((b ++ v) >>> (8 * k.val)).setWidth 8 := by
  apply BitVec.eq_of_toNat_eq
  rw [BitVec.toNat_setWidth, BitVec.toNat_ushiftRight, BitVec.toNat_append, ← Nat.shiftLeft_add_eq_or_of_lt v.isLt,
    Nat.shiftLeft_eq, Nat.shiftRight_eq_div_pow]
  fin_cases k <;> simp [bytes32, toNat_byteOf32] <;> omega

/-- Settles O4: header and leaf record have the same layout, a four-byte field and one byte. -/
theorem recordsRoundTrip : Obligations.RecordsRoundTrip :=
  ⟨decodeHdr_encodeHdr, decodeLeaf_encodeLeaf, fun h k => bytes32_append_getD h.nm1 h.origlen k,
    fun l k => bytes32_append_getD l.sym l.freq k⟩

/-- Settles O5, by induction on the list: each record is read off the front, the others after it. -/
theorem leafListRoundTrip : Obligations.LeafListRoundTrip := by
  intro leaves rest
  induction leaves with
  | nil => rfl
  | cons l ls ih =>
    rw [List.flatMap_cons, List.append_assoc, List.length_cons, decodeLeaves, decodeLeaf_encodeLeaf]
    simp only [ih]

/-! ## The leaf count -/

/-- The byte of a leaf count from 1 to 256 (R91). -/
theorem toNat_leafCountByte {n : BitVec 9} (h1 : 1 ≤ n.toNat) (h256 : n.toNat ≤ 256) :
    (leafCountByte n).toNat = n.toNat - 1 := by
  have h0 : n ≠ 0#9 := by
    rintro rfl
    simp at h1
  rw [leafCountByte, if_neg h0]
  bv_omega

/-- The leaf count a byte declares, where the original is not empty (R91). -/
theorem toNat_leafCountOf {origlen : BitVec 32} (h : origlen ≠ 0#32) (nm1 : Byte) :
    (leafCountOf origlen nm1).toNat = nm1.toNat + 1 := by
  rw [leafCountOf, if_neg h]
  bv_omega

/-- Settles O6: with an empty original both sides are 0, otherwise the byte is one less than the count. -/
theorem leafCountRoundTrip : Obligations.LeafCountRoundTrip := by
  refine ⟨fun origlen n hn => ?_, rfl, fun n => toNat_leafCountByte, fun _ => rfl, fun origlen nm1 h =>
    toNat_leafCountOf h nm1⟩
  apply BitVec.eq_of_toNat_eq
  by_cases h : origlen = 0#32
  · have h0 : n.toNat = 0 := by simpa [wellFormedLeafCount, h] using hn
    rw [leafCountOf, if_pos h, h0]
    rfl
  · obtain ⟨h1, h256⟩ : 1 ≤ n.toNat ∧ n.toNat ≤ 256 := by simpa [wellFormedLeafCount, h] using hn
    rw [toNat_leafCountOf h, toNat_leafCountByte h1 h256]
    omega

/-! ## Which buffers decompress -/

/-- Settles O11, along the walk both sides share: header, empty original, leaf records, capacity, symbols. -/
theorem succeedsExactlyOnConforming : Obligations.SucceedsExactlyOnConforming := by
  intro outCap buffer
  unfold decompressResult conforming
  cases hhdr : decodeHdr buffer with
  | error e => simp
  | ok p =>
    obtain ⟨h, rest⟩ := p
    by_cases hempty : h.origlen = 0#32
    · simp [hempty]
    · cases hleaves : decodeLeaves (leafCountOf h.origlen h.nm1).toNat rest with
      | error e => simp [hempty, hleaves]
      | ok q =>
        obtain ⟨leaves, payload⟩ := q
        by_cases hcap : outCap < h.origlen.toNat
        · simp [hempty, hleaves, hcap]
        · cases hsym : payloadSymbols h.origlen.toNat leaves payload with
          | none => simp [hempty, hleaves, hcap, hsym]
          | some out => simp [hempty, hleaves, hcap, hsym, Nat.le_of_not_lt hcap]

end Sys2Proof.Machine
end

section
/-! PROOFS. INPUT and FEEDBACK of the host notation (30_encoding.md R99): bytes written to `IN` one after another, then
`IN_LEN`. -/

namespace Sys2Proof.Machine

/-- The moves that write bytes to `IN` from address `k` on. -/
def writeInMoves (k : Nat) (bytes : List Byte) : List HostMove :=
  bytes.mapIdx fun i b => .writeIn (BitVec.ofNat 38 (k + i)) b

theorem writeInMoves_cons (k : Nat) (b : Byte) (bytes : List Byte) :
    writeInMoves k (b :: bytes) = .writeIn (BitVec.ofNat 38 k) b :: writeInMoves (k + 1) bytes := by
  simp [writeInMoves, List.mapIdx_cons, Nat.add_right_comm, Nat.add_assoc]

theorem inputMoves_eq (bytes : List Byte) :
    inputMoves bytes = writeInMoves 0 bytes ++ [.writeReg 2#3 (BitVec.ofNat 38 bytes.length)] := by
  simp [inputMoves, writeInMoves]

/-- FEEDBACK stands for the moves of an INPUT of the output (R99). -/
theorem feedbackMoves_eq (s : State) : feedbackMoves s = inputMoves (outputOf s) := by
  simp only [feedbackMoves, inputMoves, outputOf, List.length_map, List.length_range, BitVec.ofNat_toNat,
    BitVec.setWidth_eq]
  congr 1
  apply List.ext_getElem <;> simp

/-- What `t` holds once `bytes` have been written to `IN` from address `k` on. -/
structure Wrote (k : Nat) (bytes : List Byte) (s t : State) : Prop where
  within : ∀ i (h : i < bytes.length), inByte t (k + i) = bytes[i]
  below : ∀ c < k, inByte t c = inByte s c

/-- A byte and then others, from the next address on. -/
theorem Wrote.cons {k : Nat} {b : Byte} {bytes : List Byte} {s t u : State} (hk : inByte u k = b)
    (hbelow : ∀ c < k, inByte u c = inByte s c) (h : Wrote (k + 1) bytes u t) : Wrote k (b :: bytes) s t := by
  refine ⟨fun i hi => ?_, fun c hc => ?_⟩
  · cases i with
    | zero => simpa [hk] using h.below k (by omega)
    | succ i => simpa [Nat.add_right_comm, Nat.add_assoc] using h.within i (by simpa using hi)
  · rw [h.below c (by omega), hbelow c hc]

/-- The moves that write bytes, run: one step for each, which changes `IN` alone. -/
theorem runFor_writeInMoves (bytes : List Byte) (k : Nat) (s : State) (rest : List HostMove) (hb : s.busy = false)
    (hcap : k + bytes.length ≤ s.params.inCap.toNat) (hh : s.host = writeInMoves k bytes ++ rest) :
    ∃ t, runFor bytes.length s = .next t ∧ Wrote k bytes s t ∧ t = { s with host := rest, inMem := t.inMem } := by
  induction bytes generalizing k s with
  | nil =>
    obtain rfl : s.host = rest := hh
    exact ⟨s, rfl, ⟨fun i hi => absurd hi (by simp), fun _ _ => rfl⟩, rfl⟩
  | cons b bytes ih =>
    rw [List.length_cons] at hcap
    rw [writeInMoves_cons, List.cons_append] at hh
    have haddr : (BitVec.ofNat 38 k).toNat = k := by
      rw [BitVec.toNat_ofNat]
      omega
    have hstep := step_writeIn hb (BitVec.lt_def.2 (by omega)) hh
    rw [haddr] at hstep
    obtain ⟨t, hrun, hwrote, ht⟩ := ih (k + 1)
      ({ s with host := writeInMoves (k + 1) bytes ++ rest }.setInMem (sparseSet s.inMem k b)) hb
      (by simpa using by omega) rfl
    refine ⟨t, (runFor_of_step hstep _).trans hrun, hwrote.cons ?_ fun c hc => ?_, ht⟩
    · rw [inByte_hostWrite, if_pos rfl]
    · rw [inByte_hostWrite, if_neg (by omega)]

/-- INPUT, run from an idle block: the bytes are the input, and nothing else has changed. -/
theorem runFor_inputMoves {s : State} {bytes : List Byte} (hb : s.busy = false)
    (hcap : bytes.length ≤ s.params.inCap.toNat) (hh : s.host = inputMoves bytes) :
    ∃ t, runFor (bytes.length + 1) s = .next t ∧ inputOf t = bytes ∧
      t = { s with host := [], inLen := t.inLen, inMem := t.inMem } := by
  obtain ⟨u, hrun, hwrote, hu⟩ :=
    runFor_writeInMoves bytes 0 s _ hb (by rwa [Nat.zero_add]) (hh.trans (inputMoves_eq bytes))
  obtain ⟨-, hlength⟩ := registerWrites u 2#3 (BitVec.ofNat 38 bytes.length) [] (by rw [hu])
  have hstep := hlength (by rw [hu, hb]) (by decide)
  have hlen : (BitVec.ofNat 38 bytes.length).toNat = bytes.length := by
    rw [BitVec.toNat_ofNat]
    omega
  refine ⟨_, (runFor_add_eq_next _ 1 _ _).2 ⟨u, hrun, runFor_of_step hstep 0⟩, ?_, ?_⟩
  · apply List.ext_getElem
    · simp [inputOf, hlen]
    · intro i _ hi
      simpa [inputOf, inByte] using hwrote.within i hi
  · rw [hu]

/-- A program of the notation, loaded where no move is pending. -/
theorem load_of_idle {s : State} (h : s.host = []) (program : List Stmt) :
    load s program = { s with host := program.flatMap expand } := by
  rw [load, h, List.nil_append]

/-- Settles O44: INPUT runs its moves, and FEEDBACK becomes the INPUT of the output after its first step. -/
theorem hostNotationMovesData : Obligations.HostNotationMovesData := by
  refine ⟨fun s bytes hb hh hcap => ?_, fun s hb hh hcap => ?_⟩
  · rw [load_of_idle hh, List.flatMap_singleton, expand]
    obtain ⟨t, hrun, hin, ht⟩ := runFor_inputMoves (s := { s with host := inputMoves bytes }) hb hcap rfl
    rw [← hh] at ht
    exact ⟨t, hrun, hin, ht⟩
  · have hlen : (outputOf s).length = s.outLen.toNat := by simp [outputOf]
    have hstep : step (load s [.feedback]) = .next { s with host := inputMoves (outputOf s) } := by
      rw [load_of_idle hh, List.flatMap_singleton, expand, step_of_host rfl, hostTurn, if_neg (by simp [hb]),
        feedbackMoves_eq, List.append_nil]
      rfl
    obtain ⟨t, hrun, hin, ht⟩ := runFor_inputMoves (s := { s with host := inputMoves (outputOf s) }) hb
      (hlen.trans_le (BitVec.le_def.1 hcap)) rfl
    rw [hlen] at hrun
    rw [← hh] at ht
    exact ⟨t, (runFor_of_step hstep _).trans hrun, hin, ht⟩

end Sys2Proof.Machine
end

section
/-! PROOFS. The frequency table (40_frequency_table.md): FCLR, FCNT and the run of both, and the leaves SEED makes in
seed order. -/

namespace Sys2Proof.Machine

/-! ## FCLR and FCNT -/

/-- Settles O20: the cleared table reads 0 everywhere. -/
theorem fclrClearsTheTable : Obligations.FclrClearsTheTable := fun s =>
  ⟨_, (exec_fclr_eq_next s _).2 rfl, readFt_of_cleared rfl, rfl⟩

/-- Settles O21: by the two branches of FCNT, the byte's entry being the only one written. -/
theorem fcntCountsOneByte : Obligations.FcntCountsOneByte := by
  refine ⟨fun s hlt hin hcap => ?_, fun s hle => (exec_fcnt_eq_next s _).2 (.inr ⟨hle, rfl⟩)⟩
  have hin := BitVec.lt_def.1 hin
  have hcap := BitVec.le_def.1 hcap
  exact ⟨_, (exec_fcnt_eq_next s _).2 (.inl ⟨hlt, hin, hin.trans_le hcap, rfl⟩), readFt_writeFt_same _ _ _,
    fun b hb => readFt_writeFt_other s _ hb, rfl⟩

/-! ## Counting the input -/

/-- The table holds the number of occurrences of each byte value in the first `k` bytes of the input. -/
def CountedTo (k : Nat) (s : State) : Prop :=
  ∀ b, (readFt s b).toNat = ((List.range k).map (inByte s)).count b

theorem countedTo_zero_of_cleared {s : State} (h : s.ft = clearedFt) : CountedTo 0 s := fun b => by
  rw [readFt_of_cleared h]
  rfl

/-- Only the table, the input memory and the count of resets matter. -/
theorem CountedTo.congr {k : Nat} {s t : State} (h : CountedTo k s) (hft : t.ft = s.ft) (hm : t.inMem = s.inMem)
    (he : t.epoch = s.epoch) : CountedTo k t := fun b => by
  rw [readFt, hft, he, funext (inByte_congr hm he)]
  exact h b

/-- One more byte counted, while no count can reach 2^32. -/
theorem CountedTo.succ {k : Nat} {s : State} (h : CountedTo k s) (hk : k + 1 < 2 ^ 32) :
    CountedTo (k + 1) (writeFt s (inByte s k) (readFt s (inByte s k) + 1)) := fun b => by
  have hbyte : inByte (writeFt s (inByte s k) (readFt s (inByte s k) + 1)) = inByte s := rfl
  rw [hbyte, readFt_writeFt, List.range_succ, List.map_append, List.count_append, ← h b, List.map_singleton,
    List.count_singleton]
  split
  next hb =>
    subst hb
    have hle : (readFt s (inByte s k)).toNat ≤ k := by
      rw [h]
      simpa using List.count_le_length (a := inByte s k) (l := (List.range k).map (inByte s))
    simp only [BEq.rfl, if_true]
    bv_omega
  next hb => simp [Ne.symm hb]

/-- From FCNT with `m` bytes left to count, `m` counts and the exit. -/
theorem fcnt_run (m : Nat) {s : State} (r : Runs s.mode .fcnt s) (hlen : s.origLen.toNat = s.inLen.toNat)
    (hcap : s.inLen.toNat ≤ s.params.inCap.toNat) (hpos : s.ipos.toNat + m = s.inLen.toNat)
    (hc : CountedTo s.ipos.toNat s) :
    ∃ t, runFor (m + 1) s = .next t ∧ CountedTo s.inLen.toNat t ∧
      t = { s with ft := t.ft, ipos := t.ipos, phase := .seed } := by
  induction m generalizing s with
  | zero =>
    have hx : exec .fcnt s = .next { s with phase := .seed } := (exec_fcnt_eq_next s _).2 (.inr ⟨by omega, rfl⟩)
    rw [← hpos]
    exact ⟨_, runFor_of_step ((step_of_runs r).trans hx) 0, hc, rfl⟩
  | succ m ih =>
    have hsmall := s.origLen.isLt
    have hnext : (s.ipos + 1).toNat = s.ipos.toNat + 1 := by bv_omega
    have hx := (exec_fcnt_eq_next s _).2 (.inl ⟨by omega, by omega, by omega, rfl⟩)
    obtain ⟨t, hrun, hcount, ht⟩ := ih
      (s := { writeFt s (inByte s s.ipos.toNat) (readFt s (inByte s s.ipos.toNat) + 1) with ipos := s.ipos + 1 })
      ⟨r.busy, r.host, rfl, r.phase⟩ hlen hcap (hnext ▸ by change _ = s.inLen.toNat; omega)
      (hnext ▸ (hc.succ (by omega)).congr rfl rfl rfl)
    exact ⟨t, (runFor_of_step ((step_of_runs r).trans hx) _).trans hrun, hcount, ht⟩

/-- Settles O22: FCLR has counted no byte, and the run of FCNT counts them all. -/
theorem frequencyTableCountsTheInput : Obligations.FrequencyTableCountsTheInput := by
  intro s hb hh hp hlen hcap
  have r : Runs s.mode .fclr s := ⟨hb, hh, rfl, hp⟩
  have hx := (exec_fclr_eq_next s _).2 rfl
  obtain ⟨t, hrun, hcount, ht⟩ := fcnt_run s.inLen.toNat (s := { s.setFt clearedFt with ipos := 0, phase := .fcnt })
    ⟨hb, hh, rfl, rfl⟩ hlen (BitVec.le_def.1 hcap) (Nat.zero_add _) (countedTo_zero_of_cleared rfl)
  have hinput : inputOf s = (List.range s.inLen.toNat).map (inByte t) := by
    rw [ht]
    rfl
  refine ⟨t, (runFor_of_step ((step_of_runs r).trans hx) _).trans hrun, by rw [ht], fun b => ?_, ht⟩
  rw [hinput]
  exact hcount b

/-! ## The seed order -/

section
variable {ft : Byte → BitVec 32}

/-- R114: descending by frequency, then ascending by symbol value. -/
theorem seedBefore_iff {a b : Byte} : seedBefore ft a b = true ↔ ft b < ft a ∨ (ft a = ft b ∧ a < b) := by
  simp [seedBefore]

theorem seedBefore_trans {a b c : Byte} (hab : seedBefore ft a b = true) (hbc : seedBefore ft b c = true) :
    seedBefore ft a c = true := by
  rw [seedBefore_iff] at *
  bv_omega

/-- Of two symbols one precedes the other. -/
theorem seedBefore_swap_of_not {a b : Byte} (hne : a ≠ b) (h : ¬ seedBefore ft a b = true) :
    seedBefore ft b a = true := by
  rw [seedBefore_iff] at *
  bv_omega

/-- Insertion of a new symbol keeps the seed order. -/
theorem pairwise_seedInsert {a : Byte} {l : List Byte} (hl : l.Pairwise (seedBefore ft · ·)) (ha : a ∉ l) :
    (seedInsert ft a l).Pairwise (seedBefore ft · ·) := by
  induction l with
  | nil => exact List.pairwise_singleton _ _
  | cons b rest ih =>
    obtain ⟨hb, hrest⟩ := List.pairwise_cons.1 hl
    obtain ⟨hne, ha⟩ := not_or.1 (mt List.mem_cons.2 ha)
    rw [seedInsert]
    split
    next hab =>
      refine List.pairwise_cons.2 ⟨fun c hc => ?_, hl⟩
      rcases List.mem_cons.1 hc with rfl | hc
      · exact hab
      · exact seedBefore_trans hab (hb c hc)
    next hab =>
      refine List.pairwise_cons.2 ⟨fun c hc => ?_, ih hrest ha⟩
      rcases (mem_seedInsert ft a c rest).1 hc with rfl | hc
      · exact seedBefore_swap_of_not hne hab
      · exact hb c hc

theorem pairwise_foldr_seedInsert {l : List Byte} (hl : l.Nodup) :
    (l.foldr (seedInsert ft) []).Pairwise (seedBefore ft · ·) := by
  induction l with
  | nil => exact List.Pairwise.nil
  | cons a rest ih =>
    obtain ⟨ha, hrest⟩ := List.nodup_cons.1 hl
    exact pairwise_seedInsert (ih hrest) fun hmem => ha ((mem_foldr_seedInsert ft a rest).1 hmem)

theorem nodup_allBytes : allBytes.Nodup := by
  refine List.nodup_range.map_on fun i hi j hj hij => ?_
  simp only [List.mem_range, alpha] at hi hj
  bv_omega

/-- The symbols present are strictly in seed order (R114). -/
theorem pairwise_seedOrder : (seedOrder ft).Pairwise (seedBefore ft · ·) :=
  pairwise_foldr_seedInsert (nodup_allBytes.filter _)

end

/-! ## SEED -/

/-- The entries beyond the leaves are as before. -/
theorem seedLeaves_beyond (ft : Byte → BitVec 32) (l : List Byte) (j : Nat) (s : State) :
    (∀ x : NodeIx, j + l.length ≤ x.toNat → nodeAt (seedLeaves ft l j s) x = nodeAt s x) ∧
      ∀ i, j + l.length ≤ i → queueAt (seedLeaves ft l j s) i = queueAt s i := by
  induction l generalizing j s with
  | nil => exact ⟨fun _ _ => rfl, fun _ _ => rfl⟩
  | cons b rest ih =>
    rw [seedLeaves, List.length_cons]
    obtain ⟨hnode, hqueue⟩ := ih (j + 1)
      ((s.setNode (sparseSet s.node j (leafNode ((ft b).setWidth 40) b))).setQ (sparseSet s.q j (BitVec.ofNat 9 j)))
    refine ⟨fun x hx => ?_, fun i hi => ?_⟩
    · rw [hnode x (by omega), nodeAt_congr (setQ_node _ _) (setQ_epoch _ _), nodeAt_set_nat, if_neg (by omega)]
    · rw [hqueue i (by omega)]
      exact (queueAt_set (s.setNode _) j i _).trans (if_neg (by omega))

/-- Settles O23: the seed order is the list of symbols, its leaves stand in that order, and nothing beyond them is
written. -/
theorem seedMakesLeavesInSeedOrder : Obligations.SeedMakesLeavesInSeedOrder := by
  intro s
  have hx := (exec_seed_eq_next s _).2 rfl
  have hs := seeded_of_exec hx
  have hframe := exec_seed_frame hx
  obtain ⟨hnodes, hqueue⟩ := seedLeaves_beyond (readFt s) (seedOrder (readFt s)) 0 s
  have hle := length_seedOrder_le (readFt s)
  have hn : (seeded s (seedOrder (readFt s))).n.toNat = (seedOrder (readFt s)).length := by rw [hs.n, hs.nn]
  refine ⟨_, seedOrder (readFt s), hx, pairwise_seedOrder.imp seedBefore_iff.1, fun b => ?_, hn, by rw [hs.qn, hs.n],
    hs.n.symm, fun j hj => ⟨?_, hs.queued j hj⟩, fun i hi => ?_, fun j hj => ?_, ?_⟩
  · rw [mem_seedOrder]
    bv_omega
  · have hnat : (BitVec.ofNat 9 j).toNat = j := toNat_ofNat_of_lt (by simp only [alpha, maxNodes] at hle ⊢; omega)
    simpa only [hnat] using hs.leaf (BitVec.ofNat 9 j) (by rwa [hnat])
  · exact (nodeAt_congr rfl rfl i).trans (hnodes i (by rw [Nat.zero_add, ← hn]; exact BitVec.le_def.1 hi))
  · exact (queueAt_congr rfl rfl j).trans (hqueue j (by rwa [Nat.zero_add, ← hn]))
  · have hphase := hs.phase
    simp only [List.length_eq_zero_iff] at hphase
    rw [hs.totbits, hs.li, hphase] at hframe
    exact hframe

end Sys2Proof.Machine
end

section
/-! PROOFS. The builder's trees (41_tree_builder.md): what the merges keep of the queue, listed from the tail, and what
that says of the tree they end with. -/

namespace Sys2Proof.Machine

/-! ## Merges -/

/-- Insertion adds one tree to the queue. -/
theorem perm_treeInsert (t : CodeTree) (q : List CodeTree) : (treeInsert t q).Perm (t :: q) := by
  induction q with
  | nil => exact .refl _
  | cons u rest ih =>
    rw [treeInsert]
    split
    · exact (ih.cons u).trans (.swap t u rest)
    · exact .refl _

/-- A merge puts one tree, of the first two, in their place. -/
theorem perm_treeMerge (a b : CodeTree) (rest : List CodeTree) :
    (treeMerge (a :: b :: rest)).Perm (.node (treeFreq a + treeFreq b) a b :: rest) :=
  perm_treeInsert _ rest

/-- What holds of the queue at first, and what each merge keeps, holds after any number of merges. -/
theorem treeMerges_keeps {P : List CodeTree → Prop}
    (merge : ∀ a b rest, P (a :: b :: rest) → P (treeMerge (a :: b :: rest))) (k : Nat) {q : List CodeTree} (h : P q) :
    P (treeMerges k q) := by
  induction k generalizing q with
  | zero => exact h
  | succ k ih =>
    refine ih ?_
    match q, h with
    | [], h => exact h
    | [_], h => exact h
    | a :: b :: rest, h => exact merge a b rest h

/-- As many merges as there are trees but one leave one tree; a merge of one tree changes nothing. -/
theorem treeMerges_eq_singleton {k : Nat} {q : List CodeTree} (hne : q ≠ []) (hk : q.length ≤ k + 1) :
    ∃ t, treeMerges k q = [t] := by
  induction k generalizing q with
  | zero => exact List.length_eq_one_iff.1 (le_antisymm hk (List.length_pos_iff.2 hne))
  | succ k ih =>
    match q, hne with
    | [t], _ => exact ih (q := [t]) (by simp) (by simp)
    | a :: b :: rest, _ =>
      have hlen := (perm_treeMerge a b rest).length_eq
      simp only [List.length_cons] at hk hlen
      exact ih (q := treeMerge (a :: b :: rest)) (List.ne_nil_of_length_pos (by omega)) (by omega)

/-- Of a leaf list that is not empty, the builder's merges leave one tree, which it answers. -/
theorem exists_buildTree {leaves : List CodeTree} (hne : leaves ≠ []) :
    ∃ t, treeMerges leaves.length leaves.reverse = [t] ∧ buildTree leaves = some t := by
  obtain ⟨t, ht⟩ := treeMerges_eq_singleton (k := leaves.length) (mt List.reverse_eq_nil_iff.1 hne) (by simp)
  exact ⟨t, ht, by rw [buildTree, ht, List.head?_cons]⟩

/-- The builder answers no tree exactly for the empty list (40 R116). -/
theorem buildTree_eq_none {leaves : List CodeTree} : buildTree leaves = none ↔ leaves = [] := by
  constructor
  · intro h
    by_contra hne
    obtain ⟨t, -, ht⟩ := exists_buildTree hne
    simp [h] at ht
  · rintro rfl
    rfl

/-- The builder's tree is the one tree its merges leave. -/
theorem treeMerges_of_buildTree {leaves : List CodeTree} {t : CodeTree} (h : buildTree leaves = some t) :
    treeMerges leaves.length leaves.reverse = [t] := by
  obtain ⟨u, hu, hu'⟩ := exists_buildTree (leaves := leaves) fun e => by simp [buildTree_eq_none.2 e] at h
  rw [hu, Option.some.inj (hu'.symm.trans h)]

/-! ## Leaves and sums -/

@[simp] theorem treeFreq_leaf (f : Nat) (b : Byte) : treeFreq (.leaf f b) = f := rfl

@[simp] theorem treeFreq_node (f : Nat) (l r : CodeTree) : treeFreq (.node f l r) = f := rfl

/-- The frequency of every internal node is the sum of its children's (41 R122). -/
def Summed : CodeTree → Prop
  | .leaf _ _ => True
  | .node f l r => f = treeFreq l + treeFreq r ∧ Summed l ∧ Summed r

/-- The leaves of a tree without their depths. -/
def treeRecords (t : CodeTree) : List (Nat × Byte) := (treeLeaves 0 t).map fun x => (x.1, x.2.1)

/-- The leaves without their depths do not depend on the depth of the root. -/
theorem map_treeLeaves (d : Nat) (t : CodeTree) : (treeLeaves d t).map (fun x => (x.1, x.2.1)) = treeRecords t := by
  induction t generalizing d with
  | leaf f b => rfl
  | node f l r ihl ihr =>
    rw [treeRecords, treeLeaves, treeLeaves, List.map_append, List.map_append, ihl, ihr, ihl, ihr]

@[simp] theorem treeRecords_leaf (f : Nat) (b : Byte) : treeRecords (.leaf f b) = [(f, b)] := rfl

@[simp] theorem treeRecords_node (f : Nat) (l r : CodeTree) :
    treeRecords (.node f l r) = treeRecords l ++ treeRecords r := by
  rw [treeRecords, treeLeaves, List.map_append, map_treeLeaves, map_treeLeaves]

/-- Where every node sums its children, the root sums the leaves. -/
theorem Summed.treeFreq_eq {t : CodeTree} (h : Summed t) : treeFreq t = ((treeRecords t).map Prod.fst).sum := by
  induction t with
  | leaf f b => simp
  | node f l r ihl ihr =>
    obtain ⟨rfl, hl, hr⟩ := h
    simp [ihl hl, ihr hr]

/-- The queue holds trees that sum their children, and the given leaves in some order. -/
def HoldsLeaves (leaves : List (Nat × Byte)) (q : List CodeTree) : Prop :=
  (∀ t ∈ q, Summed t) ∧ (q.flatMap treeRecords).Perm leaves

theorem summed_merge {a b : CodeTree} {rest : List CodeTree} (h : ∀ t ∈ a :: b :: rest, Summed t) :
    ∀ t ∈ treeMerge (a :: b :: rest), Summed t := by
  intro t ht
  simp only [List.mem_cons, forall_eq_or_imp] at h
  obtain ⟨ha, hb, hrest⟩ := h
  rcases List.mem_cons.1 ((perm_treeMerge a b rest).mem_iff.1 ht) with rfl | ht
  · exact ⟨rfl, ha, hb⟩
  · exact hrest t ht

theorem summed_recordTrees (leaves : List LeafRecord) : ∀ t ∈ (leaves.map recordTree).reverse, Summed t := by
  intro t ht
  rw [List.mem_reverse, List.mem_map] at ht
  obtain ⟨l, -, rfl⟩ := ht
  trivial

theorem holdsLeaves_merge {leaves : List (Nat × Byte)} (a b : CodeTree) (rest : List CodeTree)
    (h : HoldsLeaves leaves (a :: b :: rest)) : HoldsLeaves leaves (treeMerge (a :: b :: rest)) := by
  obtain ⟨hsum, hperm⟩ := h
  refine ⟨summed_merge hsum, .trans ?_ hperm⟩
  exact ((perm_treeMerge a b rest).flatMap_right treeRecords).trans (.of_eq (by simp))

theorem holdsLeaves_recordTrees (leaves : List LeafRecord) :
    HoldsLeaves (leaves.map fun l => (l.freq.toNat, l.sym)) (leaves.map recordTree).reverse := by
  refine ⟨summed_recordTrees leaves, ((List.reverse_perm _).flatMap_right treeRecords).trans (.of_eq ?_)⟩
  rw [List.flatMap_map, List.map_eq_flatMap]
  rfl

/-- Settles O10: every merge keeps the leaves and the sums, and one tree is left. -/
theorem builderKeepsTheLeaves : Obligations.BuilderKeepsTheLeaves := by
  intro leaves
  refine ⟨buildTree_eq_none.trans List.map_eq_nil_iff, fun t ht => ?_⟩
  obtain ⟨hsum, hperm⟩ := treeMerges_of_buildTree ht ▸
    treeMerges_keeps holdsLeaves_merge _ (holdsLeaves_recordTrees leaves)
  have hperm : (treeRecords t).Perm (leaves.map fun l => (l.freq.toNat, l.sym)) := by simpa using hperm
  refine ⟨hperm, ?_⟩
  rw [(hsum t (List.mem_singleton_self t)).treeFreq_eq, (hperm.map Prod.fst).sum_eq, List.map_map]
  rfl

/-! ## Nodes and their depths -/

/-- The children of a tree's root. -/
def treeChildren : CodeTree → List CodeTree
  | .leaf _ _ => []
  | .node _ l r => [l, r]

/-- The nodes of a tree, each with the subtree below it. -/
def treeNodes : CodeTree → List CodeTree
  | .leaf f b => [.leaf f b]
  | .node f l r => .node f l r :: (treeNodes l ++ treeNodes r)

/-- The nodes of a tree with their depths. -/
def treeNodesAt : Nat → CodeTree → List (Nat × CodeTree)
  | d, .leaf f b => [(d, .leaf f b)]
  | d, .node f l r => (d, .node f l r) :: (treeNodesAt (d + 1) l ++ treeNodesAt (d + 1) r)

theorem map_treeNodesAt (d : Nat) (t : CodeTree) : (treeNodesAt d t).map Prod.snd = treeNodes t := by
  induction t generalizing d with
  | leaf f b => rfl
  | node f l r ihl ihr => simp [treeNodesAt, treeNodes, ihl, ihr]

/-- A leaf is a node at its depth. -/
theorem mem_treeNodesAt_of_leaf {t : CodeTree} {d k f : Nat} {b : Byte} (h : (f, b, k) ∈ treeLeaves d t) :
    (k, .leaf f b) ∈ treeNodesAt d t := by
  induction t generalizing d with
  | leaf g c =>
    obtain ⟨rfl, rfl, rfl⟩ : f = g ∧ b = c ∧ k = d := by simpa [treeLeaves] using h
    exact List.mem_singleton_self _
  | node g l r ihl ihr =>
    rw [treeLeaves, List.mem_append] at h
    exact List.mem_cons_of_mem _ (List.mem_append.2 (h.imp ihl ihr))

/-- The root is a node at its depth. -/
theorem root_mem_treeNodesAt (d : Nat) (t : CodeTree) : (d, t) ∈ treeNodesAt d t := by
  cases t <;> simp [treeNodesAt]

/-- A node is the root, or a child of a node one level up. -/
theorem parent_of_mem_treeNodesAt {t u : CodeTree} {d k : Nat} (h : (k, u) ∈ treeNodesAt d t) :
    (k = d ∧ u = t) ∨ ∃ j p, k = j + 1 ∧ (j, p) ∈ treeNodesAt d t ∧ u ∈ treeChildren p := by
  induction t generalizing d with
  | leaf f b => exact .inl (by simpa [treeNodesAt] using h)
  | node f l r ihl ihr =>
    rw [treeNodesAt, List.mem_cons, List.mem_append, Prod.mk.injEq] at h
    rcases h with h | h | h
    · exact .inl h
    · refine .inr ?_
      rcases ihl h with ⟨rfl, rfl⟩ | ⟨j, p, hj, hp, hu⟩
      · exact ⟨d, _, rfl, root_mem_treeNodesAt d _, by simp [treeChildren]⟩
      · exact ⟨j, p, hj, List.mem_cons_of_mem _ (List.mem_append_left _ hp), hu⟩
    · refine .inr ?_
      rcases ihr h with ⟨rfl, rfl⟩ | ⟨j, p, hj, hp, hu⟩
      · exact ⟨d, _, rfl, root_mem_treeNodesAt d _, by simp [treeChildren]⟩
      · exact ⟨j, p, hj, List.mem_cons_of_mem _ (List.mem_append_right _ hp), hu⟩

/-- Where every node sums its children, so does every subtree's, and no node exceeds the root. -/
theorem Summed.of_mem_treeNodesAt {t u : CodeTree} {d k : Nat} (h : Summed t) (hu : (k, u) ∈ treeNodesAt d t) :
    Summed u ∧ treeFreq u ≤ treeFreq t := by
  induction t generalizing d with
  | leaf f b =>
    obtain ⟨-, rfl⟩ : k = d ∧ u = .leaf f b := by simpa [treeNodesAt] using hu
    exact ⟨h, le_rfl⟩
  | node f l r ihl ihr =>
    rw [treeNodesAt, List.mem_cons, List.mem_append, Prod.mk.injEq] at hu
    rcases hu with ⟨-, rfl⟩ | hu | hu
    · exact ⟨h, le_rfl⟩
    · obtain ⟨hf, hl, -⟩ := h
      exact (ihl hl hu).imp_right fun hle => hle.trans (hf ▸ Nat.le_add_right _ _)
    · obtain ⟨hf, -, hr⟩ := h
      exact (ihr hr hu).imp_right fun hle => hle.trans (hf ▸ Nat.le_add_left _ _)

/-! ## The order in which nodes are taken -/

/-- No child of the first node is more frequent than a child of the second. -/
def ChildrenLe (u v : CodeTree) : Prop := ∀ x ∈ treeChildren u, ∀ y ∈ treeChildren v, treeFreq x ≤ treeFreq y

/-- One of two nodes took its children off the queue before the other did. -/
def ChildrenOrdered (u v : CodeTree) : Prop := ChildrenLe u v ∨ ChildrenLe v u

/-- Of two nodes whose children are ordered, the less frequent has the less frequent children, up to ties. -/
theorem childrenLe_of_treeFreq_le {u v : CodeTree} (hu : Summed u) (hv : Summed v) (ho : ChildrenOrdered u v)
    (hle : treeFreq u ≤ treeFreq v) : ChildrenLe u v := by
  rcases ho with ho | ho
  · exact ho
  · match u, v, hu, hv with
    | .leaf _ _, _, _, _ => simp [ChildrenLe, treeChildren]
    | .node _ _ _, .leaf _ _, _, _ => simp [ChildrenLe, treeChildren]
    | .node f l r, .node f' l' r', ⟨hf, _, _⟩, ⟨hf', _, _⟩ =>
      simp only [ChildrenLe, treeChildren, List.mem_cons, List.not_mem_nil, or_false, forall_eq_or_imp, forall_eq,
        treeFreq_node] at ho hle ⊢
      omega

/-- In a tree whose nodes sum their children and took them one after another, a node strictly deeper than another is no
more frequent (41 R131). -/
theorem treeFreq_le_of_deeper {t : CodeTree} (hsum : Summed t) (hord : (treeNodes t).Pairwise ChildrenOrdered)
    {k k' : Nat} {u v : CodeTree} (hu : (k, u) ∈ treeNodesAt 0 t) (hv : (k', v) ∈ treeNodesAt 0 t) (hlt : k' < k) :
    treeFreq u ≤ treeFreq v := by
  induction k' generalizing k u v with
  | zero =>
    obtain ⟨-, rfl⟩ := (parent_of_mem_treeNodesAt hv).resolve_right (by simp)
    exact (hsum.of_mem_treeNodesAt hu).2
  | succ k' ih =>
    obtain ⟨_, p', hk', hp', hv⟩ := (parent_of_mem_treeNodesAt hv).resolve_left (by simp)
    obtain ⟨j, p, rfl, hp, hu⟩ := (parent_of_mem_treeNodesAt hu).resolve_left (by omega)
    obtain rfl := Nat.succ.inj hk'
    have hparents : treeFreq p ≤ treeFreq p' := ih hp hp' (by omega)
    rw [← map_treeNodesAt 0, List.pairwise_map] at hord
    have hsymm : Std.Symm fun x y : Nat × CodeTree => ChildrenOrdered x.2 y.2 := ⟨fun _ _ h => h.symm⟩
    have hordered : ChildrenOrdered p p' := hord.forall hp hp' fun e => by cases e; omega
    exact childrenLe_of_treeFreq_le (hsum.of_mem_treeNodesAt hp).1 (hsum.of_mem_treeNodesAt hp').1 hordered hparents u hu
      v hv

/-! ## The invariant of the merges -/

/-- What holds between two merges of a queue listed from the tail: it ascends in frequency (41 R128), and the children
of every node made so far came off it one pair after another, none more frequent than what is still queued. -/
structure TakenInOrder (q : List CodeTree) : Prop where
  ordered : q.Pairwise (treeFreq · ≤ treeFreq ·)
  summed : ∀ t ∈ q, Summed t
  nodes : (q.flatMap treeNodes).Pairwise ChildrenOrdered
  taken : ∀ u ∈ q.flatMap treeNodes, ∀ x ∈ treeChildren u, ∀ t ∈ q, treeFreq x ≤ treeFreq t

/-- Insertion keeps a queue ascending. -/
theorem pairwise_treeInsert (t : CodeTree) {q : List CodeTree} (h : q.Pairwise (treeFreq · ≤ treeFreq ·)) :
    (treeInsert t q).Pairwise (treeFreq · ≤ treeFreq ·) := by
  induction q with
  | nil => exact List.pairwise_singleton _ _
  | cons u rest ih =>
    obtain ⟨hu, hrest⟩ := List.pairwise_cons.1 h
    rw [treeInsert]
    split
    next hlt =>
      refine List.pairwise_cons.2 ⟨fun v hv => ?_, ih hrest⟩
      rcases List.mem_cons.1 ((perm_treeInsert t rest).mem_iff.1 hv) with rfl | hv
      · exact hlt.le
      · exact hu v hv
    next hlt =>
      have hle := Nat.le_of_not_lt hlt
      refine List.pairwise_cons.2 ⟨fun v hv => ?_, h⟩
      rcases List.mem_cons.1 hv with rfl | hv
      · exact hle
      · exact hle.trans (hu v hv)

theorem takenInOrder_merge (a b : CodeTree) (rest : List CodeTree) (h : TakenInOrder (a :: b :: rest)) :
    TakenInOrder (treeMerge (a :: b :: rest)) := by
  obtain ⟨hord, hsum, hnodes, htaken⟩ := h
  have hmerge := perm_treeMerge a b rest
  have hperm : ((treeMerge (a :: b :: rest)).flatMap treeNodes).Perm
      (.node (treeFreq a + treeFreq b) a b :: (a :: b :: rest).flatMap treeNodes) :=
    (hmerge.flatMap_right treeNodes).trans (.of_eq (by simp [treeNodes]))
  obtain ⟨ha, hb, hrest⟩ := by simpa only [List.pairwise_cons] using hord
  have hlow : ∀ t ∈ treeMerge (a :: b :: rest), treeFreq a ≤ treeFreq t ∧ treeFreq b ≤ treeFreq t := by
    intro t ht
    rcases List.mem_cons.1 (hmerge.mem_iff.1 ht) with rfl | ht
    · simp
    · exact ⟨ha t (List.mem_cons_of_mem b ht), hb t ht⟩
  refine ⟨pairwise_treeInsert _ hrest, summed_merge hsum, ?_, fun u hu x hx t ht => ?_⟩
  · refine (hperm.pairwise_iff fun h => h.symm).2 (List.pairwise_cons.2 ⟨fun v hv => .inr ?_, hnodes⟩)
    exact fun x hx y hy => htaken v hv x hx y (List.mem_append_left rest hy)
  · obtain ⟨hat, hbt⟩ := hlow t ht
    rcases List.mem_cons.1 (hperm.mem_iff.1 hu) with rfl | hu
    · simp only [treeChildren, List.mem_cons, List.not_mem_nil, or_false] at hx
      rcases hx with rfl | rfl <;> assumption
    · exact (htaken u hu x hx a List.mem_cons_self).trans hat

/-- Leaves queued in descending order of frequency: none has children. -/
theorem takenInOrder_recordTrees {leaves : List LeafRecord}
    (h : leaves.Pairwise fun l l' => l'.freq.toNat ≤ l.freq.toNat) :
    TakenInOrder (leaves.map recordTree).reverse := by
  have hleaf : ∀ u ∈ (leaves.map recordTree).reverse.flatMap treeNodes, treeChildren u = [] := by
    simp only [List.mem_flatMap, List.mem_reverse, List.mem_map]
    rintro u ⟨_, ⟨l, -, rfl⟩, hu⟩
    obtain rfl := List.mem_singleton.1 hu
    rfl
  refine ⟨?_, summed_recordTrees leaves, ?_, fun u hu x hx => ?_⟩
  · rw [List.pairwise_reverse, List.pairwise_map]
    exact h
  · exact List.pairwise_of_forall_mem_list fun u hu v _ => .inl fun x hx => by simp [hleaf u hu] at hx
  · simp [hleaf u hu] at hx

/-- The leaf records of a buffer stand in descending order of frequency (40 R114). -/
theorem leafRecords_descending (input : List Byte) :
    (leafRecords input).Pairwise fun l l' => l'.freq.toNat ≤ l.freq.toNat := by
  refine List.pairwise_map.2 (pairwise_seedOrder.imp fun h => ?_)
  rw [seedBefore_iff] at h
  bv_omega

/-- Settles O9: a leaf deeper than another would be no more frequent. -/
theorem higherFrequencyIsNoDeeper : Obligations.HigherFrequencyIsNoDeeper := by
  intro input t _ ht f b d f' b' d' hx hy hlt
  have hq : TakenInOrder [t] := treeMerges_of_buildTree ht ▸
    treeMerges_keeps takenInOrder_merge _ (takenInOrder_recordTrees (leafRecords_descending input))
  by_contra hdeep
  have hle := treeFreq_le_of_deeper (hq.summed t (List.mem_singleton_self t)) (by simpa using hq.nodes)
    (mem_treeNodesAt_of_leaf hx) (mem_treeNodesAt_of_leaf hy) (Nat.lt_of_not_le hdeep)
  simp only [treeFreq_leaf] at hle
  omega

end Sys2Proof.Machine
end

section
/-! PROOFS. MERGE, one step at a time (41_tree_builder.md R122 to R126, R128): where the insertion scan puts the new
node, and what that says of the queue. -/

namespace Sys2Proof.Machine

/-! ## The place of the new node -/

/-- The scan answers the place behind the nearest entry whose frequency is not below `f`, the entries behind it shifted
one place toward the tail (41 R122, R124). -/
structure Scanned (f : Freq) (i : Nat) (s : State) (r : Nat × State) : Prop where
  place : r.1 ≤ i
  queue : ∀ j, queueAt r.2 j = if r.1 < j ∧ j ≤ i then queueAt s (j - 1) else queueAt s j
  stop : 0 < r.1 → f ≤ (nodeAt s (queueAt s (r.1 - 1))).freq
  passed : ∀ j, r.1 ≤ j → j < i → (nodeAt s (queueAt s j)).freq < f

/-- A scan that ends where it began has shifted nothing. -/
theorem Scanned.here {f : Freq} {i : Nat} {s : State} (h : 0 < i → f ≤ (nodeAt s (queueAt s (i - 1))).freq) :
    Scanned f i s (i, s) where
  place := le_rfl
  queue j := (if_neg (by omega)).symm
  stop := h
  passed j hj hj' := absurd hj' (Nat.not_lt.2 hj)

/-- A scan that shifts the entry before the place it begins at, and goes on. -/
theorem Scanned.shift {f : Freq} {i : Nat} {s : State} {r : Nat × State}
    (hlt : (nodeAt s (queueAt s i)).freq < f) (h : Scanned f i (s.setQ (sparseSet s.q (i + 1) (queueAt s i))) r) :
    Scanned f (i + 1) s r := by
  have hnode : ∀ x, nodeAt (s.setQ (sparseSet s.q (i + 1) (queueAt s i))) x = nodeAt s x :=
    nodeAt_congr (setQ_node _ _) (setQ_epoch _ _)
  have hold : ∀ j ≤ i, queueAt (s.setQ (sparseSet s.q (i + 1) (queueAt s i))) j = queueAt s j := fun j hj => by
    rw [queueAt_set, if_neg (by omega)]
  obtain ⟨hplace, hqueue, hstop, hpassed⟩ := h
  refine ⟨by omega, fun j => ?_, fun hpos => ?_, fun j hj hj' => ?_⟩
  · rw [hqueue]
    rcases Nat.lt_trichotomy j (i + 1) with hj | rfl | hj
    · rw [hold (j - 1) (by omega), hold j (by omega)]
      exact if_congr (by omega) rfl rfl
    · rw [if_neg (by omega), if_pos (by omega), queueAt_set, if_pos rfl, Nat.add_sub_cancel]
    · rw [if_neg (by omega), if_neg (by omega), queueAt_set, if_neg (by omega)]
  · have := hstop hpos
    rwa [hnode, hold _ (by omega)] at this
  · by_cases hji : j = i
    · rwa [hji]
    · have := hpassed j hj (by omega)
      rwa [hnode, hold _ (by omega)] at this

theorem scanned_of_insertScan {f : Freq} {i : Nat} {s : State} {r : Nat × State} (h : insertScan f i s = .ok r) :
    Scanned f i s r := by
  induction i generalizing s with
  | zero =>
    cases h
    exact .here (by omega)
  | succ i ih =>
    simp only [insertScan, bind_eq_ok, readQ_eq_ok, readNode_eq_ok] at h
    obtain ⟨_, ⟨-, rfl⟩, _, ⟨-, rfl⟩, h⟩ := h
    split at h
    next hlt =>
      simp only [bind_eq_ok, writeQ_eq_ok] at h
      obtain ⟨_, ⟨-, rfl⟩, h⟩ := h
      exact (ih h).shift hlt
    next hlt =>
      cases h
      exact .here fun _ => BitVec.not_lt.1 hlt

/-! ## One merge -/

/-- The queue's entries are nodes, and none is the one a merge makes. -/
abbrev QueueBelow (s : State) : Prop := ∀ j < s.qn.toNat, (queueAt s j).toNat < maxNodes ∧ queueAt s j ≠ s.nn

/-- The queue after a merge: the new node at place `i`, the entries behind it shifted one place toward the tail. -/
structure PlacedAt (s t : State) (i : Nat) : Prop where
  room : i + 2 ≤ s.qn.toNat
  before : ∀ j < i, queueAt t j = queueAt s j
  new : queueAt t i = s.nn
  behind : ∀ j, i < j → j + 1 < s.qn.toNat → queueAt t j = queueAt s (j - 1)
  stop : 0 < i → joinedFreq s (tailEntry s) (secondEntry s) ≤ (nodeAt s (queueAt s (i - 1))).freq
  passed : ∀ j, i ≤ j → j + 2 < s.qn.toNat →
    (nodeAt s (queueAt s j)).freq < joinedFreq s (tailEntry s) (secondEntry s)

section
variable {s t : State} (hq : 2 ≤ s.qn.toNat) (hbelow : QueueBelow s) (ht : mergeOnce s = .ok t)
include hq hbelow ht

theorem joins_of_queueBelow : Joins s t (tailEntry s) (secondEntry s) := by
  obtain ⟨-, ha⟩ := hbelow (s.qn.toNat - 1) (by omega)
  obtain ⟨-, hb⟩ := hbelow (s.qn.toNat - 2) (by omega)
  exact joins_of_mergeOnce ht ha hb

/-- The entries of the queue keep their frequencies. -/
theorem freq_mergeOnce {j : Nat} (hj : j < s.qn.toNat) :
    (nodeAt t (queueAt s j)).freq = (nodeAt s (queueAt s j)).freq := by
  obtain ⟨-, hne⟩ := hbelow j hj
  obtain ⟨hfreq, -⟩ := (joins_of_queueBelow hq hbelow ht).children hne
  exact hfreq

theorem placedAt_of_mergeOnce : ∃ i, PlacedAt s t i := by
  have hstart : (s.qn - 2).toNat = s.qn.toNat - 2 := by bv_omega
  have hfreq : ∀ j < s.qn.toNat, (nodeAt (joined s (tailEntry s) (secondEntry s)) (queueAt s j)).freq =
      (nodeAt s (queueAt s j)).freq := fun j hj => by
    rw [← nodeAt_mergeOnce ht]
    exact freq_mergeOnce hq hbelow ht hj
  obtain ⟨-, r, hr, -, rfl⟩ := (mergeOnce_eq_ok s t).1 ht
  rw [mergeScan, hstart] at hr
  obtain ⟨hplace, hqueue, hstop, hpassed⟩ := scanned_of_insertScan hr
  simp only [queueAt_joined] at hqueue hstop hpassed
  refine ⟨r.1, by omega, fun j hj => ?_, ?_, fun j hj hj' => ?_, fun hpos => ?_, fun j hj hj' => ?_⟩
  · rw [queueAt_enqueued, if_neg (by omega), hqueue, if_neg (by omega)]
  · rw [queueAt_enqueued, if_pos rfl]
  · rw [queueAt_enqueued, if_neg (by omega), hqueue, if_pos (by omega)]
  · have := hstop hpos
    rwa [hfreq _ (by omega)] at this
  · have := hpassed j hj (by omega)
    rwa [hfreq _ (by omega)] at this

end

/-- Settles O24: the nodes by `Joins`, the queue by the place the insertion scan finds. -/
theorem mergeJoinsTheTwoTailEntries : Obligations.MergeJoinsTheTwoTailEntries := by
  intro s hq hmax hnn hbelow a b f
  obtain ⟨t, ht⟩ : ∃ t, mergeOnce s = .ok t := by
    refine mergeOnce_answers hq hmax hnn fun x hx => ?_
    obtain ⟨j, hj, rfl⟩ := mem_queue.1 hx
    exact (hbelow j hj).1
  obtain ⟨i, hi⟩ := placedAt_of_mergeOnce hq hbelow ht
  have hjoins := joins_of_queueBelow hq hbelow ht
  have hframe := mergeOnce_frame ht
  have hnn' : t.nn = s.nn + 1 := by rw [hframe]
  have hqn' : t.qn = s.qn - 2 + 1 := by rw [hframe]
  exact ⟨t, i, (exec_merge_eq_next s t).2 (.inl ⟨hq, ht⟩), hjoins.new, hjoins.child _ (.inl rfl),
    hjoins.child _ (.inr rfl), hjoins.other, hnn', qn_mergeOnce ht hq, hi.room, hi.before, hi.new, hi.behind, hi.stop,
    hi.passed, by rw [hnn', hqn']; exact hframe⟩

/-- Settles O25: the exit branch of MERGE. -/
theorem mergeExitTakesTheRoot : Obligations.MergeExitTakesTheRoot := by
  intro s hqn
  exact (exec_merge_eq_next s _).2 (.inr ⟨by rw [hqn]; decide, rfl⟩)

/-! ## The order of the queue -/

/-- In an ordered queue an entry nearer the tail is no more frequent. -/
theorem QueueOrdered.le {s : State} (h : QueueOrdered s) {j k : Nat} (hjk : j ≤ k) (hk : k < s.qn.toNat) :
    (nodeAt s (queueAt s k)).freq ≤ (nodeAt s (queueAt s j)).freq := by
  induction k, hjk using Nat.le_induction with
  | base => exact BitVec.le_refl _
  | succ k _ ih => exact BitVec.le_trans (h k hk) (ih (by omega))

/-- The new node's place keeps the queue ordered: the neighbours before it are not below it, those behind it are. -/
theorem QueueOrdered.mergeOnce {s t : State} (h : QueueOrdered s) (hq : 2 ≤ s.qn.toNat) (hbelow : QueueBelow s)
    (ht : mergeOnce s = .ok t) : QueueOrdered t := by
  intro j hj
  have hlen := qn_mergeOnce ht hq
  obtain ⟨i, hroom, hbefore, hnew, hbehind, hstop, hpassed⟩ := placedAt_of_mergeOnce hq hbelow ht
  have hfreq := fun k (hk : k < s.qn.toNat) => freq_mergeOnce hq hbelow ht hk
  have hnewfreq : (nodeAt t (queueAt t i)).freq = joinedFreq s (tailEntry s) (secondEntry s) := by
    rw [hnew, (joins_of_queueBelow hq hbelow ht).new]
  rcases Nat.lt_trichotomy j i with hji | rfl | hji
  · rw [hbefore j hji, hfreq j (by omega)]
    by_cases hi : j + 1 = i
    · subst hi
      rw [hnewfreq]
      exact hstop (Nat.succ_pos j)
    · rw [hbefore (j + 1) (by omega), hfreq (j + 1) (by omega)]
      exact h j (by omega)
  · rw [hnewfreq, hbehind (j + 1) (by omega) (by omega), Nat.add_sub_cancel, hfreq j (by omega)]
    exact BitVec.le_of_lt (hpassed j le_rfl (by omega))
  · rw [hbehind j hji (by omega), hbehind (j + 1) (by omega) (by omega), hfreq _ (by omega), hfreq _ (by omega)]
    exact h.le (by omega) (by omega)

/-- Settles O26: the two entries taken stand behind all the others. -/
theorem mergeKeepsTheQueueOrdered : Obligations.MergeKeepsTheQueueOrdered := by
  intro s t hq _ _ hbelow hord hx
  have ht : mergeOnce s = .ok t := by
    rcases (exec_merge_eq_next s t).1 hx with ⟨-, ht⟩ | ⟨hlt, -⟩
    · exact ht
    · omega
  exact ⟨hord.mergeOnce hq hbelow ht, fun j hj => ⟨hord.le (by omega) (by omega), hord.le (by omega) (by omega)⟩⟩

end Sys2Proof.Machine
end

section
/-! PROOFS. The code assigner (42_code_assigner.md): the codes of a tree are its paths, no code a prefix of another's
(R145), and ASSIGN's walk toward the root collects the path from the root (R141, R142). -/

namespace Sys2Proof.Machine

/-! ## The codes of a tree -/

theorem codeOf_leaf_eq_some {f : Nat} {b c : Byte} {p : List Bool} :
    codeOf b (.leaf f c) = some p ↔ c = b ∧ p = [] := by
  rw [codeOf, Option.ite_none_right_eq_some, Option.some_inj, eq_comm (a := p)]

/-- A code in a branching tree goes left to a code of the left subtree, or right to one of the right subtree. -/
theorem codeOf_node_cases {f : Nat} {b : Byte} {l r : CodeTree} {p : List Bool}
    (h : codeOf b (.node f l r) = some p) :
    (∃ q, codeOf b l = some q ∧ p = false :: q) ∨ ∃ q, codeOf b r = some q ∧ p = true :: q := by
  rw [codeOf] at h
  cases hl : codeOf b l with
  | some q =>
    rw [hl] at h
    exact .inl ⟨q, rfl, (Option.some.inj h).symm⟩
  | none =>
    rw [hl] at h
    obtain ⟨q, hq, rfl⟩ := Option.map_eq_some_iff.1 h
    exact .inr ⟨q, hq, rfl⟩

/-- Settles O8, by induction on the tree: at a branching node two codes part, or both go on in one subtree. -/
theorem codesArePrefixFree : Obligations.CodesArePrefixFree := by
  intro t a b p r hab hp hr hpre
  induction t generalizing p r with
  | leaf f c =>
    obtain ⟨rfl, -⟩ := codeOf_leaf_eq_some.1 hp
    obtain ⟨rfl, -⟩ := codeOf_leaf_eq_some.1 hr
    exact hab rfl
  | node f u v ihu ihv =>
    rcases codeOf_node_cases hp with ⟨p', hp', rfl⟩ | ⟨p', hp', rfl⟩ <;>
      rcases codeOf_node_cases hr with ⟨r', hr', rfl⟩ | ⟨r', hr', rfl⟩ <;>
      obtain ⟨hbit, hpre'⟩ := List.cons_prefix_cons.1 hpre
    · exact ihu _ _ hp' hr' hpre'
    · cases hbit
    · cases hbit
    · exact ihv _ _ hp' hr' hpre'

/-! ## The bits a walk collects -/

/-- A path's bits entered at position 0, the branch nearest the root last (42 R141). -/
def enterPath (path : List Bool) (bits : BitVec 255) : BitVec 255 := path.foldr (fun b acc => acc.shiftConcat b) bits

theorem enterPath_cons (b : Bool) (path : List Bool) (bits : BitVec 255) :
    enterPath (b :: path) bits = (enterPath path bits).shiftConcat b := rfl

/-- The walk meets the last branch of a path first. -/
theorem enterPath_append_singleton (path : List Bool) (b : Bool) (bits : BitVec 255) :
    enterPath (path ++ [b]) bits = enterPath path (bits.shiftConcat b) := List.foldr_append

/-- The bit at position `i` is the branch at depth `i`, and 0 at and above the path's length (42 R142). -/
theorem getLsbD_enterPath_zero {path : List Bool} (h : path.length ≤ 255) (i : Nat) :
    (enterPath path 0#255).getLsbD i = path.getD i false := by
  induction path generalizing i with
  | nil => exact BitVec.getLsbD_zero
  | cons b path ih =>
    have hlen : path.length < 255 := h
    rw [enterPath_cons, BitVec.getLsbD_shiftConcat]
    cases i with
    | zero => rfl
    | succ i =>
      rw [List.getD_cons_succ, ← ih hlen.le]
      by_cases hi : i + 1 < 255
      · simp [hi]
      · have hzero : (enterPath path 0#255).getLsbD i = false := by
          rw [ih hlen.le, List.getD_eq_default _ _ (by omega)]
        simp [hi, hzero]

/-- A level of the walk enters its bit at position 0 (42 R141). -/
theorem shiftLeft_or_ite_eq_shiftConcat (bits : BitVec 255) (c : Prop) [Decidable c] :
    (bits <<< 1) ||| (if c then 1#255 else 0#255) = bits.shiftConcat (decide c) := by
  ext i hi
  rw [BitVec.getElem_shiftConcat]
  by_cases h : c <;> cases i <;> simp [h]

/-! ## ASSIGN's walk -/

section
variable {s : State} {n : NodeIx} {path : List Bool}

theorem walkUp_of_parent_eq_nil (hn : n.toNat < maxNodes) (htop : (nodeAt s n).parent = nil) (fuel : Nat)
    (bits : BitVec 255) (len : BitVec 8) : walkUp s fuel n bits len = .ok (bits, len) := by
  cases fuel <;> rw [walkUp, (readNode_eq_ok s n _).2 ⟨hn, rfl⟩, ok_bind, if_pos htop]

theorem walkUp_of_parent_ne_nil (hn : n.toNat < maxNodes) (hbelow : (nodeAt s n).parent ≠ nil)
    (hparent : (nodeAt s n).parent.toNat < maxNodes) (fuel : Nat) (bits : BitVec 255) (len : BitVec 8) :
    walkUp s (fuel + 1) n bits len =
      walkUp s fuel (nodeAt s n).parent (bits.shiftConcat (decide ((nodeAt s (nodeAt s n).parent).right = n)))
        (len + 1#8) := by
  rw [walkUp, (readNode_eq_ok s n _).2 ⟨hn, rfl⟩, ok_bind, if_neg hbelow]
  simp only [(readNode_eq_ok s _ _).2 ⟨hparent, rfl⟩, ok_bind, BitVec.ofNat_eq_ofNat,
    shiftLeft_or_ite_eq_shiftConcat]

theorem RootPath.toNat_lt (h : RootPath s n path) : n.toNat < maxNodes := by
  cases h <;> assumption

/-- A walk with fuel for the node's path ends at the root, with the path's bits and its number of branches (42 R141). -/
theorem RootPath.walkUp (h : RootPath s n path) {fuel : Nat} (hfuel : path.length ≤ fuel) (bits : BitVec 255)
    (len : BitVec 8) : walkUp s fuel n bits len = .ok (enterPath path bits, len + BitVec.ofNat 8 path.length) := by
  induction h generalizing fuel bits len with
  | root n hn htop =>
    rw [walkUp_of_parent_eq_nil hn htop, List.length_nil, BitVec.add_zero]
    rfl
  | down n path hn hbelow habove ih =>
    rw [List.length_append, List.length_singleton] at hfuel ⊢
    obtain ⟨fuel, rfl⟩ := Nat.exists_eq_add_of_le' (Nat.le_of_add_left_le hfuel)
    rw [walkUp_of_parent_ne_nil hn hbelow habove.toNat_lt, ih (Nat.le_of_add_le_add_right hfuel),
      enterPath_append_singleton, BitVec.add_assoc, Nat.add_comm, BitVec.ofNat_add]

end

/-- ASSIGN changes the code of the leaf's symbol alone (42 R141). -/
theorem readCode_assigned (s : State) (c : BitVec 255 × BitVec 8) (b : Byte) :
    readCode (assigned s c) b = if b = (nodeAt s s.li).sym then ⟨c.1, c.2⟩ else readCode s b :=
  readCode_writeCode s _ b _

/-- What ASSIGN leaves for a leaf at the end of a path that its length register holds (42 R141, R142, R144). -/
theorem exec_assign_of_rootPath {s : State} {path : List Bool} (hli : s.li < s.n) (hpath : RootPath s s.li path)
    (hlen : path.length ≤ 255) :
    exec .assign s = .next (assigned s (enterPath path 0#255, BitVec.ofNat 8 path.length)) := by
  have hwalk := hpath.walkUp (fuel := maxNodes) (hlen.trans (by decide)) 0#255 0#8
  exact (exec_assign_eq_next s _).2 (.inl ⟨hli, _, hwalk, hpath.toNat_lt, by rw [BitVec.zero_add]⟩)

/-- Settles O28: the walk from leaf `LI` collects its path from the root, and the leaf's symbol gets that code. -/
theorem assignRecordsTheRootPath : Obligations.AssignRecordsTheRootPath := by
  refine ⟨fun s h => (exec_assign_eq_next s _).2 (.inr ⟨h, rfl⟩), fun s path hli hpath hlen => ?_⟩
  have hwidth : (BitVec.ofNat 8 path.length).setWidth 40 = BitVec.ofNat 40 path.length :=
    BitVec.setWidth_ofNat_of_le_of_lt (by decide) (by omega)
  refine ⟨_, exec_assign_of_rootPath hli hpath hlen, ?_, fun i => ?_, fun b hb => ?_, ?_⟩
  · rw [readCode_assigned, if_pos rfl]
    exact Nat.mod_eq_of_lt (Nat.lt_succ_of_le hlen)
  · rw [readCode_assigned, if_pos rfl]
    exact getLsbD_enterPath_zero hlen i
  · rw [readCode_assigned, if_neg hb]
  · rw [← hwidth]
    rfl

end Sys2Proof.Machine
end

section
/-! PROOFS. The tree serializer and deserializer (43_tree_serializer.md): what a five-byte record leaves in `OUT`, then
SERH, SERL, PARSE and LOADL by their branches. -/

namespace Sys2Proof.Machine

/-! ## `OUT` after a record is written -/

/-- A byte of `OUT` after a leaf record is written: its symbol comes last, after its frequency. -/
theorem outByte_outWithLeaf (s : State) (a c : Nat) (l : LeafRecord) :
    outByte (outWithLeaf s a l) c = if c = a + 4 then l.sym else outByte (outWith32 s a l.freq) c :=
  outByte_set (outWith32 s a l.freq) (a + 4) c l.sym

/-- The five bytes of a leaf record just written are its encoding (30_encoding.md R90). -/
theorem map_outByte_outWithLeaf (s : State) (a : Nat) (l : LeafRecord) :
    (List.range 5).map (fun k => outByte (outWithLeaf s a l) (a + k)) = encodeLeaf l := by
  have hfreq : ∀ k ∈ List.range 4, outByte (outWithLeaf s a l) (a + k) = byteOf32 l.freq k := fun k hk => by
    have hk := List.mem_range.1 hk
    rw [outByte_outWithLeaf, if_neg (by omega), outByte_outWith32_within s a l.freq hk]
  rw [List.range_succ, List.map_append, List.map_congr_left hfreq, List.map_singleton, outByte_outWithLeaf, if_pos rfl]
  rfl

theorem outWithLeaf_sameOutside (s : State) (a : Nat) (l : LeafRecord) :
    OutSameOutside a 5 s (outWithLeaf s a l) := by
  intro c hc
  rw [outByte_outWithLeaf, if_neg (by omega), outWith32_sameOutside s a l.freq c (by omega)]

/-- A header is written as a leaf record at address 0 would be: a four-byte field and one byte (30_encoding.md R89, R90). -/
theorem outWithHeader_eq (s : State) : outWithHeader s = outWithLeaf s 0 ⟨s.origLen, leafCountByte s.n⟩ := rfl

/-- The five bytes of a header just written are its encoding (43 R152). -/
theorem map_outByte_outWithHeader (s : State) :
    (List.range 5).map (outByte (outWithHeader s)) = encodeHdr ⟨s.origLen, leafCountByte s.n⟩ := by
  have hbytes := map_outByte_outWithLeaf s 0 ⟨s.origLen, leafCountByte s.n⟩
  simp only [Nat.zero_add, ← outWithHeader_eq] at hbytes
  exact hbytes

theorem outWithHeader_sameOutside (s : State) : OutSameOutside 0 5 s (outWithHeader s) := by
  rw [outWithHeader_eq]
  exact outWithLeaf_sameOutside s 0 _

/-! ## SERH and SERL -/

/-- Settles O29: the two branches of SERH, `need` being the sum the statement writes out. -/
theorem serhChecksThenWritesHeader : Obligations.SerhChecksThenWritesHeader := by
  refine ⟨fun s h => (exec_serh_eq_next s _).2 (.inl ⟨h, rfl⟩), fun s h => ?_⟩
  exact ⟨_, (exec_serh_eq_next s _).2 (.inr ⟨h, by omega, rfl⟩), map_outByte_outWithHeader s,
    outWithHeader_sameOutside s, rfl⟩

/-- Settles O30: the two branches of SERL, the record standing at `OPOS`. -/
theorem serlWritesOneRecord : Obligations.SerlWritesOneRecord := by
  refine ⟨fun s hli hnode hroom => ?_, fun s h => (exec_serl_eq_next s _).2 (.inr ⟨h, rfl⟩)⟩
  exact ⟨_, (exec_serl_eq_next s _).2 (.inl ⟨hli, hnode, by omega, rfl⟩), map_outByte_outWithLeaf s s.opos.toNat _,
    outWithLeaf_sameOutside s s.opos.toNat _, rfl⟩

/-! ## PARSE and LOADL -/

/-- Settles O31: `parseVerdict` tests in the order of the rules, the count being `nm1` + 1 unless the original is
empty. -/
theorem parseChecksInOrder : Obligations.ParseChecksInOrder := by
  intro s hcap len count
  have hcap := BitVec.le_def.1 hcap
  by_cases hheader : s.inLen.toNat < 5
  · rw [if_pos hheader]
    exact (exec_parse_eq_next s _).2 (.inl ⟨hheader, rfl⟩)
  rw [if_neg hheader]
  refine (exec_parse_eq_next s _).2 (.inr ⟨by omega, by omega, ?_⟩)
  change parseChecks (inByte s 4) { s with origLen := len } = _
  rw [parseChecks_eq]
  by_cases hempty : len = 0#32
  · simp only [parseVerdict, leafCountOf, if_pos hempty]
    rfl
  have hcount : leafCountOf len (inByte s 4) = count := if_neg hempty
  rw [if_neg hempty, ← toNat_leafCountOf hempty (inByte s 4), hcount]
  simp only [parseVerdict, if_neg hempty]
  by_cases htree : s.inLen.toNat < 5 + 5 * count.toNat
  · simp only [if_pos htree]
    rfl
  by_cases hroom : s.params.outCap.toNat < len.toNat
  · simp only [if_neg htree, if_pos hroom]
    rfl
  · simp only [if_neg htree, if_neg hroom]

/-- Settles O32: the two branches of LOADL, the record read as stored. -/
theorem loadlReadsOneRecord : Obligations.LoadlReadsOneRecord := by
  refine ⟨fun s hli hqueue hlen hcap => ?_, fun s h => (exec_loadl_eq_next s _).2 (.inr ⟨h, rfl⟩)⟩
  have hcap := BitVec.le_def.1 hcap
  have hend : leafAddr s.li.toNat + 4 < s.inLen.toNat := hlen
  have hnode : s.li.toNat < maxNodes := Nat.lt_trans hqueue (by decide)
  obtain ⟨hnodes, hentries⟩ := loaded_leaf s (leafRecordAt s (leafAddr s.li.toNat))
  refine ⟨_, (exec_loadl_eq_next s _).2 (.inl ⟨hli, ⟨hend, by omega⟩, hnode, hqueue, rfl⟩), ?_, ?_, fun i hi => ?_,
    fun j hj => ?_, rfl⟩
  · exact (hnodes s.li).trans (if_pos rfl)
  · exact (hentries s.li.toNat).trans (if_pos rfl)
  · exact (hnodes i).trans (if_neg hi)
  · exact (hentries j).trans (if_neg hj)

/-! ## Frames -/

variable {s t : State}

/-- SERH stores at addresses 0 to 4 alone, and nothing when it raises (43 R151, R152). -/
theorem exec_serh_out (h : exec .serh s = .next t) :
    OutSameOutside 0 5 s t ∧ (s.params.outCap.toNat < need s → t.outMem = s.outMem) := by
  rcases (exec_serh_eq_next s t).1 h with ⟨-, rfl⟩ | ⟨hfits, -, rfl⟩
  · exact ⟨fun c _ => rfl, fun _ => rfl⟩
  · exact ⟨outWithHeader_sameOutside s, fun hover => absurd hfits (Nat.not_le.2 hover)⟩

/-- SERL stores at the five addresses from `OPOS` alone, and nothing on its exit (43 R153). -/
theorem exec_serl_out (h : exec .serl s = .next t) :
    OutSameOutside s.opos.toNat 5 s t ∧ (s.n ≤ s.li → t.outMem = s.outMem) := by
  rcases (exec_serl_eq_next s t).1 h with ⟨hli, -, -, rfl⟩ | ⟨-, rfl⟩
  · exact ⟨outWithLeaf_sameOutside s s.opos.toNat _, fun hexit => absurd hexit (BitVec.not_le.2 hli)⟩
  · exact ⟨fun c _ => rfl, fun _ => rfl⟩

/-- Settles O38: the frames of the four instructions, and where the two of them that store do so. -/
theorem serializerFrames : Obligations.SerializerFrames := fun _ _ =>
  ⟨fun h => ⟨exec_serh_frame h, exec_serh_out h⟩, fun h => ⟨exec_serl_frame h, exec_serl_out h⟩, exec_parse_frame,
    exec_loadl_frame⟩

end Sys2Proof.Machine
end

section
/-! PROOFS. The bit packer and unpacker (44_bit_packer_unpacker.md): what one byte written at `OPOS` leaves, the stream the
accumulator and `OUT` make together, then PACK, FLUSH and UNPK by their branches. -/

namespace Sys2Proof.Machine

/-! ## A byte written at `OPOS` -/

theorem outByte_outAppended (s : State) (b : Byte) (c : Nat) :
    outByte (outAppended s b) c = if c = s.opos.toNat then b else outByte s c :=
  outByte_set s s.opos.toNat c b

theorem outAppended_sameOutside (s : State) (b : Byte) : OutSameOutside s.opos.toNat 1 s (outAppended s b) := by
  intro c hc
  rw [outByte_outAppended, if_neg (by omega)]

/-- `OPOS` does not wrap past a byte that `OUT` has. -/
theorem toNat_opos_succ {s : State} (h : s.opos.toNat < s.params.outCap.toNat) :
    (s.opos + 1).toNat = s.opos.toNat + 1 := by
  have hcap := s.params.outCap.isLt
  bv_omega

/-! ## One bit into the stream -/

/-- A bit of the accumulator after one of its eight bits is set (44 R171). -/
theorem getLsbD_setAccBit (acc : Byte) {n : Nat} (hn : n < 8) (v : Bool) (i : Nat) :
    (setAccBit acc n v).getLsbD i = if i = n then v else acc.getLsbD i := by
  simp only [setAccBit, BitVec.getLsbD_or, BitVec.getLsbD_and, BitVec.getLsbD_not, BitVec.getLsbD_shiftLeft,
    BitVec.getLsbD_one, BitVec.getLsbD_setWidth, BitVec.getLsbD_ofBool]
  rcases Nat.lt_trichotomy i n with hlt | rfl | hgt
  · simp [hlt, hlt.ne, hlt.trans hn]
  · simp [hn]
  · have hpos : i - n ≠ 0 := by omega
    by_cases hi : i < 8
    · simp [hi, hgt.ne', hpos]
    · simp [hi, hgt.ne', acc.getLsbD_of_ge i (Nat.le_of_not_lt hi)]

/-- A bit collected in the accumulator, which does not fill (44 R171). -/
def bitCollected (s : State) (v : Bool) : State :=
  { s with acc := setAccBit s.acc s.accn.toNat v, accn := s.accn + 1 }

/-- The bit that fills the accumulator: the byte goes to `OUT` and the accumulator is empty (44 R171, R172). -/
def byteFilled (s : State) (v : Bool) : State :=
  { outAppended s (setAccBit s.acc s.accn.toNat v) with acc := 0, accn := 0 }

/-- One bit into the stream is collected, or fills the accumulator, which needs room for a byte (44 R171, R172). -/
theorem packBit_eq_ok (v : Bool) (s t : State) :
    packBit v s = .ok t ↔
      (s.accn.toNat < 7 ∧ bitCollected s v = t) ∨
      (s.accn.toNat = 7 ∧ s.opos.toNat < s.params.outCap.toNat ∧ byteFilled s v = t) := by
  simp only [packBit]
  split
  next hfull =>
    have hseven : s.accn.toNat = 7 := by bv_omega
    simp only [bind_eq_ok, outWrite_eq_ok, Except.ok.injEq]
    constructor
    · rintro ⟨_, ⟨hroom, rfl⟩, ht⟩
      exact .inr ⟨hseven, hroom, ht⟩
    · rintro (⟨hless, -⟩ | ⟨-, hroom, ht⟩)
      · omega
      · exact ⟨_, ⟨hroom, rfl⟩, ht⟩
  next hfree =>
    have hless : s.accn.toNat < 7 := by bv_omega
    simp only [Except.ok.injEq, hless, Nat.ne_of_lt hless, true_and, false_and, or_false]
    rfl

/-- One bit is answered whenever there is room for the byte it may fill. -/
theorem packBit_answers (v : Bool) {s : State} (hroom : (streamPos s + 1) / 8 ≤ s.params.outCap.toNat) :
    ∃ t, packBit v s = .ok t := by
  by_cases hless : s.accn.toNat < 7
  · exact ⟨_, (packBit_eq_ok v s _).2 (.inl ⟨hless, rfl⟩)⟩
  · have hbits := s.accn.isLt
    have hseven : s.accn.toNat = 7 := by omega
    rw [streamPos, hseven] at hroom
    exact ⟨_, (packBit_eq_ok v s _).2 (.inr ⟨hseven, by omega, rfl⟩)⟩

/-- Byte `j` of the stream: `OUT` holds those below `OPOS`, the accumulator the one at `OPOS` (44 R172). -/
def streamByte (s : State) (j : Nat) : Byte :=
  if j < s.opos.toNat then outByte s j else if j = s.opos.toNat then s.acc else 0

/-- Bit `p` of the stream: bit `p mod 8` of byte `p div 8` (30_encoding.md R93). -/
def streamBit (s : State) (p : Nat) : Bool := (streamByte s (p / 8)).getLsbD (p % 8)

theorem streamBit_mul_add (s : State) (j : Nat) {i : Nat} (hi : i < 8) :
    streamBit s (8 * j + i) = (streamByte s j).getLsbD i := by
  rw [streamBit, Nat.mul_add_div (by decide), Nat.div_eq_of_lt hi, Nat.mul_add_mod, Nat.mod_eq_of_lt hi, Nat.add_zero]

theorem streamByte_of_lt {s : State} {j : Nat} (h : j < s.opos.toNat) : streamByte s j = outByte s j := if_pos h

theorem streamByte_opos (s : State) : streamByte s s.opos.toNat = s.acc := by
  rw [streamByte, if_neg (Nat.lt_irrefl _), if_pos rfl]

theorem streamPos_packBit {v : Bool} {s t : State} (h : packBit v s = .ok t) : streamPos t = streamPos s + 1 := by
  rcases (packBit_eq_ok v s t).1 h with ⟨hless, rfl⟩ | ⟨hseven, hroom, rfl⟩
  · have hnext : (s.accn + 1).toNat = s.accn.toNat + 1 := by bv_omega
    simp only [streamPos, bitCollected, hnext, Nat.add_assoc]
  · simp only [streamPos, byteFilled, outAppended, toNat_opos_succ hroom, hseven]
    rfl

/-- One bit changes the byte of the stream at `OPOS` alone, whether it stays in the accumulator or goes to `OUT`. -/
theorem streamByte_packBit {v : Bool} {s t : State} (h : packBit v s = .ok t) (j : Nat) :
    streamByte t j = if j = s.opos.toNat then setAccBit s.acc s.accn.toNat v else streamByte s j := by
  rcases (packBit_eq_ok v s t).1 h with ⟨-, rfl⟩ | ⟨-, hroom, rfl⟩
  · change (if j < s.opos.toNat then outByte s j else
      if j = s.opos.toNat then setAccBit s.acc s.accn.toNat v else 0) = _
    by_cases hj : j = s.opos.toNat
    · rw [if_neg (by omega), if_pos hj, if_pos hj]
    · rw [if_neg hj, if_neg hj, streamByte, if_neg hj]
  · change (if j < (s.opos + 1).toNat then outByte (outAppended s (setAccBit s.acc s.accn.toNat v)) j else
      if j = (s.opos + 1).toNat then 0 else 0) = _
    rw [toNat_opos_succ hroom, outByte_outAppended, ite_self]
    by_cases hj : j = s.opos.toNat
    · rw [if_pos (by omega), if_pos hj, if_pos hj]
    · have hbelow : j < s.opos.toNat + 1 ↔ j < s.opos.toNat := by omega
      simp only [hbelow, hj, if_false, streamByte]

/-- The new bit stands at the end of the stream, and every other bit is as before (44 R171, R172). -/
theorem streamBit_packBit {v : Bool} {s t : State} (h : packBit v s = .ok t) (p : Nat) :
    streamBit t p = if p = streamPos s then v else streamBit s p := by
  have hcount := s.accn.isLt
  rw [streamBit, streamByte_packBit h, streamBit, streamPos]
  by_cases hbyte : p / 8 = s.opos.toNat
  · rw [if_pos hbyte, getLsbD_setAccBit s.acc hcount v, hbyte, streamByte_opos]
    exact if_congr (by omega) rfl rfl
  · rw [if_neg hbyte, if_neg (by omega)]

/-! ## The code of one byte into the stream -/

theorem packBits_answers (bits : BitVec 255) (left k : Nat) {s : State}
    (hroom : (streamPos s + left) / 8 ≤ s.params.outCap.toNat) : ∃ t, packBits bits left k s = .ok t := by
  induction left generalizing k s with
  | zero => exact ⟨s, rfl⟩
  | succ left ih =>
    obtain ⟨u, hu⟩ := packBit_answers (bits.getLsbD k) (s := s) (by omega)
    have hparams : u.params = s.params := by rw [packBit_frame hu]
    obtain ⟨t, ht⟩ := ih (k + 1) (s := u) (by rw [streamPos_packBit hu, hparams]; omega)
    exact ⟨t, (bind_eq_ok _ _ _).2 ⟨u, hu, ht⟩⟩

/-- The stream after a code: as before up to its old end, then the code's bits in order (44 R171, 30_encoding.md R94). -/
theorem packBits_appends {bits : BitVec 255} {left k : Nat} {s t : State} (h : packBits bits left k s = .ok t) :
    streamPos t = streamPos s + left ∧
      ∀ p < streamPos t, streamBit t p =
        if p < streamPos s then streamBit s p else bits.getLsbD (k + (p - streamPos s)) := by
  induction left generalizing k s with
  | zero =>
    cases h
    exact ⟨rfl, fun p hp => (if_pos hp).symm⟩
  | succ left ih =>
    obtain ⟨u, hu, ht⟩ := (bind_eq_ok _ _ _).1 h
    obtain ⟨hend, hbits⟩ := ih ht
    have hnext := streamPos_packBit hu
    refine ⟨by omega, fun p hp => ?_⟩
    rw [hbits p hp, hnext, streamBit_packBit hu]
    rcases Nat.lt_trichotomy p (streamPos s) with hlt | rfl | hgt
    · rw [if_pos (by omega), if_neg (by omega), if_pos hlt]
    · rw [if_pos (by omega), if_pos rfl, if_neg (by omega), Nat.sub_self, Nat.add_zero]
    · rw [if_neg (by omega), if_neg (by omega)]
      congr 1
      omega

/-- Bytes of `OUT` are stored from the old `OPOS` to below the new one alone. -/
def StoredToOpos (s t : State) : Prop :=
  s.opos.toNat ≤ t.opos.toNat ∧ OutSameOutside s.opos.toNat (t.opos.toNat - s.opos.toNat) s t

theorem StoredToOpos.refl (s : State) : StoredToOpos s s := ⟨Nat.le_refl _, fun _ _ => rfl⟩

theorem StoredToOpos.trans {s t u : State} (h : StoredToOpos s t) (h' : StoredToOpos t u) : StoredToOpos s u := by
  obtain ⟨hle, hout⟩ := h
  obtain ⟨hle', hout'⟩ := h'
  exact ⟨by omega, fun c hc => (hout' c (by omega)).trans (hout c (by omega))⟩

theorem storedToOpos_packBit {v : Bool} {s t : State} (h : packBit v s = .ok t) : StoredToOpos s t := by
  rcases (packBit_eq_ok v s t).1 h with ⟨-, rfl⟩ | ⟨-, hroom, rfl⟩
  · exact ⟨Nat.le_refl _, fun _ _ => rfl⟩
  · have hnext : (byteFilled s v).opos.toNat = s.opos.toNat + 1 := toNat_opos_succ hroom
    refine ⟨by omega, ?_⟩
    rw [hnext, Nat.add_sub_cancel_left]
    exact outAppended_sameOutside s _

theorem storedToOpos_packBits {bits : BitVec 255} {left k : Nat} {s t : State} (h : packBits bits left k s = .ok t) :
    StoredToOpos s t := by
  induction left generalizing k s with
  | zero =>
    cases h
    exact .refl _
  | succ left ih =>
    obtain ⟨u, hu, ht⟩ := (bind_eq_ok _ _ _).1 h
    exact (storedToOpos_packBit hu).trans (ih ht)

/-! ## PACK -/

/-- From `OPOS` on, the stream after a code is the accumulator's bits and then the code's. -/
theorem getLsbD_streamByte_packBits {bits : BitVec 255} {left : Nat} {s t : State} (h : packBits bits left 0 s = .ok t)
    {j i : Nat} (hlo : s.opos.toNat ≤ j) (hi : i < 8) (hhi : 8 * j + i < streamPos t) :
    (streamByte t j).getLsbD i = appendedBit s bits (8 * j + i) := by
  have hcount := s.accn.isLt
  rw [← streamBit_mul_add t j hi, (packBits_appends h).2 _ hhi, appendedBit, Nat.zero_add]
  by_cases hold : 8 * j + i < streamPos s
  · have hj : j = s.opos.toNat := by rw [streamPos] at hold; omega
    rw [if_pos hold, if_pos hold, streamBit_mul_add s j hi, hj, streamByte_opos, Nat.add_sub_cancel_left]
  · rw [if_neg hold, if_neg hold]

/-- Settles O33: of the bits from the old `OPOS` on, those below the new one are in `OUT` and the rest are the
accumulator's. -/
theorem packAppendsOneCode : Obligations.PackAppendsOneCode := by
  refine ⟨fun s hipos hlen hcap hacc => ?_, fun s h => (exec_pack_eq_next s _).2 (.inr ⟨h, rfl⟩)⟩
  intro c hroom
  have hread : s.ipos.toNat < s.params.inCap.toNat := Nat.lt_of_lt_of_le hlen hcap
  obtain ⟨t, ht⟩ := packBits_answers c.bits c.len.toNat 0 hroom
  obtain ⟨hopos, hout⟩ := storedToOpos_packBits ht
  have hclean := hacc.packBits ht
  refine ⟨{ t with ipos := t.ipos + 1 }, (exec_pack_eq_next s _).2 (.inl ⟨hipos, hlen, hread, t, ht, rfl⟩),
    (packBits_appends ht).1, fun j i hlo hhi hi => ?_, fun i hi => ?_, hclean, hout, ?_⟩
  · change j < t.opos.toNat at hhi
    rw [← getLsbD_streamByte_packBits ht hlo hi (by rw [streamPos]; omega), streamByte_of_lt hhi]
    rfl
  · change i < t.accn.toNat at hi
    have hcount := t.accn.isLt
    have hbit := getLsbD_streamByte_packBits ht hopos (i := i) (by omega) (by rw [streamPos]; omega)
    rwa [streamByte_opos] at hbit
  · rw [packBits_frame ht]

/-! ## FLUSH and UNPK -/

/-- Settles O34: the two branches of FLUSH. -/
theorem flushWritesTheLastByte : Obligations.FlushWritesTheLastByte := by
  refine ⟨fun s h => (exec_flush_eq_next s _).2 (.inl ⟨h, rfl⟩), fun s h hroom => ?_⟩
  exact ⟨_, (exec_flush_eq_next s _).2 (.inr ⟨h, hroom, rfl⟩),
    (outByte_outAppended s s.acc s.opos.toNat).trans (if_pos rfl), outAppended_sameOutside s s.acc, rfl⟩

/-- Settles O35: the four branches of UNPK; a bit position below 8 × `IN_LEN` lies in a byte of `IN`. -/
theorem unpkDoesOneOfFour : Obligations.UnpkDoesOneOfFour := by
  refine ⟨fun s h => (exec_unpk_eq_next s _).2 (.inl ⟨h, rfl⟩), fun s hmore hcur hleaf hroom => ?_,
    fun s hmore hcur hinner hdry => (exec_unpk_eq_next s _).2 (.inr ⟨hmore, hcur, .inr (.inl ⟨hinner, hdry, rfl⟩)⟩),
    fun s hmore hcur hinner hbit hcap => ?_⟩
  · exact ⟨_, (exec_unpk_eq_next s _).2 (.inr ⟨hmore, hcur, .inl ⟨hleaf, hroom, rfl⟩⟩),
      (outByte_outAppended s _ s.opos.toNat).trans (if_pos rfl), outAppended_sameOutside s _, rfl⟩
  · have hcap : s.inLen.toNat ≤ s.params.inCap.toNat := hcap
    have hbyte : s.bitpos.toNat / 8 < s.inLen.toNat := by omega
    exact (exec_unpk_eq_next s _).2
      (.inr ⟨hmore, hcur, .inr (.inr ⟨hinner, hbit, ⟨hbyte, by omega⟩, rfl⟩)⟩)

/-! ## Frames -/

section
variable {s t : State}

/-- PACK stores from the old `OPOS` to below the new one alone, and nothing on its exit (44 R171). -/
theorem exec_pack_out (h : exec .pack s = .next t) : StoredToOpos s t := by
  rcases (exec_pack_eq_next s t).1 h with ⟨-, -, -, u, hu, rfl⟩ | ⟨-, rfl⟩
  · obtain ⟨hle, hout⟩ := storedToOpos_packBits hu
    exact ⟨hle, hout⟩
  · exact ⟨Nat.le_refl _, fun _ _ => rfl⟩

/-- FLUSH stores at `OPOS` alone, and nothing when the accumulator is empty (44 R173). -/
theorem exec_flush_out (h : exec .flush s = .next t) :
    OutSameOutside s.opos.toNat (if s.accn = 0#3 then 0 else 1) s t := by
  rcases (exec_flush_eq_next s t).1 h with ⟨-, rfl⟩ | ⟨hpart, -, rfl⟩
  · exact fun _ _ => rfl
  · rw [if_neg (show ¬ s.accn = 0#3 from hpart)]
    exact outAppended_sameOutside s s.acc

/-- UNPK stores at `OPOS` alone, and nothing unless it emits a symbol (44 R176). -/
theorem exec_unpk_out (h : exec .unpk s = .next t) :
    OutSameOutside s.opos.toNat
      (if s.opos.toNat ≠ s.origLen.toNat ∧ (nodeAt s s.cur).left = nil then 1 else 0) s t := by
  rcases (exec_unpk_eq_next s t).1 h with ⟨-, rfl⟩ | ⟨hmore, -, ⟨hleaf, -, rfl⟩ | ⟨-, -, rfl⟩ | ⟨-, -, -, rfl⟩⟩
  · exact fun _ _ => rfl
  · rw [if_pos ⟨hmore, hleaf⟩]
    exact outAppended_sameOutside s _
  · exact fun _ _ => rfl
  · exact fun _ _ => rfl

end

/-- Settles O39: the frames of the three instructions, and where each of them stores. -/
theorem packerFrames : Obligations.PackerFrames := fun _ _ =>
  ⟨fun h => ⟨exec_pack_frame h, exec_pack_out h⟩, fun h => ⟨exec_flush_frame h, exec_flush_out h⟩,
    fun h => ⟨exec_unpk_frame h, exec_unpk_out h⟩⟩

end Sys2Proof.Machine
end

section
/-! PROOFS. The commands and the sequencer (45_commands_and_sequencer.md): which instruction a step runs, what a write
of `CMD` does to an idle block, the phase after a step (R197), and the measure that every step of a run lowers (R198). -/

namespace Sys2Proof.Machine

/-! ## The step -/

/-- With no host move pending the step is the sequencer's. -/
theorem step_of_no_host {s : State} (h : s.host = []) : step s = sequencerStep s := by
  simp only [step, machineStep, h]

/-- During a run with no host move pending, the step is the micro-operation `PHASE` holds (R196). -/
theorem step_of_busy {s : State} (hh : s.host = []) (hb : s.busy = true) : step s = exec (phaseInstr s.phase) s := by
  rw [step_of_no_host hh, sequencerStep_eq, if_pos hb]

/-- Settles O12: `PHASE`'s code decodes to the micro-operation the sequencer runs; a yield takes a new turn first. -/
theorem stepRunsSelectedMicroOperation : Obligations.StepRunsSelectedMicroOperation := by
  refine ⟨fun s i hh hb hi => ?_, fun s i rest hh hb hi => ?_, fun s hh hb => ?_⟩
  · rw [decodePhase_phaseCode, Except.ok.injEq] at hi
    rw [step_of_busy hh hb, hi]
  · rw [decodePhase_phaseCode, Except.ok.injEq] at hi
    rw [step_of_host hh, hostTurn, grantTurn, if_pos hb, sequencerStep_eq, newTurn_busy, if_pos hb, newTurn_phase, hi]
  · rw [step_of_no_host hh, sequencerStep_eq, if_neg (by simp [hb])]

/-! ## Commands -/

/-- Settles O15: the three cases of COMPRESS. -/
theorem compressAcceptance : Obligations.CompressAcceptance :=
  ⟨fun s hb hcap hlen => (exec_compress_eq_next s _).2 (.inr (.inr ⟨hb, hcap, hlen, rfl⟩)),
    fun s hb hbad => (exec_compress_eq_next s _).2 (.inr (.inl ⟨hb, hbad, rfl⟩)),
    fun s hb => (exec_compress_eq_next s s).2 (.inl ⟨hb, rfl⟩)⟩

/-- Settles O16: the three cases of DECOMPRESS. -/
theorem decompressAcceptance : Obligations.DecompressAcceptance :=
  ⟨fun s hb hcap => (exec_decompress_eq_next s _).2 (.inr (.inr ⟨hb, hcap, rfl⟩)),
    fun s hb hbad => (exec_decompress_eq_next s _).2 (.inr (.inl ⟨hb, hbad, rfl⟩)),
    fun s hb => (exec_decompress_eq_next s s).2 (.inl ⟨hb, rfl⟩)⟩

/-- A code that names no command is rejected by an idle block (R194). -/
theorem commandWrite_of_reserved {s : State} (hb : s.busy = false) {c : Byte} (h : c ≠ 0x01#8 ∧ c ≠ 0x02#8) :
    commandWrite c s = .next (reject .invalidInput s) := by
  rw [commandWrite, decodeCmd, if_neg h.1, if_neg h.2]
  exact congrArg _ (if_neg (by simp [hb]))

/-- Settles O17: a reserved code is rejected, and each of the two commands goes by its own acceptance. -/
theorem commandAcceptance : Obligations.CommandAcceptance := by
  intro s c hb rejected accepted
  obtain ⟨hcomp, hcompBad, -⟩ := compressAcceptance
  obtain ⟨hdec, hdecBad, -⟩ := decompressAcceptance
  rw [step_issued s c hb]
  by_cases hres : c ≠ 0x01#8 ∧ c ≠ 0x02#8
  · rw [if_pos hres]
    exact ⟨_, commandWrite_of_reserved (s := newTurn { s with host := [] }) hb hres, rfl⟩
  rw [if_neg hres]
  by_cases h1 : c = 0x01#8
  · subst h1
    by_cases hcap : s.params.inCap < s.inLen
    · rw [if_pos hcap]
      exact ⟨_, hcompBad (newTurn { s with host := [] }) hb (.inl hcap), rfl⟩
    rw [if_neg hcap]
    by_cases hlen : 2 ^ 32 ≤ s.inLen.toNat
    · rw [if_pos ⟨rfl, hlen⟩]
      exact ⟨_, hcompBad (newTurn { s with host := [] }) hb (.inr hlen), rfl⟩
    · rw [if_neg fun h => hlen h.2, if_pos rfl]
      exact ⟨_, hcomp (newTurn { s with host := [] }) hb (BitVec.not_lt.1 hcap) (Nat.lt_of_not_le hlen), rfl⟩
  · obtain rfl : c = 0x02#8 := by
      by_contra h2
      exact hres ⟨h1, h2⟩
    by_cases hcap : s.params.inCap < s.inLen
    · rw [if_pos hcap]
      exact ⟨_, hdecBad (newTurn { s with host := [] }) hb hcap, rfl⟩
    · rw [if_neg hcap, if_neg fun h => h1 h.1, if_neg h1]
      exact ⟨_, hdec (newTurn { s with host := [] }) hb (BitVec.not_lt.1 hcap), rfl⟩

/-- Settles O37: each instruction's own frame. -/
theorem commandAndTableFrames : Obligations.CommandAndTableFrames := fun s t =>
  ⟨exec_compress_frame, exec_decompress_frame, fun h => ((exec_idle_eq_next s t).1 h).symm, exec_fclr_frame,
    exec_fcnt_frame, exec_seed_frame, exec_merge_frame, exec_assign_frame⟩

/-! ## The transition table -/

section
variable {s t : State}

/-- PARSE goes to IDLE in the order of its tests, else to LOADL (R197, 43 R156 to R159). -/
theorem phase_of_exec_parse (h : exec .parse s = .next t) :
    t.phase =
      if s.inLen.toNat < 5 then .idle
      else if t.origLen = 0#32 then .idle
      else if s.inLen.toNat < 5 + 5 * t.n.toNat then .idle
      else if s.params.outCap.toNat < t.origLen.toNat then .idle
      else .loadl := by
  rcases (exec_parse_eq_next s t).1 h with ⟨hlt, rfl⟩ | ⟨hge, -, rfl⟩
  · rw [if_pos hlt]
    rfl
  rw [if_neg (Nat.not_lt.2 hge), parseChecks_eq]
  generalize headerLength s = len
  simp only [parseVerdict]
  generalize leafCountOf len (inByte s 4) = count
  by_cases hzero : len = 0#32
  · simp [hzero]
  by_cases htree : s.inLen.toNat < 5 + 5 * count.toNat
  · simp [hzero, htree]
  by_cases hroom : s.params.outCap.toNat < len.toNat
  · simp [hzero, htree, hroom]
  · simp [hzero, htree, hroom]

/-- UNPK goes on at a leaf and while there are bits (R197, 44 R176). -/
theorem phase_of_exec_unpk (hp : s.phase = .unpk) (h : exec .unpk s = .next t) :
    t.phase =
      if s.opos.toNat = s.origLen.toNat then .idle
      else if (nodeAt s s.cur).left = nil ∨ s.bitpos.toNat < 8 * s.inLen.toNat then .unpk
      else .idle := by
  rcases (exec_unpk_eq_next s t).1 h with ⟨hend, rfl⟩ | ⟨hmore, -, ⟨hleaf, -, rfl⟩ | ⟨hinner, hdry, rfl⟩ |
    ⟨-, hbit, -, rfl⟩⟩
  · rw [if_pos hend]
    rfl
  · rw [if_neg hmore, if_pos (.inl hleaf)]
    exact hp
  · rw [inBits] at hdry
    rw [if_neg hmore, if_neg (not_or.2 ⟨hinner, Nat.not_lt.2 hdry⟩)]
    rfl
  · rw [if_neg hmore, if_pos (.inr hbit)]
    exact hp

/-- SEED goes to SERH exactly when it has found no symbol (R197, 40 R116). -/
theorem phase_of_exec_seed (h : exec .seed s = .next t) : t.phase = if t.n = 0#9 then .serh else .merge := by
  have hs := seeded_of_exec h
  have hzero : t.n = 0#9 ↔ (seedOrder (readFt s)).length = 0 := by
    rw [← hs.nn, hs.n]
    exact ⟨fun e => by rw [e]; rfl, fun e => BitVec.eq_of_toNat_eq e⟩
  rw [hs.phase]
  simp only [hzero]

end

/-- Settles O52: each phase by the branches of its micro-operation. -/
theorem phaseTransitions : Obligations.PhaseTransitions := by
  intro s t hh hb h
  rw [step_of_busy hh hb] at h
  cases hp : s.phase <;> rw [hp, phaseInstr] at h
  case idle =>
    obtain rfl := (exec_idle_eq_next s t).1 h
    exact hp
  case fclr =>
    obtain rfl := (exec_fclr_eq_next s t).1 h
    rfl
  case fcnt =>
    rcases (exec_fcnt_eq_next s t).1 h with ⟨hlt, -, -, rfl⟩ | ⟨hge, rfl⟩
    · exact hp.trans (if_pos hlt).symm
    · exact (if_neg (Nat.not_lt.2 hge)).symm
  case seed => exact phase_of_exec_seed h
  case merge =>
    rcases (exec_merge_eq_next s t).1 h with ⟨hq, hm⟩ | ⟨hq, rfl⟩
    · rw [mergeOnce_frame hm]
      exact hp.trans (if_pos hq).symm
    · exact (if_neg (Nat.not_le.2 hq)).symm
  case assign =>
    rcases (exec_assign_eq_next s t).1 h with ⟨hlt, c, -, -, rfl⟩ | ⟨hge, rfl⟩
    · exact hp.trans (if_pos hlt).symm
    · exact (if_neg (BitVec.not_lt.2 hge)).symm
  case serh =>
    rcases (exec_serh_eq_next s t).1 h with ⟨hlt, rfl⟩ | ⟨hge, -, rfl⟩
    · exact (if_pos hlt).symm
    · exact (if_neg (Nat.not_lt.2 hge)).symm
  case serl =>
    rcases (exec_serl_eq_next s t).1 h with ⟨hlt, -, -, rfl⟩ | ⟨hge, rfl⟩
    · exact hp.trans (if_pos hlt).symm
    · exact (if_neg (BitVec.not_lt.2 hge)).symm
  case pack =>
    rcases (exec_pack_eq_next s t).1 h with ⟨hlt, -, -, u, hu, rfl⟩ | ⟨hge, rfl⟩
    · rw [packBits_frame hu]
      exact hp.trans (if_pos hlt).symm
    · exact (if_neg (Nat.not_lt.2 hge)).symm
  case flush =>
    rcases (exec_flush_eq_next s t).1 h with ⟨-, rfl⟩ | ⟨-, -, rfl⟩ <;> rfl
  case parse => exact phase_of_exec_parse h
  case loadl =>
    rcases (exec_loadl_eq_next s t).1 h with ⟨hlt, -, -, -, rfl⟩ | ⟨hge, rfl⟩
    · exact hp.trans (if_pos hlt).symm
    · exact (if_neg (BitVec.not_lt.2 hge)).symm
  case unpk => exact phase_of_exec_unpk hp h

/-! ## The measure -/

section
variable {s t : State}

/-- A transition other than "stay" goes down (R198). -/
theorem phaseRank_lt_of_mem_phasesAfter (m : Mode) {p : Phase} (hp : p ≠ .idle) :
    ∀ q ∈ phasesAfter m p, q = p ∨ phaseRank q < phaseRank p := by
  revert hp
  cases m <;> cases p <;> decide

/-- A cursor's distance stays below the weight of a phase. -/
theorem cursorRank_lt (s : State) : cursorRank s < 2 ^ 43 := by
  have horig := s.origLen.isLt
  have hqn := s.qn.isLt
  have hn := s.n.isLt
  have hcap := s.params.outCap.isLt
  have hlen := s.inLen.isLt
  cases hp : s.phase <;> simp only [cursorRank, hp, inBits] <;> omega

/-- A leaf cursor below its bound comes nearer to it. -/
theorem toNat_sub_succ_lt {li n : BitVec 9} (h : li < n) : n.toNat - (li + 1).toNat < n.toNat - li.toNat := by
  bv_omega

/-- `IPOS` does not wrap below `ORIG_LEN`. -/
theorem toNat_ipos_succ {s : State} (h : s.ipos.toNat < s.origLen.toNat) : (s.ipos + 1).toNat = s.ipos.toNat + 1 := by
  have horig := s.origLen.isLt
  bv_omega

/-- The input cursor below `ORIG_LEN` comes nearer to it. -/
theorem toNat_sub_ipos_succ_lt {s : State} (h : s.ipos.toNat < s.origLen.toNat) :
    s.origLen.toNat - (s.ipos + 1).toNat < s.origLen.toNat - s.ipos.toNat := by
  rw [toNat_ipos_succ h]
  omega

/-- `BITPOS` does not wrap past a bit that `IN` has. -/
theorem toNat_bitpos_succ {s : State} (h : s.bitpos.toNat < inBits s) : (s.bitpos + 1).toNat = s.bitpos.toNat + 1 := by
  have hlen := s.inLen.isLt
  rw [inBits] at h
  bv_omega

/-- A looping micro-operation that stays in its phase brings its cursor nearer to its bound (R198). -/
theorem cursorRank_lt_of_stay (hp : s.phase ≠ .idle) (h : exec (phaseInstr s.phase) s = .next t)
    (hstay : t.phase = s.phase) : cursorRank t < cursorRank s := by
  have hsame : ∀ p, s.phase = p → t.phase = p := fun p e => hstay.trans e
  cases hp' : s.phase <;> rw [hp', phaseInstr] at h <;> rw [cursorRank, cursorRank, hp', hsame _ hp']
  case idle => exact absurd hp' hp
  case fclr =>
    obtain rfl := (exec_fclr_eq_next s t).1 h
    cases hsame _ hp'
  case fcnt =>
    rcases (exec_fcnt_eq_next s t).1 h with ⟨hlt, -, -, rfl⟩ | ⟨-, rfl⟩
    · exact toNat_sub_ipos_succ_lt hlt
    · cases hsame _ hp'
  case seed =>
    have hseeded := (seeded_of_exec h).phase
    rw [hsame _ hp'] at hseeded
    split at hseeded <;> cases hseeded
  case merge =>
    rcases (exec_merge_eq_next s t).1 h with ⟨hq, hm⟩ | ⟨-, rfl⟩
    · have := qn_mergeOnce hm hq
      dsimp only
      omega
    · have hexit := hsame _ hp'
      simp only [mergeExited] at hexit
      split at hexit <;> cases hexit
  case assign =>
    rcases (exec_assign_eq_next s t).1 h with ⟨hlt, c, -, -, rfl⟩ | ⟨-, rfl⟩
    · exact toNat_sub_succ_lt hlt
    · cases hsame _ hp'
  case serh =>
    rcases (exec_serh_eq_next s t).1 h with ⟨-, rfl⟩ | ⟨-, -, rfl⟩ <;> cases hsame _ hp'
  case serl =>
    rcases (exec_serl_eq_next s t).1 h with ⟨hlt, -, -, rfl⟩ | ⟨-, rfl⟩
    · exact toNat_sub_succ_lt hlt
    · cases hsame _ hp'
  case pack =>
    rcases (exec_pack_eq_next s t).1 h with ⟨hlt, -, -, u, hu, rfl⟩ | ⟨-, rfl⟩
    · rw [packBits_frame hu]
      exact toNat_sub_ipos_succ_lt hlt
    · cases hsame _ hp'
  case flush =>
    rcases (exec_flush_eq_next s t).1 h with ⟨-, rfl⟩ | ⟨-, -, rfl⟩ <;> cases hsame _ hp'
  case parse =>
    have hparse := phase_of_exec_parse h
    rw [hsame _ hp'] at hparse
    split_ifs at hparse
  case loadl =>
    rcases (exec_loadl_eq_next s t).1 h with ⟨hlt, -, -, -, rfl⟩ | ⟨-, rfl⟩
    · exact toNat_sub_succ_lt hlt
    · cases hsame _ hp'
  case unpk =>
    rcases (exec_unpk_eq_next s t).1 h with ⟨-, rfl⟩ | ⟨-, -, ⟨-, hroom, rfl⟩ | ⟨-, -, rfl⟩ |
      ⟨-, hbit, -, rfl⟩⟩
    · cases hsame _ hp'
    · have hnext := toNat_opos_succ hroom
      change s.params.outCap.toNat - (s.opos + 1).toNat + (inBits s - s.bitpos.toNat) <
        s.params.outCap.toNat - s.opos.toNat + (inBits s - s.bitpos.toNat)
      omega
    · cases hsame _ hp'
    · have hnext := toNat_bitpos_succ hbit
      change s.params.outCap.toNat - s.opos.toNat + (inBits s - (s.bitpos + 1).toNat) <
        s.params.outCap.toNat - s.opos.toNat + (inBits s - s.bitpos.toNat)
      omega

end

/-- Settles O55: a step that stays in its phase moves the cursor, any other goes down the phases or completes. -/
theorem everyRunStepLowersTheRank : Obligations.EveryRunStepLowersTheRank := by
  intro s t hh hb hp h
  rw [step_of_busy hh hb] at h
  rcases exec_micro_control h with ⟨e, k, u, rfl, -⟩ | ⟨hbusy, -, -, -, -, hq⟩
  · exact .inl ⟨rfl, rfl, rfl⟩
  · refine .inr ⟨hbusy.trans hb, ?_⟩
    rw [rank, rank]
    rcases phaseRank_lt_of_mem_phasesAfter _ hp _ hq with hstay | hdown
    · rw [hstay]
      exact Nat.add_lt_add_left (cursorRank_lt_of_stay hp h hstay) _
    · have := cursorRank_lt t
      omega

end Sys2Proof.Machine
end

section
/-! PROOFS. The two commands as functions (45 R200, R201): the symbols and codes of an input, the packed bits read back,
and the round trip of the two functions (R202). -/

namespace Sys2Proof.Machine

/-! ## The symbols of an input -/

section
variable {input : List Byte}

/-- The symbols that occur in an input, in the order of its leaves (40 R114). -/
def symbols (input : List Byte) : List Byte := seedOrder (countTable input)

theorem leafRecords_eq (input : List Byte) :
    leafRecords input = (symbols input).map fun b => ⟨countTable input b, b⟩ := rfl

theorem nodup_symbols (input : List Byte) : (symbols input).Nodup := by
  refine pairwise_seedOrder.imp fun {a b} hab => ?_
  rintro rfl
  rw [seedBefore_iff] at hab
  bv_omega

/-- A count is below the length of the input, so its 32 bits hold it. -/
theorem toNat_countTable (hlen : input.length < 2 ^ 32) (b : Byte) : (countTable input b).toNat = input.count b := by
  have hle : input.count b ≤ input.length := List.count_le_length
  rw [countTable, BitVec.toNat_ofNat]
  omega

theorem mem_symbols (hlen : input.length < 2 ^ 32) (b : Byte) : b ∈ symbols input ↔ b ∈ input := by
  rw [symbols, mem_seedOrder, BitVec.lt_def, toNat_countTable hlen]
  exact List.count_pos_iff

theorem length_leafRecords_le (input : List Byte) : (leafRecords input).length ≤ 256 := by
  rw [leafRecords_eq, List.length_map]
  exact length_seedOrder_le _

/-- There are as many leaves as distinct byte values (45 R200). -/
theorem length_leafRecords (hlen : input.length < 2 ^ 32) : (leafRecords input).length = input.dedup.length := by
  rw [leafRecords_eq, List.length_map]
  refine ((List.perm_ext_iff_of_nodup (nodup_symbols input) input.nodup_dedup).2 fun b => ?_).length_eq
  rw [mem_symbols hlen, List.mem_dedup]

theorem leafRecords_ne_nil (hlen : input.length < 2 ^ 32) (hne : input ≠ []) : leafRecords input ≠ [] := by
  obtain ⟨b, hb⟩ := List.exists_mem_of_ne_nil input hne
  exact List.ne_nil_of_mem (List.mem_map.2 ⟨b, (mem_symbols hlen b).2 hb, rfl⟩)

/-- A sum over the input is the sum over its symbols, each taken as often as it occurs. -/
theorem sum_map_input (hlen : input.length < 2 ^ 32) (f : Byte → Nat) :
    (input.map f).sum = ((leafRecords input).map fun l => l.freq.toNat * f l.sym).sum := by
  have hset : (symbols input).toFinset = input.toFinset := by
    ext b
    rw [List.mem_toFinset, List.mem_toFinset, mem_symbols hlen]
  rw [Finset.sum_list_map_count, ← hset, List.sum_toFinset _ (nodup_symbols input), leafRecords_eq, List.map_map]
  congr 1
  refine List.map_congr_left fun b _ => ?_
  rw [Function.comp_apply, toNat_countTable hlen, smul_eq_mul]

end

/-! ## The codes of an input -/

/-- The tree of an input's leaves; none for the empty input. -/
def codeTree (input : List Byte) : Option CodeTree := buildTree ((leafRecords input).map recordTree)

/-- The code of a symbol in the tree of an input. -/
def symbolCode (input : List Byte) (b : Byte) : List Bool := ((codeTree input).bind (codeOf b)).getD []

/-- The bitstream of an input (30_encoding.md R92). -/
def payloadBits (input : List Byte) : List Bool := input.flatMap (symbolCode input)

/-- A tree has a code for exactly the symbols of its leaves. -/
theorem isSome_codeOf (b : Byte) (t : CodeTree) : (codeOf b t).isSome ↔ b ∈ (treeRecords t).map Prod.snd := by
  induction t with
  | leaf f c => simp [Option.isSome_iff_exists, codeOf_leaf_eq_some, eq_comm (a := b)]
  | node f l r ihl ihr =>
    rw [treeRecords_node, List.map_append, List.mem_append, ← ihl, ← ihr, codeOf]
    cases codeOf b l <;> simp

section
variable {input : List Byte} {t : CodeTree}

/-- The leaves of an input's tree carry its symbols. -/
theorem treeRecords_codeTree (h : codeTree input = some t) :
    ((treeRecords t).map Prod.snd).Perm (symbols input) := by
  obtain ⟨-, hbuilt⟩ := builderKeepsTheLeaves (leafRecords input)
  obtain ⟨hperm, -⟩ := hbuilt t h
  refine (hperm.map Prod.snd).trans (.of_eq ?_)
  rw [List.map_map, leafRecords_eq, List.map_map]
  exact List.map_id _

/-- Every symbol of an input has a code in its tree. -/
theorem codeOf_eq_symbolCode (hlen : input.length < 2 ^ 32) (h : codeTree input = some t) {b : Byte}
    (hb : b ∈ input) : codeOf b t = some (symbolCode input b) := by
  have hcode : (codeOf b t).isSome := by
    rw [isSome_codeOf, (treeRecords_codeTree h).mem_iff, mem_symbols hlen]
    exact hb
  obtain ⟨p, hp⟩ := Option.isSome_iff_exists.1 hcode
  rw [symbolCode, h, Option.bind_some, hp, Option.getD_some]

theorem codeTree_eq_none (hlen : input.length < 2 ^ 32) (h : codeTree input = none) : input = [] := by
  by_contra hne
  exact leafRecords_ne_nil hlen hne (List.map_eq_nil_iff.1 (buildTree_eq_none.1 h))

/-- The compressed buffer is header, leaf records and packed bits; the empty input has no leaf and no bit (45 R200). -/
theorem compressBytes_eq (hlen : input.length < 2 ^ 32) :
    compressBytes input =
      encodeHdr ⟨BitVec.ofNat 32 input.length, BitVec.ofNat 8 ((leafRecords input).length - 1)⟩ ++
        ((leafRecords input).flatMap encodeLeaf ++ packStream (payloadBits input)) := by
  rw [compressBytes]
  cases h : codeTree input with
  | none =>
    obtain rfl := codeTree_eq_none hlen h
    rfl
  | some t =>
    have hstream : codeStream t input = payloadBits input := by
      refine List.flatMap_congr fun b hb => ?_
      rw [codeOf_eq_symbolCode hlen h hb, Option.getD_some]
    rw [codeTree] at h
    simp only [h, hstream, List.append_assoc]

end

/-! ## Bits packed and read back -/

/-- The number whose bits, the lowest first, these are. -/
def numberOfBits (bits : List Bool) : Nat := bits.foldr (fun b n => b.toNat + 2 * n) 0

theorem testBit_numberOfBits (bits : List Bool) (i : Nat) : (numberOfBits bits).testBit i = bits.getD i false := by
  induction bits generalizing i with
  | nil => simp [numberOfBits]
  | cons b bits ih =>
    have hcons : numberOfBits (b :: bits) = b.toNat + 2 * numberOfBits bits := rfl
    rw [hcons]
    cases i with
    | zero => cases b <;> simp [Nat.testBit_zero]
    | succ i =>
      have hhalf : (b.toNat + 2 * numberOfBits bits) / 2 = numberOfBits bits := by
        have := b.toNat_lt
        omega
      rw [Nat.testBit_succ, hhalf, ih, List.getD_cons_succ]

/-- Bit `i` of byte `j` is stream bit `8j + i`, and 0 beyond the stream's end (30_encoding.md R93, R95). -/
theorem getLsbD_packedByte (stream : List Bool) (j : Nat) {i : Nat} (hi : i < 8) :
    (packedByte stream j).getLsbD i = stream.getD (8 * j + i) false := by
  have hbits : packedByte stream j =
      BitVec.ofNat 8 (numberOfBits ((List.range 8).map fun i => stream.getD (8 * j + i) false)) := by
    rw [packedByte, numberOfBits, List.foldr_map]
  rw [hbits, BitVec.getLsbD_ofNat, testBit_numberOfBits, decide_eq_true hi, Bool.true_and,
    List.getD_eq_getElem _ _ (by simpa using hi), List.getElem_map, List.getElem_range]

theorem bitsOf_cons (b : Byte) (bytes : List Byte) :
    bitsOf (b :: bytes) = (List.range 8).map b.getLsbD ++ bitsOf bytes := rfl

@[simp] theorem length_bitsOf (bytes : List Byte) : (bitsOf bytes).length = 8 * bytes.length := by
  induction bytes with
  | nil => rfl
  | cons b bytes ih =>
    rw [bitsOf_cons, List.length_append, List.length_map, List.length_range, ih, List.length_cons]
    omega

/-- Bit `p` of a byte string is bit `p mod 8` of byte `p div 8` (30_encoding.md R93). -/
theorem getElem?_bitsOf (bytes : List Byte) (p : Nat) :
    (bitsOf bytes)[p]? = bytes[p / 8]?.map fun b => b.getLsbD (p % 8) := by
  induction bytes generalizing p with
  | nil => rfl
  | cons b bytes ih =>
    rw [bitsOf_cons]
    by_cases hp : p < 8
    · rw [List.getElem?_append_left (by simpa using hp), Nat.div_eq_of_lt hp, Nat.mod_eq_of_lt hp]
      simp [hp]
    · obtain ⟨q, rfl⟩ : ∃ q, p = q + 8 := ⟨p - 8, by omega⟩
      rw [List.getElem?_append_right (by simp), List.length_map, List.length_range, Nat.add_sub_cancel, ih,
        Nat.add_div_right _ (by decide), Nat.add_mod_right, List.getElem?_cons_succ]

/-- The bits of a packed stream begin with the stream (30_encoding.md R93, R95). -/
theorem prefix_bitsOf_packStream (stream : List Bool) : stream <+: bitsOf (packStream stream) := by
  rw [List.prefix_iff_getElem?]
  intro p hp
  have hbyte : p / 8 < ceil8 stream.length := by
    rw [ceil8]
    omega
  rw [getElem?_bitsOf, packStream, List.getElem?_map, List.getElem?_range hbyte, Option.map_some, Option.map_some,
    getLsbD_packedByte _ _ (Nat.mod_lt p (by decide)), Nat.div_add_mod, List.getD_eq_getElem _ _ hp]

/-! ## The round trip -/

/-- A walk along a symbol's code ends at its leaf, with the bits after the code left (30_encoding.md R96). -/
theorem walkTree_of_codeOf {b : Byte} {t : CodeTree} {p : List Bool} (h : codeOf b t = some p) (rest : List Bool) :
    walkTree t (p ++ rest) = some (b, rest) := by
  induction t generalizing p with
  | leaf f c =>
    obtain ⟨rfl, rfl⟩ := codeOf_leaf_eq_some.1 h
    rfl
  | node f l r ihl ihr =>
    rcases codeOf_node_cases h with ⟨q, hq, rfl⟩ | ⟨q, hq, rfl⟩
    · exact ihl hq
    · exact ihr hq

/-- Symbols that all have codes are read back from the stream of their codes, whatever follows it. -/
theorem unpackSymbols_flatMap {t : CodeTree} {code : Byte → List Bool} (input : List Byte)
    (h : ∀ b ∈ input, codeOf b t = some (code b)) (rest : List Bool) :
    unpackSymbols t input.length (input.flatMap code ++ rest) = some input := by
  induction input with
  | nil => rfl
  | cons b input ih =>
    obtain ⟨hb, hinput⟩ := List.forall_mem_cons.1 h
    rw [List.flatMap_cons, List.append_assoc, List.length_cons, unpackSymbols, walkTree_of_codeOf hb]
    simp only [ih hinput, Option.map_some]

/-- Settles O7: the leaves read back are the input's, so the tree is the same, and a walk along its codes gives the
symbols back. -/
theorem codecRoundTrip : Obligations.CodecRoundTrip := by
  intro input outCap hlen hcap
  rw [compressBytes_eq hlen, decompressResult, decodeHdr_encodeHdr]
  dsimp only
  have hlength : (BitVec.ofNat 32 input.length).toNat = input.length := by
    rw [BitVec.toNat_ofNat]
    omega
  by_cases hempty : input = []
  · subst hempty
    rfl
  have horig : BitVec.ofNat 32 input.length ≠ 0#32 := by
    intro h
    rw [h] at hlength
    exact hempty (List.length_eq_zero_iff.1 hlength.symm)
  have hcount : (leafCountOf (BitVec.ofNat 32 input.length) (BitVec.ofNat 8 ((leafRecords input).length - 1))).toNat =
      (leafRecords input).length := by
    have hle := length_leafRecords_le input
    have hpos := List.length_pos_iff.2 (leafRecords_ne_nil hlen hempty)
    rw [toNat_leafCountOf horig, BitVec.toNat_ofNat]
    omega
  rw [if_neg horig, hcount, leafListRoundTrip]
  dsimp only
  rw [hlength, if_neg (Nat.not_lt.2 hcap)]
  have hsymbols : payloadSymbols input.length (leafRecords input) (packStream (payloadBits input)) = some input := by
    cases h : codeTree input with
    | none => exact absurd (codeTree_eq_none hlen h) hempty
    | some t =>
      obtain ⟨rest, hrest⟩ := prefix_bitsOf_packStream (payloadBits input)
      rw [payloadSymbols, ← codeTree, h, Option.bind_some, ← hrest]
      exact unpackSymbols_flatMap input (fun b hb => codeOf_eq_symbolCode hlen h hb) rest
  rw [hsymbols]

end Sys2Proof.Machine
end

section
/-! PROOFS. The trees of the node store: which tree stands at a node, that MERGE builds the tree of the rule's function
(41_tree_builder.md R122, 45 R200), and the path to each of its leaves. -/

namespace Sys2Proof.Machine

/-! ## A tree in the node store -/

/-- The tree stands in the node store with its root at a node, all of it below `NN` (10_state.md R31). -/
def Stores (s : State) : CodeTree → NodeIx → Prop
  | .leaf f b, x =>
    x.toNat < s.nn.toNat ∧ (nodeAt s x).freq.toNat = f ∧ (nodeAt s x).sym = b ∧ (nodeAt s x).left = nil
  | .node f l r, x =>
    x.toNat < s.nn.toNat ∧ (nodeAt s x).freq.toNat = f ∧ Stores s l (nodeAt s x).left ∧
      Stores s r (nodeAt s x).right

section
variable {s t : State} {u : CodeTree} {x : NodeIx}

theorem Stores.lt_nn (h : Stores s u x) : x.toNat < s.nn.toNat := by
  cases u <;> exact h.1

theorem Stores.freq (h : Stores s u x) : (nodeAt s x).freq.toNat = treeFreq u := by
  cases u <;> exact h.2.1

/-- A stored tree's root is a leaf in the store exactly when the tree is one (10_state.md R31). -/
theorem Stores.left_ne_nil {f : Nat} {l r : CodeTree} (h : Stores s (.node f l r) x) (hnn : s.nn.toNat ≤ maxNodes) :
    (nodeAt s x).left ≠ nil := by
  obtain ⟨-, -, hl, -⟩ := h
  intro e
  have hlt := hl.lt_nn
  rw [e] at hlt
  exact absurd (hlt.trans_le hnn) (by decide)

/-- A tree stays where it is while the nodes below `NN` keep their frequencies, symbols and children. -/
theorem Stores.mono (h : Stores s u x) (hnn : s.nn.toNat ≤ t.nn.toNat)
    (hsame : ∀ y : NodeIx, y.toNat < s.nn.toNat → (nodeAt t y).freq = (nodeAt s y).freq ∧
      (nodeAt t y).sym = (nodeAt s y).sym ∧ (nodeAt t y).left = (nodeAt s y).left ∧
      (nodeAt t y).right = (nodeAt s y).right) : Stores t u x := by
  induction u generalizing x with
  | leaf f b =>
    obtain ⟨hx, hf, hs, hl⟩ := h
    obtain ⟨ef, es, el, -⟩ := hsame x hx
    exact ⟨hx.trans_le hnn, ef ▸ hf, es.trans hs, el.trans hl⟩
  | node f l r ihl ihr =>
    obtain ⟨hx, hf, hl, hr⟩ := h
    obtain ⟨ef, -, el, er⟩ := hsame x hx
    exact ⟨hx.trans_le hnn, ef ▸ hf, el ▸ ihl hl, er ▸ ihr hr⟩

/-- Only the node store, the count of resets and `NN` matter. -/
theorem Stores.congr (h : Stores s u x) (hnode : t.node = s.node) (he : t.epoch = s.epoch) (hnn : t.nn = s.nn) :
    Stores t u x :=
  h.mono (by rw [hnn]) fun y _ => by rw [nodeAt_congr hnode he]; exact ⟨rfl, rfl, rfl, rfl⟩

end

/-! ## Insertion -/

/-- Insertion goes behind the trees of strictly smaller frequency and before the first that is not smaller. -/
theorem treeInsert_append {t : CodeTree} {u v : List CodeTree} (hu : ∀ x ∈ u, treeFreq x < treeFreq t)
    (hv : ∀ x ∈ v.head?, treeFreq t ≤ treeFreq x) : treeInsert t (u ++ v) = u ++ t :: v := by
  induction u with
  | nil =>
    cases v with
    | nil => rfl
    | cons x v => exact if_neg (Nat.not_lt.2 (hv x rfl))
  | cons x u ih =>
    obtain ⟨hx, hu⟩ := List.forall_mem_cons.1 hu
    rw [List.cons_append, treeInsert, if_pos hx, ih hu, List.cons_append]

section
variable {s t : State} {a b : NodeIx} {rest : List NodeIx} (m : MergeOf s t a b rest)
include m

theorem MergeOf.length_rest : rest.length + 2 = s.qn.toNat := by
  have hlen := congrArg List.length m.before
  simp only [queue, List.length_map, List.length_range, List.length_append, List.length_cons, List.length_nil] at hlen
  omega

theorem MergeOf.getElem_rest {j : Nat} (hj : j < rest.length) : rest[j] = queueAt s j := by
  have hlen := m.length_rest
  have hget : (queue s)[j]? = (rest ++ [b, a])[j]? := by rw [m.before]
  rw [List.getElem?_append_left hj, List.getElem?_eq_getElem hj, queue, List.getElem?_map,
    List.getElem?_range (by omega)] at hget
  exact (Option.some.inj hget).symm

theorem MergeOf.entries : a = tailEntry s ∧ b = secondEntry s := by
  have hlen := m.length_rest
  have hget : ∀ j < s.qn.toNat, some (queueAt s j) = (rest ++ [b, a])[j]? := fun j hj => by
    rw [← m.before, queue, List.getElem?_map, List.getElem?_range hj]
    rfl
  have ha := hget (rest.length + 1) (by omega)
  have hb := hget rest.length (by omega)
  rw [List.getElem?_append_right (by omega)] at ha hb
  simp only [Nat.add_sub_cancel_left, Nat.sub_self, List.getElem?_cons_succ, List.getElem?_cons_zero,
    Option.some.injEq] at ha hb
  rw [tailEntry, secondEntry, ← hlen]
  exact ⟨ha.symm, hb.symm⟩

/-- The queue after a merge, the new node at place `i`. -/
theorem MergeOf.queue_after {i : Nat} (hi : PlacedAt s t i) : queue t = rest.take i ++ s.nn :: rest.drop i := by
  have hlen := m.length_rest
  have hqn := m.qn
  have hroom := hi.room
  refine List.ext_getElem ?_ fun j hj _ => ?_
  · simp only [queue, List.length_map, List.length_range, List.length_append, List.length_take, List.length_cons,
      List.length_drop]
    omega
  · simp only [queue, List.length_map, List.length_range] at hj
    simp only [queue, List.getElem_map, List.getElem_range]
    rcases Nat.lt_trichotomy j i with hji | rfl | hji
    · rw [List.getElem_append_left (by rw [List.length_take]; omega), List.getElem_take, m.getElem_rest,
        hi.before j hji]
    · rw [List.getElem_append_right (by simp)]
      simp only [List.length_take, Nat.min_eq_left (show j ≤ rest.length by omega), Nat.sub_self,
        List.getElem_cons_zero]
      exact hi.new
    · rw [List.getElem_append_right (by simp; omega)]
      obtain ⟨k, rfl⟩ := Nat.exists_eq_add_of_lt hji
      have hplace : i + k + 1 - (rest.take i).length = k + 1 := by simp only [List.length_take]; omega
      simp only [hplace, List.getElem_cons_succ, List.getElem_drop]
      rw [m.getElem_rest, hi.behind _ hji (by omega), Nat.add_sub_cancel]

end

/-! ## MERGE builds the tree -/

/-- The leaf records stand in the first nodes, in their order (40 R113, 43 R160). -/
structure LeavesStored (leaves : List LeafRecord) (s : State) : Prop where
  n : s.n.toNat = leaves.length
  freq : ∀ (x : NodeIx) (h : x.toNat < leaves.length), (nodeAt s x).freq = (leaves[x.toNat]).freq.setWidth 40
  sym : ∀ (x : NodeIx) (h : x.toNat < leaves.length), (nodeAt s x).sym = (leaves[x.toNat]).sym

/-- The queue's entries are the roots of these trees, whose merges give what the merges of the leaves give; their
frequencies together fit the 40 bits of a node's. -/
structure TreesQueued (leaves : List LeafRecord) (tree : NodeIx → CodeTree) (s : State) : Prop where
  stored : ∀ x ∈ queue s, Stores s (tree x) x
  merges : treeMerges s.qn.toNat ((queue s).reverse.map tree) =
    treeMerges leaves.length (leaves.map recordTree).reverse
  bounded : ((queue s).map fun x => treeFreq (tree x)).sum < 2 ^ 40

/-- What holds between two merges: a forest, with the leaves and the trees queued. -/
def Building (leaves : List LeafRecord) (s : State) : Prop :=
  Forest s ∧ LeavesStored leaves s ∧ ∃ tree, TreesQueued leaves tree s

/-- The frequencies of at most 256 records fit 40 bits. -/
theorem sum_freq_lt {leaves : List LeafRecord} (h : leaves.length ≤ 256) :
    (leaves.map fun l => l.freq.toNat).sum < 2 ^ 40 := by
  have hle : (leaves.map fun l => l.freq.toNat).sum ≤ leaves.length * (2 ^ 32 - 1) := by
    rw [← smul_eq_mul, ← List.length_map (f := fun l : LeafRecord => l.freq.toNat)]
    refine List.sum_le_card_nsmul _ _ fun n hn => ?_
    obtain ⟨l, -, rfl⟩ := List.mem_map.1 hn
    have := l.freq.isLt
    omega
  omega

/-- Leaves queued in index order begin the building (41 R120). -/
theorem building_of_leaves {leaves : List LeafRecord} {s : State} (h1 : 1 ≤ leaves.length)
    (h256 : leaves.length ≤ 256) (hn : s.n.toNat = leaves.length) (hnn : s.nn = s.n) (hqn : s.qn = s.n)
    (hleaf : ∀ (x : NodeIx) (h : x.toNat < leaves.length),
      nodeAt s x = leafNode ((leaves[x.toNat]).freq.setWidth 40) (leaves[x.toNat]).sym)
    (hqueue : ∀ j < leaves.length, queueAt s j = BitVec.ofNat 9 j) : Building leaves s := by
  have hnat : ∀ j < leaves.length, (BitVec.ofNat 9 j).toNat = j := fun j hj =>
    toNat_ofNat_of_lt (by simp only [maxNodes]; omega)
  have hentry : MergeEntry s := by
    refine ⟨by omega, by omega, hqn, hnn, fun j hj => ?_⟩
    rw [hn] at hj
    exact ⟨hqueue j hj, _, _, hleaf (BitVec.ofNat 9 j) (by rw [hnat j hj]; exact hj)⟩
  have hlist := queue_of_mergeEntry hentry
  rw [hn] at hlist
  have htrees : (queue s).map (fun x => recordTree (leaves.getD x.toNat ⟨0, 0⟩)) = leaves.map recordTree := by
    rw [hlist, List.map_map]
    refine List.ext_getElem (by simp) fun j hj _ => ?_
    have hj' : j < leaves.length := by simpa using hj
    simp [-BitVec.toNat_ofNat, hnat j hj', hj']
  refine ⟨forest_of_mergeEntry hentry, ⟨hn, fun x hx => by rw [hleaf x hx, leafNode],
    fun x hx => by rw [hleaf x hx, leafNode]⟩, fun x => recordTree (leaves.getD x.toNat ⟨0, 0⟩),
    fun x hx => ?_, ?_, ?_⟩
  · rw [mem_queue_of_mergeEntry hentry] at hx
    have hx' : x.toNat < leaves.length := hn ▸ hx
    have hsmall := (leaves[x.toNat]).freq.isLt
    rw [List.getD_eq_getElem _ _ hx', recordTree, Stores, hleaf x hx', hnn, leafNode]
    refine ⟨hx, ?_, rfl, rfl⟩
    rw [BitVec.toNat_setWidth]
    omega
  · rw [List.map_reverse, htrees, hqn, hn]
  · have hfreq := congrArg (List.map treeFreq) htrees
    rw [List.map_map, List.map_map] at hfreq
    have hsum := congrArg List.sum hfreq
    exact lt_of_eq_of_lt hsum (sum_freq_lt h256)

section
variable {s t : State} {leaves : List LeafRecord}

theorem LeavesStored.of_keepsLeaves (h : LeavesStored leaves s) (hkeep : KeepsLeaves s t) : LeavesStored leaves t := by
  obtain ⟨hn, hleaf⟩ := hkeep
  refine ⟨hn ▸ h.n, fun x hx => ?_, fun x hx => ?_⟩
  · obtain ⟨hf, -⟩ := hleaf x (h.n ▸ hx)
    exact hf.trans (h.freq x hx)
  · obtain ⟨-, hs⟩ := hleaf x (h.n ▸ hx)
    exact hs.trans (h.sym x hx)

/-- The tree a merge makes of the trees at the queue's last two entries (41 R122, R123). -/
def joinedTree (tree : NodeIx → CodeTree) (s : State) : CodeTree :=
  .node (treeFreq (tree (tailEntry s)) + treeFreq (tree (secondEntry s))) (tree (tailEntry s)) (tree (secondEntry s))

/-- The tree at each node, the new node's among them. -/
def treesAfter (tree : NodeIx → CodeTree) (s : State) : NodeIx → CodeTree :=
  Function.update tree s.nn (joinedTree tree s)

@[simp] theorem treesAfter_nn (tree : NodeIx → CodeTree) (s : State) : treesAfter tree s s.nn = joinedTree tree s :=
  Function.update_self _ _ _

theorem Forest.nn_le {s : State} (h : Forest s) : s.nn.toNat ≤ maxNodes := by
  obtain ⟨-, h256⟩ := h.leafCount
  obtain ⟨x, hx, -⟩ := h.newest
  obtain ⟨j, hj, -⟩ := mem_queue.1 hx
  have := h.counts
  simp only [maxNodes]
  omega

theorem Forest.queueBelow {s : State} (h : Forest s) : QueueBelow s := fun j hj => by
  have hlt := h.below _ (mem_queue.2 ⟨j, hj, rfl⟩)
  exact ⟨hlt.trans_le h.nn_le, fun e => by rw [e] at hlt; omega⟩

section
variable {tree : NodeIx → CodeTree} {rest : List NodeIx}
  (h : TreesQueued leaves tree s) (m : MergeOf s t (tailEntry s) (secondEntry s) rest)
include h m

/-- The new node's frequency does not wrap (41 R122). -/
theorem TreesQueued.toNat_joinedFreq :
    (joinedFreq s (tailEntry s) (secondEntry s)).toNat = treeFreq (joinedTree tree s) := by
  have hbounded := h.bounded
  rw [m.before] at hbounded
  simp only [List.map_append, List.map_cons, List.map_nil, List.sum_append, List.sum_cons, List.sum_nil] at hbounded
  rw [joinedFreq, BitVec.toNat_add, (h.stored _ ((m.mem_before _).2 (by simp))).freq,
    (h.stored _ ((m.mem_before _).2 (by simp))).freq, joinedTree, treeFreq_node]
  omega

omit h in
theorem treesAfter_of_mem_rest {x : NodeIx} (hx : x ∈ rest) : treesAfter tree s x = tree x :=
  Function.update_of_ne (m.unmoved x hx).1 _ _

/-- The place the scan finds is the place of the insertion (41 R124). -/
theorem TreesQueued.treeInsert_eq {i : Nat} (hi : PlacedAt s t i) :
    treeInsert (joinedTree tree s) (rest.reverse.map tree) = (queue t).reverse.map (treesAfter tree s) := by
  have hjoined := h.toNat_joinedFreq m
  have hlen := m.length_rest
  have hroom := hi.room
  have hfreq : ∀ j < s.qn.toNat, (nodeAt s (queueAt s j)).freq.toNat = treeFreq (tree (queueAt s j)) := fun j hj =>
    (h.stored _ (mem_queue.2 ⟨j, hj, rfl⟩)).freq
  have hsplit : rest.reverse = (rest.drop i).reverse ++ (rest.take i).reverse := by
    rw [← List.reverse_append, List.take_append_drop]
  rw [m.queue_after hi, hsplit, List.map_append, treeInsert_append]
  · simp only [List.reverse_append, List.reverse_cons, List.map_append, List.append_assoc, List.map_cons,
      List.cons_append, List.nil_append, treesAfter_nn]
    rw [List.map_congr_left fun x hx =>
        treesAfter_of_mem_rest m (List.mem_of_mem_drop (List.mem_reverse.1 hx)),
      List.map_congr_left fun x hx => treesAfter_of_mem_rest m (List.mem_of_mem_take (List.mem_reverse.1 hx))]
  · intro u hu
    obtain ⟨x, hx, rfl⟩ := List.mem_map.1 hu
    obtain ⟨j, hj, rfl⟩ := List.getElem_of_mem (List.mem_reverse.1 hx)
    rw [List.length_drop] at hj
    rw [List.getElem_drop, m.getElem_rest, ← hfreq _ (by omega), ← hjoined]
    exact BitVec.lt_def.1 (hi.passed (i + j) (by omega) (by omega))
  · intro u hu
    rw [List.head?_map, List.head?_reverse, Option.mem_map] at hu
    obtain ⟨x, hx, rfl⟩ := hu
    have hpos : 0 < i := by
      by_contra hzero
      obtain rfl : i = 0 := by omega
      simp at hx
    rw [Option.mem_def, List.getLast?_eq_getElem?, List.length_take, Nat.min_eq_left (by omega),
      List.getElem?_take_of_lt (by omega), List.getElem?_eq_getElem (by omega), m.getElem_rest] at hx
    rw [← Option.some.inj hx, ← hfreq _ (by omega), ← hjoined]
    exact BitVec.le_def.1 (hi.stop hpos)

/-- A merge of the store is the merge of the trees queued (41 R122 to R124). -/
theorem TreesQueued.merge {i : Nat} (hi : PlacedAt s t i) :
    TreesQueued leaves (treesAfter tree s) t := by
  have hnn := m.nn
  have ha : tailEntry s ∈ queue s := (m.mem_before _).2 (by simp)
  have hb : secondEntry s ∈ queue s := (m.mem_before _).2 (by simp)
  have hkeep : ∀ x ∈ queue s, Stores t (tree x) x := fun x hx =>
    (h.stored x hx).mono (by omega) fun y hy => m.joins.children fun e => by rw [e] at hy; omega
  refine ⟨fun x hx => ?_, ?_, ?_⟩
  · rcases (m.mem_after x).1 hx with rfl | hx
    · rw [treesAfter_nn, joinedTree, Stores, m.joins.new]
      exact ⟨by omega, h.toNat_joinedFreq m, hkeep _ ha, hkeep _ hb⟩
    · rw [treesAfter_of_mem_rest m hx]
      exact hkeep x ((m.mem_before x).2 (.inl hx))
  · have hqueue : (queue s).reverse.map tree =
        tree (tailEntry s) :: tree (secondEntry s) :: rest.reverse.map tree := by
      rw [m.before]
      simp
    rw [← h.merges, ← m.qn, hqueue, treeMerges, treeMerge, ← h.treeInsert_eq m hi, joinedTree]
  · have hbounded := h.bounded
    rw [m.before] at hbounded
    simp only [List.map_append, List.map_cons, List.map_nil, List.sum_append, List.sum_cons, List.sum_nil] at hbounded
    rw [(m.after.map _).sum_eq, List.map_cons, List.sum_cons, treesAfter_nn,
      List.map_congr_left (g := fun x => treeFreq (tree x)) fun x hx => by rw [treesAfter_of_mem_rest m hx],
      joinedTree, treeFreq_node]
    omega

end

theorem Building.forest (h : Building leaves s) : Forest s := h.1

theorem Building.leavesStored (h : Building leaves s) : LeavesStored leaves s := h.2.1

theorem Building.mergeOnce (h : Building leaves s) (hq : 2 ≤ s.qn.toNat) (ht : mergeOnce s = .ok t) :
    Building leaves t := by
  obtain ⟨hf, hleaves, tree, htrees⟩ := h
  obtain ⟨a, b, rest, m⟩ := hf.mergeOf hq ht
  obtain ⟨i, hi⟩ := placedAt_of_mergeOnce hq hf.queueBelow ht
  obtain ⟨rfl, rfl⟩ := m.entries
  exact ⟨hf.merge m, hleaves.of_keepsLeaves (hf.merge_keepsLeaves m), _, htrees.merge m hi⟩

end

/-! ## The tree that is left -/

/-- What MERGE ends with: the leaves in their places, and the tree of the rule's function at the one entry left. -/
structure TreeBuilt (leaves : List LeafRecord) (u : CodeTree) (x : NodeIx) (s : State) : Prop where
  forest : Forest s
  leavesStored : LeavesStored leaves s
  single : queue s = [x]
  built : buildTree (leaves.map recordTree) = some u
  stored : Stores s u x

/-- With one entry left the tree is built (41 R127). -/
theorem Building.treeBuilt {s : State} {leaves : List LeafRecord} (h : Building leaves s) (hq : s.qn.toNat < 2) :
    ∃ u, TreeBuilt leaves u (queueAt s 0) s := by
  obtain ⟨hf, hleaves, tree, hstored, hmerges, -⟩ := h
  obtain ⟨y, hy, -⟩ := hf.newest
  obtain ⟨j, hj, -⟩ := mem_queue.1 hy
  have hone : s.qn.toNat = 1 := by omega
  have hqueue : queue s = [queueAt s 0] := by
    rw [queue, hone]
    rfl
  rw [hqueue, hone] at hmerges
  refine ⟨tree (queueAt s 0), hf, hleaves, hqueue, ?_, hstored _ (by simp [hqueue])⟩
  rw [buildTree, List.length_map, ← hmerges]
  rfl

/-- The tree stays built while the nodes, the queue and their counts stay. -/
theorem TreeBuilt.congr {s t : State} {leaves : List LeafRecord} {u : CodeTree} {x : NodeIx}
    (h : TreeBuilt leaves u x s) (hnode : t.node = s.node) (hq : t.q = s.q) (he : t.epoch = s.epoch) (hn : t.n = s.n)
    (hnn : t.nn = s.nn) (hqn : t.qn = s.qn) : TreeBuilt leaves u x t := by
  have hnodes : nodeAt t = nodeAt s := funext (nodeAt_congr hnode he)
  have hqueue : queue t = queue s := by rw [queue, queue, hqn, funext (queueAt_congr hq he)]
  obtain ⟨⟨h1, h2, h3, h4, h5, h6, h7, h8, h9, h10⟩, ⟨hleaf, hfreq, hsym⟩, hsingle, hbuilt, hstored⟩ := h
  refine ⟨⟨?_, ?_, ?_, ?_, ?_, ?_, ?_, ?_, ?_, ?_⟩, ⟨?_, ?_, ?_⟩, hqueue.trans hsingle, hbuilt,
    hstored.congr hnode he hnn⟩ <;>
  simp only [OneChild, hnodes, hqueue, hn, hnn, hqn] <;> assumption

theorem TreeBuilt.mergeExited {s : State} {leaves : List LeafRecord} {u : CodeTree} {x : NodeIx}
    (h : TreeBuilt leaves u x s) : TreeBuilt leaves u x (mergeExited s) :=
  h.congr rfl rfl rfl rfl rfl rfl

/-- The subtree at the end of a path from the root, false for left and true for right. -/
def subtreeAt : List Bool → CodeTree → Option CodeTree
  | [], u => some u
  | _ :: _, .leaf _ _ => none
  | b :: path, .node _ l r => subtreeAt path (if b then r else l)

/-- One branch further on. -/
theorem subtreeAt_append_singleton {path : List Bool} {b : Bool} {u l r : CodeTree} {f : Nat}
    (h : subtreeAt path u = some (.node f l r)) : subtreeAt (path ++ [b]) u = some (if b then r else l) := by
  induction path generalizing u with
  | nil =>
    obtain rfl := Option.some.inj h
    rfl
  | cons c path ih =>
    cases u with
    | leaf g d => cases h
    | node g v w => exact ih h

/-- Where no symbol occurs twice, the path to a leaf is its symbol's code (42 R142). -/
theorem codeOf_of_subtreeAt {path : List Bool} {u : CodeTree} {f : Nat} {b : Byte}
    (h : subtreeAt path u = some (.leaf f b)) (hdistinct : ((treeRecords u).map Prod.snd).Nodup) :
    codeOf b u = some path ∧ b ∈ (treeRecords u).map Prod.snd := by
  induction path generalizing u with
  | nil =>
    obtain rfl := Option.some.inj h
    exact ⟨codeOf_leaf_eq_some.2 ⟨rfl, rfl⟩, by simp⟩
  | cons c path ih =>
    cases u with
    | leaf g d => cases h
    | node g l r =>
      rw [treeRecords_node, List.map_append] at hdistinct ⊢
      obtain ⟨hl, hr, hapart⟩ := List.nodup_append.1 hdistinct
      cases c with
      | false =>
        obtain ⟨hcode, hmem⟩ := ih (u := l) h hl
        exact ⟨by rw [codeOf, hcode], List.mem_append_left _ hmem⟩
      | true =>
        obtain ⟨hcode, hmem⟩ := ih (u := r) h hr
        have hnone : codeOf b l = none := by
          rw [← Option.not_isSome_iff_eq_none, isSome_codeOf]
          exact fun hbl => hapart b hbl b hmem rfl
        exact ⟨by rw [codeOf, hnone, hcode]; rfl, List.mem_append_right _ hmem⟩

/-- A code is shorter than its tree has leaves (42 R143). -/
theorem length_lt_of_codeOf {b : Byte} {u : CodeTree} {path : List Bool} (h : codeOf b u = some path) :
    path.length < (treeRecords u).length := by
  induction u generalizing path with
  | leaf f c =>
    obtain ⟨-, rfl⟩ := codeOf_leaf_eq_some.1 h
    exact Nat.one_pos
  | node f l r ihl ihr =>
    have hpos : ∀ v : CodeTree, 0 < (treeRecords v).length := fun v => by
      induction v with
      | leaf g d => exact Nat.one_pos
      | node g v w ihv _ => rw [treeRecords_node, List.length_append]; omega
    have hl := hpos l
    have hr := hpos r
    rw [treeRecords_node, List.length_append]
    rcases codeOf_node_cases h with ⟨q, hq, rfl⟩ | ⟨q, hq, rfl⟩
    · have := ihl hq
      rw [List.length_cons]
      omega
    · have := ihr hq
      rw [List.length_cons]
      omega

/-- Every node below `NN` is in the tree, at the end of its path from the root (10_state.md R38). -/
theorem TreeBuilt.exists_rootPath {s : State} {leaves : List LeafRecord} {u : CodeTree} {root : NodeIx}
    (h : TreeBuilt leaves u root s) (x : NodeIx) (hx : x.toNat < s.nn.toNat) :
    ∃ path v, RootPath s x path ∧ subtreeAt path u = some v ∧ Stores s v x := by
  have hsize := h.forest.nn_le
  induction hk : s.nn.toNat - x.toNat using Nat.strong_induction_on generalizing x with
  | _ k ih =>
    by_cases hroot : x = root
    · subst hroot
      exact ⟨[], u, .root x (by omega) (h.forest.roots x (by simp [h.single])), rfl, h.stored⟩
    obtain ⟨p, hnp, hp, hparent, hchild⟩ := h.forest.linked x hx (by simpa [h.single] using hroot)
    obtain ⟨hleft, hright, hne⟩ := h.forest.inner p hnp hp
    have hdown : x.toNat < p.toNat := by
      rcases hchild with ⟨rfl, -⟩ | ⟨-, rfl⟩ <;> assumption
    obtain ⟨path, v, hpath, hv, hstores⟩ := ih _ (by omega) p hp rfl
    subst hparent
    have hbelow : (nodeAt s x).parent ≠ nil := fun e => by
      rw [e] at hp
      exact absurd (hp.trans_le hsize) (by decide)
    cases v with
    | leaf f b =>
      obtain ⟨-, -, -, hnil⟩ := hstores
      rw [hnil] at hleft
      exact absurd (hleft.trans (hp.trans_le hsize)) (by decide)
    | node f l r =>
      obtain ⟨-, -, hl, hr⟩ := hstores
      refine ⟨_, _, .down x path (by omega) hbelow hpath, subtreeAt_append_singleton hv, ?_⟩
      by_cases hbit : (nodeAt s (nodeAt s x).parent).right = x
      · rw [hbit] at hr
        simpa only [hbit, decide_true, if_true] using hr
      · rw [(hchild.resolve_right fun e => hbit e.2).1] at hl
        simpa only [hbit, decide_false, Bool.false_eq_true, if_false] using hl

end Sys2Proof.Machine
end

section
/-! PROOFS. Runs to their completion: the principle that a run whose every step answers and keeps what is known of its
phase reaches its end (45 R196, R198), and what stays the same along a run. -/

namespace Sys2Proof.Machine

/-! ## Reaching a completion -/

/-- Some number of steps leads from one state to the other. -/
def Reaches (s t : State) : Prop := ∃ k, runFor k s = .next t

theorem Reaches.refl (s : State) : Reaches s s := ⟨0, rfl⟩

theorem Reaches.trans {s t u : State} (h : Reaches s t) (h' : Reaches t u) : Reaches s u := by
  obtain ⟨j, hj⟩ := h
  obtain ⟨k, hk⟩ := h'
  exact ⟨j + k, (runFor_add_eq_next j k s u).2 ⟨t, hj, hk⟩⟩

theorem Reaches.of_step {s t u : State} (h : step s = .next t) (h' : Reaches t u) : Reaches s u :=
  .trans ⟨1, runFor_of_step h 0⟩ h'

/-- A run in a mode, with what is known of the phase it is in. -/
def Keeps (m : Mode) (known : Phase → State → Prop) (s : State) : Prop := ∃ p, Runs m p s ∧ known p s

/-- A micro-operation's step from `s` answers, and either ends the run as wanted or keeps what is known. -/
def Advances (m : Mode) (known : Phase → State → Prop) (done : State → Prop) (i : Instr) (s : State) : Prop :=
  ∃ t, exec i s = .next t ∧ (done t ∨ Keeps m known t)

/-- When every step advances, the run reaches its end: by O55 no run goes on for ever. -/
theorem reaches_of_advances {m : Mode} {known : Phase → State → Prop} {done : State → Prop}
    (hidle : ∀ s, ¬ known .idle s)
    (hadvance : ∀ p s, Runs m p s → known p s → Advances m known done (phaseInstr p) s) {s : State}
    (h : Keeps m known s) : ∃ t, Reaches s t ∧ done t := by
  induction hk : rank s using Nat.strong_induction_on generalizing s with
  | _ k ih =>
    subst hk
    obtain ⟨p, r, hknown⟩ := h
    have hp : s.phase ≠ .idle := by
      intro e
      obtain rfl := r.phase.symm.trans e
      exact hidle s hknown
    obtain ⟨t, hx, hdone | hkeeps⟩ := hadvance p s r hknown
    · exact ⟨t, .of_step ((step_of_runs r).trans hx) (.refl t), hdone⟩
    · have hstep := (step_of_runs r).trans hx
      have hlower : rank t < rank s := by
        obtain ⟨q, r', -⟩ := hkeeps
        rcases everyRunStepLowersTheRank s t r.host r.busy hp hstep with ⟨hb, -⟩ | ⟨-, hlt⟩
        · rw [r'.busy] at hb
          cases hb
        · exact hlt
      obtain ⟨u, hu, hdone⟩ := ih _ hlower hkeeps rfl
      exact ⟨u, .of_step hstep hu, hdone⟩

/-! ## The input of a run -/

@[simp] theorem length_inputOf (s : State) : (inputOf s).length = s.inLen.toNat := by simp [inputOf]

/-- The block's input and the room of its output. -/
structure Source (outCap : Nat) (input : List Byte) (s : State) : Prop where
  bytes : inputOf s = input
  fits : s.inLen ≤ s.params.inCap
  room : s.params.outCap.toNat = outCap

section
variable {outCap : Nat} {input : List Byte} {s t : State} (h : Source outCap input s)
include h

theorem Source.inLen : s.inLen.toNat = input.length := by
  rw [← h.bytes, length_inputOf]

theorem Source.inByte {a : Nat} (ha : a < input.length) : inByte s a = input[a] := by
  have hbytes := h.bytes
  subst hbytes
  simp [inputOf]

/-- A byte of the input can be read. -/
theorem Source.readable {a : Nat} (ha : a < input.length) : a < s.inLen.toNat ∧ a < s.params.inCap.toNat := by
  have hfits := BitVec.le_def.1 h.fits
  have hlen := h.inLen
  omega

/-- No instruction changes the input or the capacities. -/
theorem Source.exec {i : Instr} (hx : exec i s = .next t) : Source outCap input t := by
  obtain ⟨⟨-, hlen, hpar, -⟩, -⟩ := everyInstructionFrame _ _ _ hx
  obtain ⟨-, hbyte⟩ := exec_input hx
  refine ⟨?_, by rw [hlen, hpar]; exact h.fits, by rw [hpar]; exact h.room⟩
  rw [inputOf, hlen, funext hbyte]
  exact h.bytes

end

/-! ## The bytes of `OUT` -/

/-- The first bytes of `OUT`. -/
def outBytes (s : State) (k : Nat) : List Byte := (List.range k).map (outByte s)

theorem outBytes_add (s : State) (j k : Nat) :
    outBytes s (j + k) = outBytes s j ++ (List.range k).map fun i => outByte s (j + i) := by
  rw [outBytes, List.range_add, List.map_append, List.map_map]
  rfl

@[simp] theorem length_outBytes (s : State) (k : Nat) : (outBytes s k).length = k := by simp [outBytes]

theorem outBytes_congr {s t : State} {k : Nat} (h : ∀ c < k, outByte t c = outByte s c) :
    outBytes t k = outBytes s k :=
  List.map_congr_left fun c hc => h c (List.mem_range.1 hc)

/-- A leaf record written behind the first bytes. -/
theorem outBytes_outWithLeaf (s : State) (a : Nat) (l : LeafRecord) :
    outBytes (outWithLeaf s a l) (a + 5) = outBytes s a ++ encodeLeaf l := by
  rw [outBytes_add, map_outByte_outWithLeaf,
    outBytes_congr fun c hc => outWithLeaf_sameOutside s a l c (.inl hc)]

/-- A byte appended to the first bytes (44 R173, R176). -/
theorem outBytes_outAppended (s : State) (b : Byte) :
    outBytes (outAppended s b) (s.opos.toNat + 1) = outBytes s s.opos.toNat ++ [b] := by
  rw [outBytes_add, outBytes_congr fun c hc => outAppended_sameOutside s b c (.inl hc), List.range_one,
    List.map_singleton, Nat.add_zero, outByte_outAppended, if_pos rfl]

/-- A failure has no output (60 R226). -/
theorem outputOf_of_failure {e : ErrCode} (he : e ≠ .ok) (k : Addr) (s : State) : outputOf (complete e k s) = [] := by
  rw [outputOf, complete_outLen, if_neg he]
  rfl

/-- The output of a success is the first bytes of `OUT`, as many as it says. -/
theorem outputOf_of_success (k : Addr) (s : State) : outputOf (complete .ok k s) = outBytes s k.toNat := by
  rw [outputOf, complete_outLen, if_pos rfl]
  rfl

end Sys2Proof.Machine
end

section
/-! PROOFS. The run of a COMPRESS from SEED to its completion (45 R200): what is known in each phase, and that each step
keeps it. -/

namespace Sys2Proof.Machine

/-! ## The packed bits in `OUT` -/

/-- Behind the bytes `base` stand these bits, the last ones in the accumulator (44 R172, 30_encoding.md R93). -/
structure Packed (base : List Byte) (bits : List Bool) (s : State) : Prop where
  front : outBytes s base.length = base
  position : streamPos s = 8 * base.length + bits.length
  clean : AccOk s
  bit : ∀ p < bits.length, streamBit s (8 * base.length + p) = bits.getD p false

/-- The code table's entry for a symbol is this code (10_state.md R34). -/
def HasCode (s : State) (b : Byte) (code : List Bool) : Prop :=
  (readCode s b).len.toNat = code.length ∧ ∀ i, (readCode s b).bits.getLsbD i = code.getD i false

section
variable {base : List Byte} {bits code : List Bool} {s t : State}

/-- A clean accumulator holds 0 above its bits (44 R172). -/
theorem getLsbD_acc_of_ge (h : AccOk s) {i : Nat} (hi : s.accn.toNat ≤ i) : s.acc.getLsbD i = false :=
  Nat.testBit_lt_two_pow (h.trans_le (Nat.pow_le_pow_right (by decide) hi))

/-- The code of a byte appended to the bits (44 R171). -/
theorem Packed.packBits (h : Packed base bits s) {c : CodeEntry} (hlen : c.len.toNat = code.length)
    (hcode : ∀ i, c.bits.getLsbD i = code.getD i false) (ht : packBits c.bits c.len.toNat 0 s = .ok t) :
    Packed base (bits ++ code) t := by
  obtain ⟨hfront, hposition, hclean, hbit⟩ := h
  obtain ⟨hend, hbits⟩ := packBits_appends ht
  obtain ⟨-, hout⟩ := storedToOpos_packBits ht
  have hcount := s.accn.isLt
  have hbase : base.length ≤ s.opos.toNat := by
    rw [streamPos] at hposition
    omega
  refine ⟨?_, by rw [hend, hposition, hlen, List.length_append, Nat.add_assoc], hclean.packBits ht, fun p hp => ?_⟩
  · rw [outBytes_congr fun c hc => hout c (.inl (by omega)), hfront]
  · rw [List.length_append] at hp
    rw [hbits _ (by omega), hposition]
    by_cases hold : p < bits.length
    · rw [if_pos (by omega), hbit p hold, List.getD_append _ _ _ _ hold]
    · rw [if_neg (by omega), hcode, List.getD_append_right _ _ _ _ (by omega)]
      congr 1
      omega

/-- Each byte of the stream is the byte of the packed bits, the bits beyond their end being 0 (30_encoding.md R95). -/
theorem Packed.streamByte_eq (h : Packed base bits s) {j : Nat} (hj : base.length + j ≤ s.opos.toNat) :
    streamByte s (base.length + j) = packedByte bits j := by
  obtain ⟨-, hposition, hclean, hbit⟩ := h
  have hcount := s.accn.isLt
  rw [streamPos] at hposition
  refine BitVec.eq_of_getLsbD_eq fun i hi => ?_
  rw [getLsbD_packedByte bits j hi]
  by_cases hin : 8 * j + i < bits.length
  · rw [← hbit _ hin, ← streamBit_mul_add s _ hi]
    congr 1
    omega
  · have hlast : base.length + j = s.opos.toNat := by omega
    rw [hlast, streamByte_opos, getLsbD_acc_of_ge hclean (by omega), List.getD_eq_default _ _ (by omega)]

/-- The whole bytes of the stream are in `OUT`. -/
theorem Packed.outBytes_eq (h : Packed base bits s) {k : Nat} (hk : base.length + k = s.opos.toNat) :
    outBytes s s.opos.toNat = base ++ (List.range k).map (packedByte bits) := by
  rw [← hk, outBytes_add, h.front]
  congr 1
  refine List.map_congr_left fun j hj => ?_
  have hj := List.mem_range.1 hj
  rw [← h.streamByte_eq (by omega), streamByte_of_lt (by omega)]

/-- FLUSH completes with the packed stream behind `base`, when there is room for it (44 R173). -/
theorem Packed.exec_flush (h : Packed base bits s) (hroom : base.length + ceil8 bits.length ≤ s.params.outCap.toNat) :
    ∃ t, exec .flush s = .next t ∧ Completed t ∧ t.host = s.host ∧ t.err = .ok ∧
      outputOf t = base ++ packStream bits ∧ t.origLen = s.origLen ∧ t.n = s.n := by
  have hcount := s.accn.isLt
  have hposition := h.position
  rw [ceil8] at hroom
  rw [streamPos] at hposition
  by_cases hacc : s.accn = 0
  · have hzero : s.accn.toNat = 0 := by rw [hacc]; rfl
    refine ⟨_, (exec_flush_eq_next s _).2 (.inl ⟨hacc, rfl⟩), ⟨rfl, rfl, rfl⟩, rfl, rfl, ?_, rfl, rfl⟩
    rw [outputOf_of_success, h.outBytes_eq (k := ceil8 bits.length) (by rw [ceil8]; omega), packStream]
  · have hpos : s.accn.toNat ≠ 0 := fun e => hacc (BitVec.eq_of_toNat_eq e)
    obtain ⟨k, hk⟩ : ∃ k, base.length + k = s.opos.toNat := ⟨s.opos.toNat - base.length, by omega⟩
    have hceil : ceil8 bits.length = k + 1 := by rw [ceil8]; omega
    have hlast : s.acc = packedByte bits k := by rw [← h.streamByte_eq (by omega), hk, streamByte_opos]
    refine ⟨_, (exec_flush_eq_next s _).2 (.inr ⟨hacc, by omega, rfl⟩), ⟨rfl, rfl, rfl⟩, rfl, rfl, ?_, rfl, rfl⟩
    rw [outputOf_of_success, toNat_opos_succ (by omega), outBytes_outAppended, h.outBytes_eq hk, packStream, hceil,
      List.range_succ, List.map_append, List.map_singleton, hlast, List.append_assoc]

end

/-! ## What is known in each phase -/

/-- The header and the leaf records of an input's compressed buffer (30_encoding.md R88). -/
def headAndLeaves (input : List Byte) (k : Nat) : List Byte :=
  encodeHdr ⟨BitVec.ofNat 32 input.length, BitVec.ofNat 8 ((leafRecords input).length - 1)⟩ ++
    ((leafRecords input).take k).flatMap encodeLeaf

/-- The bits a leaf's symbol takes in the stream (42 R144). -/
def leafBits (input : List Byte) (l : LeafRecord) : Nat := l.freq.toNat * (symbolCode input l.sym).length

/-- What does not change from SEED on: the input, its length, and the leaves in their places. -/
structure Compressing (outCap : Nat) (input : List Byte) (s : State) : Prop where
  source : Source outCap input s
  origLen : s.origLen.toNat = input.length
  leaves : LeavesStored (leafRecords input) s

/-- The first leaves have their codes, and `TOTBITS` their share (42 R141, R144). -/
structure Coded (input : List Byte) (k : Nat) (s : State) : Prop where
  codes : ∀ l ∈ (leafRecords input).take k, HasCode s l.sym (symbolCode input l.sym)
  totbits : s.totbits = BitVec.ofNat 40 (((leafRecords input).take k).map (leafBits input)).sum

/-- Every byte of the input has its code. -/
def InputCoded (input : List Byte) (s : State) : Prop := ∀ b ∈ input, HasCode s b (symbolCode input b)

/-- What is known of a COMPRESS in each phase from SEED on. -/
def CompressKnown (outCap : Nat) (input : List Byte) : Phase → State → Prop
  | .seed, s => Source outCap input s ∧ s.origLen.toNat = input.length ∧ readFt s = countTable input
  | .merge, s => Compressing outCap input s ∧ Building (leafRecords input) s ∧ s.totbits = 0 ∧ s.li = 0
  | .assign, s => Compressing outCap input s ∧ (∃ u x, TreeBuilt (leafRecords input) u x s) ∧
      s.li.toNat ≤ s.n.toNat ∧ Coded input s.li.toNat s
  | .serh, s => Compressing outCap input s ∧ InputCoded input s ∧ s.totbits.toNat = (payloadBits input).length
  | .serl, s => Compressing outCap input s ∧ InputCoded input s ∧ (compressBytes input).length ≤ outCap ∧
      s.li.toNat ≤ s.n.toNat ∧ s.opos.toNat = 5 + 5 * s.li.toNat ∧
      outBytes s s.opos.toNat = headAndLeaves input s.li.toNat
  | .pack, s => Compressing outCap input s ∧ InputCoded input s ∧ (compressBytes input).length ≤ outCap ∧
      s.ipos.toNat ≤ input.length ∧
      Packed (headAndLeaves input s.n.toNat) ((input.take s.ipos.toNat).flatMap (symbolCode input)) s
  | .flush, s => Compressing outCap input s ∧ (compressBytes input).length ≤ outCap ∧
      Packed (headAndLeaves input s.n.toNat) (payloadBits input) s
  | .idle, _ | .fclr, _ | .fcnt, _ | .parse, _ | .loadl, _ | .unpk, _ => False

/-- The end of a COMPRESS (45 R200). -/
structure Compressed (outCap : Nat) (input : List Byte) (t : State) : Prop where
  completed : Completed t
  host : t.host = []
  result : (t.err, outputOf t) = compressResult outCap input
  origLen : t.origLen.toNat = input.length
  n : t.n.toNat = (leafRecords input).length

theorem LeavesStored.congr {leaves : List LeafRecord} {s t : State} (h : LeavesStored leaves s) (hn : t.n = s.n)
    (hnode : t.node = s.node) (he : t.epoch = s.epoch) : LeavesStored leaves t :=
  h.of_keepsLeaves ⟨hn, fun x _ => by rw [nodeAt_congr hnode he]; exact ⟨rfl, rfl⟩⟩

/-- An instruction that writes neither the leaves nor their count keeps what does not change. -/
theorem Compressing.exec {outCap : Nat} {input : List Byte} {s t : State} (h : Compressing outCap input s) {i : Instr}
    (hx : exec i s = .next t) (hi : i ∉ [.seed, .merge, .loadl]) (hn : t.n = s.n) (ho : t.origLen = s.origLen) :
    Compressing outCap input t := by
  obtain ⟨⟨-, -, -, -, -, he, -⟩, -, -, hnode, -⟩ := everyInstructionFrame _ _ _ hx
  exact ⟨h.source.exec hx, ho ▸ h.origLen, h.leaves.congr hn (hnode hi).1 he⟩

/-- One more element of a list, one more piece. -/
theorem flatMap_take_succ {α β : Type} (f : α → List β) {l : List α} {i : Nat} (h : i < l.length) :
    (l.take (i + 1)).flatMap f = (l.take i).flatMap f ++ f l[i] := by
  rw [List.take_succ_eq_append_getElem h, List.flatMap_append, List.flatMap_singleton]

/-! ## Lengths -/

section
variable {outCap : Nat} {input : List Byte}

/-- A code fits the code table's 255 bits (42 R143). -/
theorem length_symbolCode_le (input : List Byte) (b : Byte) : (symbolCode input b).length ≤ 255 := by
  rw [symbolCode]
  cases ht : codeTree input with
  | none => simp
  | some u =>
    cases hb : codeOf b u with
    | none => simp [hb]
    | some path =>
      have hlt := length_lt_of_codeOf hb
      have hrecords := (treeRecords_codeTree ht).length_eq
      have hle := length_leafRecords_le input
      rw [leafRecords_eq, List.length_map] at hle
      rw [List.length_map] at hrecords
      simp only [Option.bind_some, hb, Option.getD_some]
      omega

/-- The stream has as many bits as the leaves' symbols take together (42 R144). -/
theorem length_payloadBits (hlen : input.length < 2 ^ 32) :
    (payloadBits input).length = ((leafRecords input).map (leafBits input)).sum := by
  rw [payloadBits, List.length_flatMap, sum_map_input hlen]
  rfl

/-- The length of the stream fits `TOTBITS` (42 R144). -/
theorem length_payloadBits_lt (hlen : input.length < 2 ^ 32) : (payloadBits input).length < 2 ^ 40 := by
  have hle : (input.map fun b => (symbolCode input b).length).sum ≤ input.length * 255 := by
    rw [← smul_eq_mul, ← List.length_map (f := fun b => (symbolCode input b).length)]
    refine List.sum_le_card_nsmul _ _ fun n hn => ?_
    obtain ⟨b, -, rfl⟩ := List.mem_map.1 hn
    exact length_symbolCode_le input b
  rw [payloadBits, List.length_flatMap]
  omega

theorem length_flatMap_encodeLeaf (l : List LeafRecord) : (l.flatMap encodeLeaf).length = 5 * l.length := by
  induction l with
  | nil => rfl
  | cons a l ih =>
    rw [List.flatMap_cons, List.length_append, ih, List.length_cons]
    simp only [encodeLeaf, bytes32, List.length_append, List.length_cons, List.length_nil]
    omega

theorem length_headAndLeaves {k : Nat} (hk : k ≤ (leafRecords input).length) :
    (headAndLeaves input k).length = 5 + 5 * k := by
  rw [headAndLeaves, List.length_append, length_flatMap_encodeLeaf, List.length_take, Nat.min_eq_left hk]
  rfl

/-- The compressed buffer is the header with all leaves, and the packed stream. -/
theorem compressBytes_eq_headAndLeaves (hlen : input.length < 2 ^ 32) :
    compressBytes input = headAndLeaves input (leafRecords input).length ++ packStream (payloadBits input) := by
  rw [compressBytes_eq hlen, headAndLeaves, List.take_length, List.append_assoc]

/-- The length of the compressed buffer is `need` (43 R151). -/
theorem length_compressBytes (hlen : input.length < 2 ^ 32) :
    (compressBytes input).length = 5 + 5 * (leafRecords input).length + ceil8 (payloadBits input).length := by
  rw [compressBytes_eq_headAndLeaves hlen, List.length_append, length_headAndLeaves (Nat.le_refl _), packStream,
    List.length_map, List.length_range]

end

/-! ## One step of each phase -/

section
variable {outCap : Nat} {input : List Byte} {s : State}

theorem compress_seed (r : Runs .compress .seed s) (h : CompressKnown outCap input .seed s)
    (hlen : input.length < 2 ^ 32) :
    Advances .compress (CompressKnown outCap input) (Compressed outCap input) .seed s := by
  obtain ⟨hsource, horig, hft⟩ := h
  have hx := (exec_seed_eq_next s _).2 rfl
  have hs := seeded_of_exec hx
  have hf := exec_seed_frame hx
  have hsource' := hsource.exec hx
  refine ⟨_, hx, .inr ?_⟩
  rw [hft] at hs hf hsource' ⊢
  change Seeded (countTable input) (symbols input) _ at hs
  generalize seeded s (seedOrder (countTable input)) = t at hs hf hsource' ⊢
  have hcount : (symbols input).length = (leafRecords input).length := by rw [leafRecords_eq, List.length_map]
  have hleaf : ∀ (x : NodeIx) (hx : x.toNat < (leafRecords input).length), nodeAt t x =
      leafNode (((leafRecords input)[x.toNat]).freq.setWidth 40) ((leafRecords input)[x.toNat]).sym := fun x hx => by
    rw [hs.leaf x (hcount ▸ hx)]
    simp [leafRecords_eq]
  have hn : t.n.toNat = (leafRecords input).length := by rw [hs.n, hs.nn, hcount]
  have horig' : t.origLen.toNat = input.length := by rw [hf]; exact horig
  have hleaves : LeavesStored (leafRecords input) t :=
    ⟨hn, fun x hx => by rw [hleaf x hx, leafNode], fun x hx => by rw [hleaf x hx, leafNode]⟩
  have hphase := hs.phase
  by_cases hzero : (symbols input).length = 0
  · rw [if_pos hzero] at hphase
    have hempty : input = [] := by
      by_contra hne
      exact leafRecords_ne_nil hlen hne (List.length_eq_zero_iff.1 (hcount ▸ hzero))
    refine ⟨.serh, r.next (by rw [hf]) (by rw [hf]) (by rw [hf]) hphase, ⟨hsource', horig', hleaves⟩, ?_, ?_⟩
    · intro b hb
      rw [hempty] at hb
      cases hb
    · rw [hs.totbits, hempty]
      rfl
  · rw [if_neg hzero] at hphase
    refine ⟨.merge, r.next (by rw [hf]) (by rw [hf]) (by rw [hf]) hphase, ⟨hsource', horig', hleaves⟩, ?_, hs.totbits,
      hs.li⟩
    exact building_of_leaves (by omega) (length_leafRecords_le input) hn hs.n.symm (hs.qn.trans hs.n.symm) hleaf
      fun j hj => hs.queued j (hcount ▸ hj)

theorem compress_merge (r : Runs .compress .merge s) (h : CompressKnown outCap input .merge s) :
    Advances .compress (CompressKnown outCap input) (Compressed outCap input) .merge s := by
  obtain ⟨hc, hbuild, htot, hli⟩ := h
  have hforest := hbuild.forest
  by_cases hq : 2 ≤ s.qn.toNat
  · obtain ⟨t, ht⟩ := hforest.mergeOnce_answers hq
    have hx := (exec_merge_eq_next s t).2 (.inl ⟨hq, ht⟩)
    have hf := mergeOnce_frame ht
    have hbuild' := hbuild.mergeOnce hq ht
    refine ⟨t, hx, .inr ⟨.merge, r.next (by rw [hf]) (by rw [hf]) (by rw [hf]) (by rw [hf]; exact r.phase),
      ⟨hc.source.exec hx, by rw [hf]; exact hc.origLen, hbuild'.leavesStored⟩, hbuild', by rw [hf]; exact htot,
      by rw [hf]; exact hli⟩⟩
  · have hq := Nat.lt_of_not_le hq
    have hx := (exec_merge_eq_next s _).2 (.inr ⟨hq, rfl⟩)
    obtain ⟨u, hu⟩ := hbuild.treeBuilt hq
    have hli' : (mergeExited s).li = 0 := hli
    refine ⟨_, hx, .inr ⟨.assign, r.next rfl rfl rfl (if_pos r.mode),
      ⟨hc.source.exec hx, hc.origLen, hc.leaves.congr rfl rfl rfl⟩, ⟨u, _, hu.mergeExited⟩, ?_, ?_⟩⟩
    · rw [hli']
      exact Nat.zero_le _
    · rw [hli']
      exact ⟨fun l hl => by simp at hl, htot⟩

/-- A leaf's path from the root is its symbol's code (42 R141, R142). -/
theorem TreeBuilt.rootPath_leaf {u : CodeTree} {root : NodeIx} (h : TreeBuilt (leafRecords input) u root s) {x : NodeIx}
    (hx : x.toNat < s.n.toNat) : RootPath s x (symbolCode input (nodeAt s x).sym) := by
  obtain ⟨path, v, hpath, hv, hstores⟩ := h.exists_rootPath x (hx.trans_le h.forest.grown)
  obtain ⟨hnil, -⟩ := h.forest.leaves x hx
  have htree : codeTree input = some u := h.built
  cases v with
  | node f l r => exact absurd hnil (hstores.left_ne_nil h.forest.nn_le)
  | leaf f b =>
    obtain ⟨-, -, rfl, -⟩ := hstores
    have hdistinct := (treeRecords_codeTree htree).nodup_iff.2 (nodup_symbols input)
    obtain ⟨hcode, -⟩ := codeOf_of_subtreeAt hv hdistinct
    rw [symbolCode, htree, Option.bind_some, hcode, Option.getD_some]
    exact hpath

/-- The codes of all leaves are the codes of the input's bytes, and their shares the length of the stream. -/
theorem Coded.inputCoded {k : Nat} (h : Coded input k s) (hk : (leafRecords input).length ≤ k)
    (hlen : input.length < 2 ^ 32) : InputCoded input s ∧ s.totbits.toNat = (payloadBits input).length := by
  obtain ⟨hcodes, htot⟩ := h
  rw [List.take_of_length_le hk] at hcodes htot
  refine ⟨fun b hb => ?_, ?_⟩
  · exact hcodes ⟨countTable input b, b⟩ (List.mem_map.2 ⟨b, (mem_symbols hlen b).2 hb, rfl⟩)
  · rw [htot, BitVec.toNat_ofNat, ← length_payloadBits hlen]
    exact Nat.mod_eq_of_lt (length_payloadBits_lt hlen)

/-- ASSIGN of the leaf at `LI` adds its code and its share (42 R141, R144). -/
theorem Coded.assigned (h : Coded input s.li.toNat s) (hleaves : LeavesStored (leafRecords input) s)
    (hli : s.li.toNat < (leafRecords input).length) (path : List Bool)
    (hpath : path = symbolCode input (nodeAt s s.li).sym) :
    Coded input (s.li.toNat + 1) (assigned s (enterPath path 0#255, BitVec.ofNat 8 path.length)) := by
  have hle : path.length ≤ 255 := hpath ▸ length_symbolCode_le input _
  have hwidth : (BitVec.ofNat 8 path.length).setWidth 40 = BitVec.ofNat 40 path.length :=
    BitVec.setWidth_ofNat_of_le_of_lt (by decide) (by omega)
  have hnew : HasCode (Machine.assigned s (enterPath path 0#255, BitVec.ofNat 8 path.length))
      (nodeAt s s.li).sym path := by
    rw [HasCode, readCode_assigned, if_pos rfl]
    exact ⟨Nat.mod_eq_of_lt (Nat.lt_succ_of_le hle), getLsbD_enterPath_zero hle⟩
  refine ⟨fun l hl => ?_, ?_⟩
  · by_cases hsym : l.sym = (nodeAt s s.li).sym
    · rw [hsym, ← hpath]
      exact hnew
    · rw [List.take_succ_eq_append_getElem hli, List.mem_append, List.mem_singleton] at hl
      have hold := hl.resolve_right fun e => hsym (by rw [e, hleaves.sym _ hli])
      rw [HasCode, readCode_assigned, if_neg hsym]
      exact h.codes l hold
  · have hshare : leafBits input (leafRecords input)[s.li.toNat] =
        (leafRecords input)[s.li.toNat].freq.toNat * path.length := by
      rw [leafBits, hpath, hleaves.sym _ hli]
    change s.totbits + (nodeAt s s.li).freq * (BitVec.ofNat 8 path.length).setWidth 40 = _
    rw [hwidth, h.totbits, hleaves.freq _ hli, List.take_succ_eq_append_getElem hli, List.map_append,
       List.map_singleton, List.sum_append, List.sum_singleton, hshare, BitVec.ofNat_add,
      BitVec.ofNat_mul, BitVec.ofNat_toNat]

theorem compress_assign (r : Runs .compress .assign s) (h : CompressKnown outCap input .assign s)
    (hlen : input.length < 2 ^ 32) :
    Advances .compress (CompressKnown outCap input) (Compressed outCap input) .assign s := by
  obtain ⟨hc, ⟨u, root, hu⟩, hle, hcoded⟩ := h
  have hn := hc.leaves.n
  by_cases hli : s.li < s.n
  · have hli' := BitVec.lt_def.1 hli
    have hx := exec_assign_of_rootPath hli (hu.rootPath_leaf hli') (length_symbolCode_le input _)
    have hnext : (s.li + 1).toNat = s.li.toNat + 1 := by bv_omega
    refine ⟨_, hx, .inr ⟨.assign, r.next rfl rfl rfl r.phase, hc.exec hx (by simp) rfl rfl,
      ⟨u, root, hu.congr rfl rfl rfl rfl rfl rfl⟩, ?_, ?_⟩⟩
    · change (s.li + 1).toNat ≤ s.n.toNat
      omega
    · change Coded input (s.li + 1).toNat _
      rw [hnext]
      exact hcoded.assigned hc.leaves (by omega) _ rfl
  · have hli := BitVec.not_lt.1 hli
    have hx := (exec_assign_eq_next s _).2 (.inr ⟨hli, rfl⟩)
    obtain ⟨hcodes, htot⟩ := hcoded.inputCoded (by rw [← hn]; exact BitVec.le_def.1 hli) hlen
    exact ⟨_, hx, .inr ⟨.serh, r.next rfl rfl rfl rfl, hc.exec hx (by simp) rfl rfl, hcodes, htot⟩⟩

/-- Codes are kept by every instruction but ASSIGN. -/
theorem InputCoded.exec {t : State} (h : InputCoded input s) {i : Instr} (hx : exec i s = .next t)
    (hi : i ≠ .assign) : InputCoded input t := by
  obtain ⟨⟨-, -, -, -, -, he, -⟩, -, -, -, hcode⟩ := everyInstructionFrame _ _ _ hx
  intro b hb
  rw [HasCode, readCode_congr (hcode hi) he]
  exact h b hb

/-- The count byte of a header is one less than the count, and 0 for no leaf (30_encoding.md R91). -/
theorem leafCountByte_eq {n : BitVec 9} (h : n.toNat ≤ 256) : leafCountByte n = BitVec.ofNat 8 (n.toNat - 1) := by
  by_cases hzero : n = 0#9
  · rw [leafCountByte, if_pos hzero, hzero]
    rfl
  · have hpos : n.toNat ≠ 0 := fun e => hzero (BitVec.eq_of_toNat_eq e)
    apply BitVec.eq_of_toNat_eq
    rw [toNat_leafCountByte (by omega) (by omega), BitVec.toNat_ofNat]
    omega

theorem compress_serh (r : Runs .compress .serh s) (h : CompressKnown outCap input .serh s)
    (hlen : input.length < 2 ^ 32) :
    Advances .compress (CompressKnown outCap input) (Compressed outCap input) .serh s := by
  obtain ⟨hc, hcodes, htot⟩ := h
  have hn := hc.leaves.n
  have hneed : need s = (compressBytes input).length := by
    rw [need, htot, hn, length_compressBytes hlen]
  by_cases hroom : outCap < (compressBytes input).length
  · have hx := (exec_serh_eq_next s _).2 (.inl ⟨by rw [hneed, hc.source.room]; exact hroom, rfl⟩)
    refine ⟨_, hx, .inl ⟨⟨rfl, rfl, rfl⟩, r.host, ?_, hc.origLen, hn⟩⟩
    rw [compressResult, if_pos hroom, outputOf_of_failure (by simp), complete_err]
  · have hle := Nat.le_of_not_lt hroom
    have hmin : 4 < outCap := by
      rw [length_compressBytes hlen] at hle
      omega
    have hx := (exec_serh_eq_next s _).2 (.inr ⟨by rw [hneed, hc.source.room]; exact hle,
      by rw [hc.source.room]; exact hmin, rfl⟩)
    refine ⟨_, hx, .inr ⟨.serl, r.next rfl rfl rfl rfl, hc.exec hx (by simp) rfl rfl, hcodes.exec hx (by simp), hle,
      Nat.zero_le _, rfl, ?_⟩⟩
    have horig : s.origLen = BitVec.ofNat 32 input.length := by rw [← hc.origLen]; simp
    refine (map_outByte_outWithHeader s).trans ?_
    rw [horig, leafCountByte_eq (hn ▸ length_leafRecords_le input), hn]
    exact (List.append_nil _).symm

theorem compress_serl (r : Runs .compress .serl s) (h : CompressKnown outCap input .serl s)
    (hlen : input.length < 2 ^ 32) :
    Advances .compress (CompressKnown outCap input) (Compressed outCap input) .serl s := by
  obtain ⟨hc, hcodes, hroom, hle, hopos, hout⟩ := h
  have hn := hc.leaves.n
  by_cases hli : s.li < s.n
  · have hli' := BitVec.lt_def.1 hli
    have hmax := length_leafRecords_le input
    have hcap := s.params.outCap.isLt
    have hfits : s.opos.toNat + 5 ≤ s.params.outCap.toNat := by
      rw [length_compressBytes hlen] at hroom
      rw [hc.source.room]
      omega
    have hx := (exec_serl_eq_next s _).2 (.inl ⟨hli, by simp only [maxNodes]; omega, by omega, rfl⟩)
    have hnext : (s.li + 1).toNat = s.li.toNat + 1 := by bv_omega
    have hnext' : (s.opos + 5).toNat = s.opos.toNat + 5 := by bv_omega
    have hrecord : leafRecordOf (nodeAt s s.li) = (leafRecords input)[s.li.toNat] := by
      rw [leafRecordOf, hc.leaves.freq _ (by omega), hc.leaves.sym _ (by omega),
        BitVec.setWidth_setWidth_of_le _ (by decide), BitVec.setWidth_eq]
    refine ⟨_, hx, .inr ⟨.serl, r.next rfl rfl rfl r.phase, hc.exec hx (by simp) rfl rfl, hcodes.exec hx (by simp),
      hroom, ?_, ?_, ?_⟩⟩
    · change (s.li + 1).toNat ≤ s.n.toNat
      omega
    · change (s.opos + 5).toNat = 5 + 5 * (s.li + 1).toNat
      omega
    · change outBytes (outWithLeaf s s.opos.toNat (leafRecordOf (nodeAt s s.li))) (s.opos + 5).toNat =
        headAndLeaves input (s.li + 1).toNat
      rw [hnext, hnext', outBytes_outWithLeaf, hout, hrecord, headAndLeaves, headAndLeaves,
        flatMap_take_succ _ (by omega), List.append_assoc]
  · have hli := BitVec.not_lt.1 hli
    have hall : s.li.toNat = s.n.toNat := Nat.le_antisymm hle (BitVec.le_def.1 hli)
    have hx := (exec_serl_eq_next s _).2 (.inr ⟨hli, rfl⟩)
    rw [hall] at hopos hout
    have hbase : (headAndLeaves input s.n.toNat).length = s.opos.toNat := by
      rw [hopos, length_headAndLeaves (by omega)]
    refine ⟨_, hx, .inr ⟨.pack, r.next rfl rfl rfl rfl, hc.exec hx (by simp) rfl rfl, hcodes.exec hx (by simp),
      hroom, Nat.zero_le _, ?_, ?_, ?_, fun p hp => by simp at hp⟩⟩
    · change outBytes s (headAndLeaves input s.n.toNat).length = headAndLeaves input s.n.toNat
      rw [hbase, hout]
    · change 8 * s.opos.toNat + 0 = 8 * (headAndLeaves input s.n.toNat).length + 0
      rw [hbase]
    · simp [AccOk]

theorem compress_pack (r : Runs .compress .pack s) (h : CompressKnown outCap input .pack s)
    (hlen : input.length < 2 ^ 32) :
    Advances .compress (CompressKnown outCap input) (Compressed outCap input) .pack s := by
  obtain ⟨hc, hcodes, hroom, hle, hpacked⟩ := h
  have horig := hc.origLen
  by_cases hipos : s.ipos.toNat < s.origLen.toNat
  · have hlt : s.ipos.toNat < input.length := by omega
    obtain ⟨hin, hcap⟩ := hc.source.readable hlt
    obtain ⟨hcodelen, hcode⟩ := hcodes input[s.ipos.toNat] (List.getElem_mem hlt)
    have hstream := flatMap_take_succ (symbolCode input) hlt
    have hprefix := ((List.take_prefix (s.ipos.toNat + 1) input).flatMap (symbolCode input)).length_le
    have hbits : (streamPos s + (symbolCode input input[s.ipos.toNat]).length) / 8 ≤ s.params.outCap.toNat := by
      rw [length_compressBytes hlen, ceil8] at hroom
      rw [hstream, List.length_append, ← payloadBits] at hprefix
      rw [hpacked.position, length_headAndLeaves (by rw [hc.leaves.n]), hc.leaves.n, hc.source.room]
      omega
    rw [← hcodelen] at hbits
    obtain ⟨u, hu⟩ := packBits_answers (readCode s input[s.ipos.toNat]).bits _ 0 hbits
    rw [← hc.source.inByte hlt] at hu
    have hx := (exec_pack_eq_next s _).2 (.inl ⟨hipos, hin, hcap, u, hu, rfl⟩)
    have hf := exec_pack_frame hx
    have hfu := packBits_frame hu
    have hipos' : u.ipos = s.ipos := by rw [hfu]
    have hnext := toNat_ipos_succ hipos
    have hn : u.n = s.n := by rw [hfu]
    rw [hc.source.inByte hlt] at hu
    have hpacked' := hpacked.packBits hcodelen hcode hu
    rw [← hstream] at hpacked'
    refine ⟨_, hx, .inr ⟨.pack, r.next (by rw [hf]) (by rw [hf]) (by rw [hf]) (by rw [hfu]; exact r.phase),
      hc.exec hx (by simp) (by rw [hf]) (by rw [hf]), hcodes.exec hx (by simp), hroom, ?_, ?_⟩⟩
    · change (u.ipos + 1).toNat ≤ input.length
      rw [hipos']
      omega
    · change Packed (headAndLeaves input u.n.toNat) ((input.take (u.ipos + 1).toNat).flatMap (symbolCode input)) _
      rw [hipos', hnext, hn]
      exact ⟨hpacked'.front, hpacked'.position, hpacked'.clean, hpacked'.bit⟩
  · have hge := Nat.le_of_not_lt hipos
    have hx := (exec_pack_eq_next s _).2 (.inr ⟨hge, rfl⟩)
    rw [List.take_of_length_le (by omega)] at hpacked
    exact ⟨_, hx, .inr ⟨.flush, r.next rfl rfl rfl rfl, hc.exec hx (by simp) rfl rfl, hroom,
      hpacked.front, hpacked.position, hpacked.clean, hpacked.bit⟩⟩

theorem compress_flush (r : Runs .compress .flush s) (h : CompressKnown outCap input .flush s)
    (hlen : input.length < 2 ^ 32) :
    Advances .compress (CompressKnown outCap input) (Compressed outCap input) .flush s := by
  obtain ⟨hc, hroom, hpacked⟩ := h
  have hn := hc.leaves.n
  rw [hn] at hpacked
  obtain ⟨t, hx, hcompleted, hhost, herr, hout, horig, hn'⟩ := hpacked.exec_flush (by
    rw [length_headAndLeaves (Nat.le_refl _), hc.source.room, ← length_compressBytes hlen]
    exact hroom)
  refine ⟨t, hx, .inl ⟨hcompleted, hhost.trans r.host, ?_, horig ▸ hc.origLen, hn' ▸ hn⟩⟩
  rw [compressResult, if_neg (Nat.not_lt.2 hroom), compressBytes_eq_headAndLeaves hlen, herr, hout]

end

end Sys2Proof.Machine
end

section
/-! PROOFS. The COMPRESS command from its write to `CMD` to its completion (45 R191, R200). -/

namespace Sys2Proof.Machine

/-- Every step of a COMPRESS from SEED on keeps what is known, and the last one gives the result. -/
theorem compress_advances {outCap : Nat} {input : List Byte} (hlen : input.length < 2 ^ 32) (p : Phase) (s : State)
    (r : Runs .compress p s) (h : CompressKnown outCap input p s) :
    Advances .compress (CompressKnown outCap input) (Compressed outCap input) (phaseInstr p) s := by
  cases p
  case seed => exact compress_seed r h hlen
  case merge => exact compress_merge r h
  case assign => exact compress_assign r h hlen
  case serh => exact compress_serh r h hlen
  case serl => exact compress_serl r h hlen
  case pack => exact compress_pack r h hlen
  case flush => exact compress_flush r h hlen
  case idle | fclr | fcnt | parse | loadl | unpk => exact h.elim

/-- An accepted COMPRESS counts its input and then runs to its result. -/
theorem compressed_of_accepted {s : State} (r : Runs .compress .fclr s) (hlen : s.origLen.toNat = s.inLen.toNat)
    (hcap : s.inLen ≤ s.params.inCap) : ∃ t, Reaches s t ∧ Compressed s.params.outCap.toNat (inputOf s) t := by
  have hlength := length_inputOf s
  have hsmall : (inputOf s).length < 2 ^ 32 := by
    rw [hlength, ← hlen]
    exact s.origLen.isLt
  obtain ⟨u, hrun, hphase, hcount, hu⟩ := frequencyTableCountsTheInput s r.busy r.host r.phase hlen hcap
  have hinput : inputOf u = inputOf s := by rw [hu]; rfl
  have hknown : CompressKnown s.params.outCap.toNat (inputOf s) .seed u := by
    refine ⟨⟨hinput, by rw [hu]; exact hcap, by rw [hu]⟩, by rw [hu, hlength]; exact hlen, funext fun b => ?_⟩
    exact BitVec.eq_of_toNat_eq ((hcount b).trans (toNat_countTable hsmall b).symm)
  obtain ⟨t, ht, hdone⟩ := reaches_of_advances (fun _ h => h) (compress_advances hsmall)
    ⟨.seed, r.next (by rw [hu]) (by rw [hu]) (by rw [hu]) hphase, hknown⟩
  exact ⟨t, .trans ⟨_, hrun⟩ ht, hdone⟩

/-- A COMPRESS written to `CMD` of a waiting block runs to its result. -/
theorem compressed_of_issued {s : State} (hw : Waiting s) (hcap : s.inLen ≤ s.params.inCap)
    (hlen : s.inLen.toNat < 2 ^ 32) :
    ∃ t, Reaches (issued s 0x01#8) t ∧ Compressed s.params.outCap.toNat (inputOf s) t := by
  obtain ⟨hb, -⟩ := hw
  obtain ⟨haccept, -⟩ := compressAcceptance
  have hstep := (step_issued s 0x01#8 hb).trans (haccept (newTurn { s with host := [] }) hb hcap hlen)
  obtain ⟨t, ht, hdone⟩ := compressed_of_accepted
    (s := { accept .compress (newTurn { s with host := [] }) with origLen := s.inLen.setWidth 32, phase := .fclr })
    ⟨rfl, rfl, rfl, rfl⟩ ((BitVec.toNat_setWidth 32 s.inLen).trans (Nat.mod_eq_of_lt hlen)) hcap
  exact ⟨t, .of_step hstep ht, hdone⟩

/-- Settles O57: the command is accepted, and each phase of its run keeps what the result is made of. -/
theorem compressRunGivesItsResult : Obligations.CompressRunGivesItsResult := by
  intro s hw hcap hlen
  obtain ⟨t, ⟨k, hk⟩, hdone⟩ := compressed_of_issued hw hcap hlen
  have hlength := length_inputOf s
  exact ⟨k, t, hk, hdone.host, hdone.completed, hdone.result, hdone.origLen.trans hlength,
    hdone.n.trans (length_leafRecords (hlength ▸ hlen))⟩

end Sys2Proof.Machine
end

section
/-! PROOFS. The records of a compressed buffer by their addresses (30_encoding.md R88 to R91, 43 R160), and the result of
a DECOMPRESS by the cases of 45 R201. -/

namespace Sys2Proof.Machine

/-- The record at an address of a byte string, a header or a leaf (30_encoding.md R89, R90). -/
def recordIn (bytes : List Byte) (a : Nat) : LeafRecord :=
  ⟨join32 (bytes.getD a 0) (bytes.getD (a + 1) 0) (bytes.getD (a + 2) 0) (bytes.getD (a + 3) 0),
    bytes.getD (a + 4) 0⟩

/-- The header of a buffer (30_encoding.md R89). -/
def headerIn (buffer : List Byte) : HdrRecord := ⟨(recordIn buffer 0).freq, (recordIn buffer 0).sym⟩

/-- The leaf count of a buffer (30_encoding.md R91). -/
def countIn (buffer : List Byte) : BitVec 9 := leafCountOf (headerIn buffer).origlen (headerIn buffer).nm1

/-- The leaf records of a buffer (43 R160). -/
def leavesIn (buffer : List Byte) : List LeafRecord :=
  (List.range (countIn buffer).toNat).map fun j => recordIn buffer (leafAddr j)

/-- The symbols of a buffer's packed region, none when it runs out of bits (45 R201, case 5). -/
def symbolsIn (buffer : List Byte) : Option (List Byte) :=
  payloadSymbols (headerIn buffer).origlen.toNat (leavesIn buffer) (buffer.drop (5 + 5 * (countIn buffer).toNat))

/-- The code a DECOMPRESS ends with after its header alone, or none (45 R201, cases 2 to 4). -/
def headerVerdict (outCap : Nat) (buffer : List Byte) : Option ErrCode :=
  if (headerIn buffer).origlen = 0#32 then some .ok
  else if buffer.length < 5 + 5 * (countIn buffer).toNat then some .corruptStream
  else if outCap < (headerIn buffer).origlen.toNat then some .capacityExceeded
  else none

/-- The result that the symbols read give (45 R201, case 5). -/
def resultOfSymbols : Option (List Byte) → ErrCode × List Byte
  | some out => (.ok, out)
  | none => (.corruptStream, [])

theorem recordIn_drop (bytes : List Byte) (k a : Nat) : recordIn (bytes.drop k) a = recordIn bytes (k + a) := by
  simp only [recordIn, List.getD_eq_getElem?_getD, List.getElem?_drop, Nat.add_assoc]

theorem decodeHdr_eq (bytes : List Byte) :
    decodeHdr bytes = if 5 ≤ bytes.length then .ok (headerIn bytes, bytes.drop 5) else .error .truncated := by
  match bytes with
  | [] | [_] | [_, _] | [_, _, _] | [_, _, _, _] => rfl
  | _ :: _ :: _ :: _ :: _ :: rest => exact (if_pos (by simp)).symm

theorem decodeLeaf_eq (bytes : List Byte) :
    decodeLeaf bytes = if 5 ≤ bytes.length then .ok (recordIn bytes 0, bytes.drop 5) else .error .truncated := by
  match bytes with
  | [] | [_] | [_, _] | [_, _, _] | [_, _, _, _] => rfl
  | _ :: _ :: _ :: _ :: _ :: rest => exact (if_pos (by simp)).symm

/-- The leaf records of a byte string stand five bytes apart (30_encoding.md R90). -/
theorem decodeLeaves_eq (n : Nat) (bytes : List Byte) :
    decodeLeaves n bytes =
      if 5 * n ≤ bytes.length then .ok ((List.range n).map fun j => recordIn bytes (5 * j), bytes.drop (5 * n))
      else .error .truncated := by
  induction n generalizing bytes with
  | zero => rfl
  | succ n ih =>
    rw [decodeLeaves, decodeLeaf_eq]
    by_cases h5 : 5 ≤ bytes.length
    · rw [if_pos h5]
      dsimp only
      rw [ih, List.length_drop]
      by_cases hn : 5 * n ≤ bytes.length - 5
      · rw [if_pos hn, if_pos (by omega), List.range_succ_eq_map, List.map_cons, List.map_map, List.drop_drop]
        have haddr : ∀ j, 5 + 5 * j = 5 * (j + 1) := fun j => by omega
        simp only [recordIn_drop, Function.comp_def, haddr, Nat.mul_zero]
      · rw [if_neg hn, if_neg (by omega)]
    · rw [if_neg h5, if_neg (by omega)]

section
variable {outCap : Nat} {buffer : List Byte}

/-- With an original the count is from 1 to 256 (30_encoding.md R91). -/
theorem countIn_bounds (h : (headerIn buffer).origlen ≠ 0#32) :
    1 ≤ (countIn buffer).toNat ∧ (countIn buffer).toNat ≤ 256 := by
  have hbyte := (headerIn buffer).nm1.isLt
  rw [countIn, toNat_leafCountOf h]
  omega

theorem decompressResult_of_short (h : buffer.length < 5) : decompressResult outCap buffer = (.corruptStream, []) := by
  rw [decompressResult, decodeHdr_eq, if_neg (Nat.not_le.2 h)]

/-- The result of a buffer with a header (45 R201). -/
theorem decompressResult_of_header (h : 5 ≤ buffer.length) :
    decompressResult outCap buffer =
      ((headerVerdict outCap buffer).map (·, [])).getD (resultOfSymbols (symbolsIn buffer)) := by
  rw [decompressResult, decodeHdr_eq, if_pos h, headerVerdict]
  dsimp only
  by_cases hempty : (headerIn buffer).origlen = 0#32
  · simp [hempty]
  rw [if_neg hempty, if_neg hempty, ← countIn, decodeLeaves_eq, List.length_drop]
  by_cases htree : buffer.length < 5 + 5 * (countIn buffer).toNat
  · rw [if_pos htree, if_neg (by omega)]
    rfl
  rw [if_neg htree, if_pos (by omega)]
  dsimp only
  by_cases hroom : outCap < (headerIn buffer).origlen.toNat
  · rw [if_pos hroom, if_pos hroom]
    rfl
  rw [if_neg hroom, if_neg hroom]
  have hleaves : ((List.range (countIn buffer).toNat).map fun j => recordIn (buffer.drop 5) (5 * j)) =
      leavesIn buffer := by
    simp only [recordIn_drop]
    rfl
  have hsymbols : payloadSymbols (headerIn buffer).origlen.toNat (leavesIn buffer)
      ((buffer.drop 5).drop (5 * (countIn buffer).toNat)) = symbolsIn buffer := by
    rw [List.drop_drop, symbolsIn]
  rw [hleaves, hsymbols, Option.map_none, Option.getD_none]
  cases symbolsIn buffer <;> rfl

/-- Of a buffer whose header lets it go on, the original is not empty, the leaves are all there, and the output fits. -/
theorem headerVerdict_eq_none :
    headerVerdict outCap buffer = none ↔ (headerIn buffer).origlen ≠ 0#32 ∧
      5 + 5 * (countIn buffer).toNat ≤ buffer.length ∧ (headerIn buffer).origlen.toNat ≤ outCap := by
  rw [headerVerdict]
  by_cases hempty : (headerIn buffer).origlen = 0#32
  · simp [hempty]
  by_cases htree : buffer.length < 5 + 5 * (countIn buffer).toNat
  · simp [hempty, htree]
  by_cases hroom : outCap < (headerIn buffer).origlen.toNat
  · simp [hempty, htree, hroom]
  · simp [hempty, htree, hroom, Nat.le_of_not_lt]

/-- The bits behind the first bytes. -/
theorem bitsOf_drop (bytes : List Byte) {k : Nat} (hk : k ≤ bytes.length) :
    bitsOf (bytes.drop k) = (bitsOf bytes).drop (8 * k) := by
  have hsplit : bitsOf bytes = bitsOf (bytes.take k) ++ bitsOf (bytes.drop k) := by
    rw [bitsOf, bitsOf, bitsOf, ← List.flatMap_append, List.take_append_drop]
  rw [hsplit, List.drop_left' (by rw [length_bitsOf, List.length_take, Nat.min_eq_left hk])]

end

/-! ## Symbols still to come -/

/-- The next `k` symbols of a walk that stands at the subtree `v` of `u` (44 R176). -/
def pendingSymbols (u v : CodeTree) : Nat → List Bool → Option (List Byte)
  | 0, _ => some []
  | k + 1, bits => (walkTree v bits).bind fun r => (unpackSymbols u k r.2).map (r.1 :: ·)

/-- At the root all symbols are still to come. -/
theorem pendingSymbols_root (u : CodeTree) (k : Nat) (bits : List Bool) :
    pendingSymbols u u k bits = unpackSymbols u k bits := by
  cases k with
  | zero => rfl
  | succ k =>
    rw [pendingSymbols, unpackSymbols]
    cases walkTree u bits <;> rfl

/-- At a leaf its symbol comes next, and the walk goes back to the root. -/
theorem pendingSymbols_leaf (u : CodeTree) (f : Nat) (b : Byte) (k : Nat) (bits : List Bool) :
    pendingSymbols u (.leaf f b) (k + 1) bits = (pendingSymbols u u k bits).map (b :: ·) := by
  rw [pendingSymbols_root]
  rfl

/-- At a branch the next bit chooses the subtree. -/
theorem pendingSymbols_node (u l r : CodeTree) (f k : Nat) (bit : Bool) (bits : List Bool) :
    pendingSymbols u (.node f l r) (k + 1) (bit :: bits) = pendingSymbols u (if bit then r else l) (k + 1) bits := by
  cases bit <;> rfl

end Sys2Proof.Machine
end

section
/-! PROOFS. The run of a DECOMPRESS from PARSE to its completion (45 R201): what is known in each phase, and that each
step keeps it. -/

namespace Sys2Proof.Machine

/-! ## What is known in each phase -/

/-- What does not change from LOADL on: the input, and what PARSE read in its header. -/
structure Decompressing (outCap : Nat) (input : List Byte) (s : State) : Prop where
  source : Source outCap input s
  header : headerVerdict outCap input = none
  origLen : s.origLen = (headerIn input).origlen
  n : s.n = countIn input

/-- The first leaf records of the input stand in their nodes and are queued in order (43 R160). -/
structure Loaded (input : List Byte) (k : Nat) (s : State) : Prop where
  leaf : ∀ x : NodeIx, x.toNat < k → nodeAt s x =
    leafNode ((recordIn input (leafAddr x.toNat)).freq.setWidth 40) (recordIn input (leafAddr x.toNat)).sym
  queued : ∀ j < k, queueAt s j = BitVec.ofNat 9 j

/-- The symbols written, and those to come from the bits left, are the symbols of the input (44 R176). -/
def Unpacking (input : List Byte) (u v : CodeTree) (s : State) : Prop :=
  symbolsIn input =
    (pendingSymbols u v (s.origLen.toNat - s.opos.toNat) ((bitsOf input).drop s.bitpos.toNat)).map
      (outBytes s s.opos.toNat ++ ·)

/-- What is known of a DECOMPRESS in each phase; `b` is the block when its command was accepted. -/
def DecompressKnown (outCap : Nat) (input : List Byte) (b : State) : Phase → State → Prop
  | .parse, s => Source outCap input s ∧ s.origLen = b.origLen ∧ s.n = b.n ∧ s.outMem = b.outMem
  | .loadl, s => Decompressing outCap input s ∧ s.li.toNat ≤ s.n.toNat ∧ Loaded input s.li.toNat s
  | .merge, s => Decompressing outCap input s ∧ Building (leavesIn input) s ∧ s.opos = 0 ∧
      s.bitpos.toNat = 8 * (5 + 5 * s.n.toNat)
  | .unpk, s => Decompressing outCap input s ∧ s.opos.toNat ≤ s.origLen.toNat ∧
      ∃ u v, TreeBuilt (leavesIn input) u s.root s ∧ Stores s v s.cur ∧ Unpacking input u v s
  | .idle, _ | .fclr, _ | .fcnt, _ | .seed, _ | .assign, _ | .serh, _ | .serl, _ | .pack, _ | .flush, _ => False

/-- The end of a DECOMPRESS (45 R201). -/
structure Decompressed (outCap : Nat) (input : List Byte) (b t : State) : Prop where
  completed : Completed t
  host : t.host = []
  result : (t.err, outputOf t) = decompressResult outCap input
  short : input.length < 5 → t.origLen = b.origLen ∧ t.n = b.n
  header : 5 ≤ input.length → t.origLen = (headerIn input).origlen ∧ t.n = countIn input
  empty : 5 ≤ input.length → (headerIn input).origlen = 0#32 → t.outMem = b.outMem

section
variable {outCap : Nat} {input : List Byte} {b s : State}

/-- A record of the input as the block reads it (43 R160). -/
theorem Source.leafRecordAt (h : Source outCap input s) {a : Nat} (ha : a + 4 < input.length) :
    leafRecordAt s a = recordIn input a := by
  have hbyte : ∀ c < input.length, Machine.inByte s c = input.getD c 0 := fun c hc => by
    rw [h.inByte hc, List.getD_eq_getElem _ _ hc]
  rw [Machine.leafRecordAt, recordIn, hbyte a (by omega), hbyte (a + 1) (by omega), hbyte (a + 2) (by omega),
    hbyte (a + 3) (by omega), hbyte (a + 4) ha]

/-- An instruction that writes neither `ORIG_LEN` nor `NLEAF` keeps what does not change. -/
theorem Decompressing.exec {t : State} (h : Decompressing outCap input s) {i : Instr} (hx : exec i s = .next t)
    (ho : t.origLen = s.origLen) (hn : t.n = s.n) : Decompressing outCap input t :=
  ⟨h.source.exec hx, h.header, ho.trans h.origLen, hn.trans h.n⟩

/-- What the header let through: an original, all its leaves, and room for it. -/
theorem Decompressing.bounds (h : Decompressing outCap input s) :
    (1 ≤ s.n.toNat ∧ s.n.toNat ≤ 256) ∧ 5 + 5 * s.n.toNat ≤ input.length ∧
      s.origLen.toNat ≤ s.params.outCap.toNat := by
  obtain ⟨horig, htree, hroom⟩ := headerVerdict_eq_none.1 h.header
  rw [h.n, h.origLen, h.source.room]
  exact ⟨countIn_bounds horig, htree, hroom⟩

theorem length_leavesIn (input : List Byte) : (leavesIn input).length = (countIn input).toNat := by
  simp [leavesIn]

/-- The result where PARSE let the header through (45 R201, case 5). -/
theorem Decompressing.result (h : Decompressing outCap input s) :
    decompressResult outCap input = resultOfSymbols (symbolsIn input) := by
  obtain ⟨-, htree, -⟩ := headerVerdict_eq_none.1 h.header
  rw [decompressResult_of_header (by omega), h.header]
  rfl

/-- A run that ends after LOADL ends with what its symbols give. -/
theorem Decompressing.decompressed {t : State} (h : Decompressing outCap input t) (hc : Completed t) (hh : t.host = [])
    (hresult : (t.err, outputOf t) = resultOfSymbols (symbolsIn input)) : Decompressed outCap input b t := by
  obtain ⟨horig, htree, -⟩ := headerVerdict_eq_none.1 h.header
  exact ⟨hc, hh, hresult.trans h.result.symm, fun hshort => absurd hshort (by omega), fun _ => ⟨h.origLen, h.n⟩,
    fun _ hempty => absurd hempty horig⟩

/-! ## One step of each phase -/

theorem decompress_parse (r : Runs .decompress .parse s) (h : DecompressKnown outCap input b .parse s) :
    Advances .decompress (DecompressKnown outCap input b) (Decompressed outCap input b) .parse s := by
  obtain ⟨hsource, horig, hn, hout⟩ := h
  have hlen := hsource.inLen
  by_cases hshort : input.length < 5
  · have hx := (exec_parse_eq_next s _).2 (.inl ⟨by omega, rfl⟩)
    refine ⟨_, hx, .inl ⟨⟨rfl, rfl, rfl⟩, r.host, ?_, fun _ => ⟨horig, hn⟩,
      fun h => absurd hshort (Nat.not_lt.2 h), fun h => absurd hshort (Nat.not_lt.2 h)⟩⟩
    rw [decompressResult_of_short hshort, outputOf_of_failure (by simp), complete_err]
  have h5 := Nat.le_of_not_lt hshort
  obtain ⟨-, hcap⟩ := hsource.readable (a := 4) (by omega)
  have hx := (exec_parse_eq_next s _).2 (.inr ⟨by omega, hcap, rfl⟩)
  have hrecord := hsource.leafRecordAt (a := 0) (by omega)
  have hlength : headerLength s = (headerIn input).origlen := congrArg LeafRecord.freq hrecord
  have hbyte : inByte s 4 = (headerIn input).nm1 := congrArg LeafRecord.sym hrecord
  have hverdict : parseVerdict (countIn input) { s with origLen := (headerIn input).origlen } =
      headerVerdict outCap input := by
    simp only [parseVerdict, headerVerdict, hlen, hsource.room]
  have hsource' := hsource.exec hx
  refine ⟨_, hx, ?_⟩
  rw [hlength, hbyte, parseChecks_eq, ← countIn, hverdict] at hsource' ⊢
  cases hv : headerVerdict outCap input with
  | some e =>
    refine .inl ⟨⟨rfl, rfl, rfl⟩, r.host, ?_, fun h => absurd h hshort, fun _ => ⟨rfl, rfl⟩, fun _ _ => hout⟩
    have hnone : ∀ u : State, outputOf (complete e 0 u) = [] := fun u => by
      rw [outputOf, complete_outLen, ite_self]
      rfl
    rw [decompressResult_of_header h5, hv, hnone]
    rfl
  | none =>
    rw [hv] at hsource'
    exact .inr ⟨.loadl, r.next rfl rfl rfl rfl, ⟨hsource', hv, rfl, rfl⟩, Nat.zero_le _,
      ⟨fun x hx => absurd hx (Nat.not_lt_zero _), fun j hj => absurd hj (Nat.not_lt_zero _)⟩⟩

/-- LOADL adds the leaf at `LI` (43 R160). -/
theorem Loaded.loaded (h : Loaded input s.li.toNat s) :
    Loaded input (s.li.toNat + 1) (loaded s (recordIn input (leafAddr s.li.toNat))) := by
  obtain ⟨hnode, hentry⟩ := loaded_leaf s (recordIn input (leafAddr s.li.toNat))
  refine ⟨fun x hx => ?_, fun j hj => ?_⟩
  · rw [hnode]
    split
    next e => rw [e]
    next hne =>
      have : x.toNat ≠ s.li.toNat := fun e => hne (BitVec.eq_of_toNat_eq e)
      exact h.leaf x (by omega)
  · rw [hentry]
    split
    next e => rw [e]; simp
    next hne => exact h.queued j (by omega)

theorem decompress_loadl (r : Runs .decompress .loadl s) (h : DecompressKnown outCap input b .loadl s) :
    Advances .decompress (DecompressKnown outCap input b) (Decompressed outCap input b) .loadl s := by
  obtain ⟨hd, hle, hloaded⟩ := h
  obtain ⟨⟨h1, h256⟩, htree, -⟩ := hd.bounds
  by_cases hli : s.li < s.n
  · have hli' := BitVec.lt_def.1 hli
    have hread : leafAddr s.li.toNat + 4 < input.length := by
      simp only [leafAddr, hdrSize, leafSize]
      omega
    have hx := (exec_loadl_eq_next s _).2 (.inl ⟨hli, hd.source.readable hread, by simp only [maxNodes]; omega,
      by simp only [maxQueue]; omega, rfl⟩)
    have hnext : (s.li + 1).toNat = s.li.toNat + 1 := by bv_omega
    have hd' := hd.exec hx rfl rfl
    rw [hd.source.leafRecordAt hread] at hx hd'
    refine ⟨_, hx, .inr ⟨.loadl, r.next rfl rfl rfl r.phase, hd', ?_, ?_⟩⟩
    · change (s.li + 1).toNat ≤ s.n.toNat
      omega
    · change Loaded input (s.li + 1).toNat _
      rw [hnext]
      exact hloaded.loaded
  · have hli := BitVec.not_lt.1 hli
    have hall : s.li.toNat = s.n.toNat := Nat.le_antisymm hle (BitVec.le_def.1 hli)
    have hx := (exec_loadl_eq_next s _).2 (.inr ⟨hli, rfl⟩)
    have hcount : (leavesIn input).length = s.n.toNat := by rw [length_leavesIn, hd.n]
    rw [hall] at hloaded
    refine ⟨_, hx, .inr ⟨.merge, r.next rfl rfl rfl rfl, hd.exec hx rfl rfl, ?_, rfl, ?_⟩⟩
    · refine building_of_leaves (by omega) (by omega) hcount.symm rfl rfl (fun x hx => ?_)
        fun j hj => hloaded.queued j (hcount ▸ hj)
      refine (hloaded.leaf x (hcount ▸ hx)).trans ?_
      simp [leavesIn]
    · change (BitVec.ofNat 41 (8 * (5 + 5 * s.n.toNat))).toNat = 8 * (5 + 5 * s.n.toNat)
      rw [BitVec.toNat_ofNat]
      omega

theorem decompress_merge (r : Runs .decompress .merge s) (h : DecompressKnown outCap input b .merge s) :
    Advances .decompress (DecompressKnown outCap input b) (Decompressed outCap input b) .merge s := by
  obtain ⟨hd, hbuild, hopos, hbitpos⟩ := h
  have hforest := hbuild.forest
  by_cases hq : 2 ≤ s.qn.toNat
  · obtain ⟨t, ht⟩ := hforest.mergeOnce_answers hq
    have hx := (exec_merge_eq_next s t).2 (.inl ⟨hq, ht⟩)
    have hf := mergeOnce_frame ht
    exact ⟨t, hx, .inr ⟨.merge, r.next (by rw [hf]) (by rw [hf]) (by rw [hf]) (by rw [hf]; exact r.phase),
      hd.exec hx (by rw [hf]) (by rw [hf]), hbuild.mergeOnce hq ht, by rw [hf]; exact hopos,
      by rw [hf]; exact hbitpos⟩⟩
  · have hq := Nat.lt_of_not_le hq
    have hx := (exec_merge_eq_next s _).2 (.inr ⟨hq, rfl⟩)
    obtain ⟨u, hu⟩ := hbuild.treeBuilt hq
    obtain ⟨-, htree, -⟩ := hd.bounds
    refine ⟨_, hx, .inr ⟨.unpk, r.next rfl rfl rfl (if_neg (by simp [r.mode])), hd.exec hx rfl rfl, ?_, u, u,
      hu.mergeExited, hu.mergeExited.stored, ?_⟩⟩
    · change s.opos.toNat ≤ _
      rw [hopos]
      exact Nat.zero_le _
    · change symbolsIn input = (pendingSymbols u u (s.origLen.toNat - s.opos.toNat)
        ((bitsOf input).drop s.bitpos.toNat)).map (outBytes s s.opos.toNat ++ ·)
      have hbits : bitsOf (input.drop (5 + 5 * (countIn input).toNat)) = (bitsOf input).drop s.bitpos.toNat := by
        rw [← hd.n, hbitpos, bitsOf_drop input htree]
      rw [pendingSymbols_root, symbolsIn, payloadSymbols, hu.built, Option.bind_some, hbits, ← hd.origLen, hopos]
      exact Option.map_id'.symm

theorem decompress_unpk (r : Runs .decompress .unpk s) (h : DecompressKnown outCap input b .unpk s) :
    Advances .decompress (DecompressKnown outCap input b) (Decompressed outCap input b) .unpk s := by
  obtain ⟨hd, hle, u, v, hu, hv, hunpack⟩ := h
  obtain ⟨-, -, hroom⟩ := hd.bounds
  have hsize := hu.forest.nn_le
  have hcur : s.cur.toNat < maxNodes := hv.lt_nn.trans_le hsize
  by_cases hend : s.opos.toNat = s.origLen.toNat
  · have hx := (exec_unpk_eq_next s _).2 (.inl ⟨hend, rfl⟩)
    refine ⟨_, hx, .inl ((hd.exec hx rfl rfl).decompressed ⟨rfl, rfl, rfl⟩ r.host ?_)⟩
    rw [hunpack, hend, Nat.sub_self, outputOf_of_success, BitVec.toNat_setWidth_of_le (by decide)]
    simp [pendingSymbols, resultOfSymbols]
  obtain ⟨k, hk⟩ : ∃ k, s.origLen.toNat - s.opos.toNat = k + 1 := ⟨s.origLen.toNat - s.opos.toNat - 1, by omega⟩
  rw [Unpacking, hk] at hunpack
  cases v with
  | leaf f c =>
    obtain ⟨-, -, hsym, hnil⟩ := hv
    have hfits : s.opos.toNat < s.params.outCap.toNat := by omega
    have hx := (exec_unpk_eq_next s _).2 (.inr ⟨hend, hcur, .inl ⟨hnil, hfits, rfl⟩⟩)
    have hnext := toNat_opos_succ hfits
    refine ⟨_, hx, .inr ⟨.unpk, r.next rfl rfl rfl r.phase, hd.exec hx rfl rfl, ?_, u, u,
      hu.congr rfl rfl rfl rfl rfl rfl, hu.stored.congr rfl rfl rfl, ?_⟩⟩
    · change (s.opos + 1).toNat ≤ s.origLen.toNat
      omega
    · change symbolsIn input = (pendingSymbols u u (s.origLen.toNat - (s.opos + 1).toNat)
        ((bitsOf input).drop s.bitpos.toNat)).map
          (outBytes (outAppended s (nodeAt s s.cur).sym) (s.opos + 1).toNat ++ ·)
      have hk' : s.origLen.toNat - (s.opos + 1).toNat = k := by omega
      rw [hunpack, hk', hnext, outBytes_outAppended, hsym, pendingSymbols_leaf, Option.map_map]
      simp only [Function.comp_def, List.append_assoc, List.singleton_append]
  | node f l r' =>
    have hinner := hv.left_ne_nil hsize
    obtain ⟨-, -, hl, hr⟩ := hv
    have hbits : inBits s = 8 * input.length := by rw [inBits, hd.source.inLen]
    by_cases hdry : inBits s ≤ s.bitpos.toNat
    · have hx := (exec_unpk_eq_next s _).2 (.inr ⟨hend, hcur, .inr (.inl ⟨hinner, hdry, rfl⟩)⟩)
      refine ⟨_, hx, .inl ((hd.exec hx rfl rfl).decompressed ⟨rfl, rfl, rfl⟩ r.host ?_)⟩
      rw [hunpack, List.drop_eq_nil_of_le (by rw [length_bitsOf]; omega), outputOf_of_failure (by simp)]
      rfl
    · have hbit := Nat.lt_of_not_le hdry
      have hbyte : s.bitpos.toNat / 8 < input.length := by omega
      have hx := (exec_unpk_eq_next s _).2
        (.inr ⟨hend, hcur, .inr (.inr ⟨hinner, hbit, hd.source.readable hbyte, rfl⟩)⟩)
      have hnext := toNat_bitpos_succ hbit
      have hdrop : (bitsOf input).drop s.bitpos.toNat =
          (inByte s (s.bitpos.toNat / 8)).getLsbD (s.bitpos.toNat % 8) :: (bitsOf input).drop (s.bitpos.toNat + 1) := by
        have hget := getElem?_bitsOf input s.bitpos.toNat
        have hin : s.bitpos.toNat < (bitsOf input).length := by rw [length_bitsOf]; omega
        rw [List.getElem?_eq_getElem hin, List.getElem?_eq_getElem hbyte, Option.map_some, Option.some.injEq] at hget
        rw [List.drop_eq_getElem_cons hin, hget, hd.source.inByte hbyte]
      rw [hdrop, pendingSymbols_node, ← hnext] at hunpack
      refine ⟨_, hx, .inr ⟨.unpk, r.next rfl rfl rfl r.phase, hd.exec hx rfl rfl, hle, u, _,
        hu.congr rfl rfl rfl rfl rfl rfl, ?_, hk ▸ hunpack⟩⟩
      refine Stores.congr (s := s) ?_ rfl rfl rfl
      simp only [descended]
      split
      · exact hr
      · exact hl

end

/-! ## The command -/

/-- Every step of a DECOMPRESS keeps what is known, and the last one gives the result. -/
theorem decompress_advances {outCap : Nat} {input : List Byte} {b : State} (p : Phase) (s : State)
    (r : Runs .decompress p s) (h : DecompressKnown outCap input b p s) :
    Advances .decompress (DecompressKnown outCap input b) (Decompressed outCap input b) (phaseInstr p) s := by
  cases p
  case parse => exact decompress_parse r h
  case loadl => exact decompress_loadl r h
  case merge => exact decompress_merge r h
  case unpk => exact decompress_unpk r h
  case idle | fclr | fcnt | seed | assign | serh | serl | pack | flush => exact h.elim

/-- A DECOMPRESS written to `CMD` of a waiting block runs to its result. -/
theorem decompressed_of_issued {s : State} (hw : Waiting s) (hcap : s.inLen ≤ s.params.inCap) :
    ∃ t, Reaches (issued s 0x02#8) t ∧ Decompressed s.params.outCap.toNat (inputOf s) s t := by
  obtain ⟨hb, -⟩ := hw
  obtain ⟨haccept, -⟩ := decompressAcceptance
  have hstep := (step_issued s 0x02#8 hb).trans (haccept (newTurn { s with host := [] }) hb hcap)
  obtain ⟨t, ht, hdone⟩ := reaches_of_advances (fun _ h => h)
    (decompress_advances (outCap := s.params.outCap.toNat) (input := inputOf s) (b := s))
    (s := { accept .decompress (newTurn { s with host := [] }) with phase := .parse })
    ⟨.parse, ⟨rfl, rfl, rfl, rfl⟩, ⟨rfl, hcap, rfl⟩, rfl, rfl, rfl⟩
  exact ⟨t, .of_step hstep ht, hdone⟩

/-- Settles O58: the command is accepted, and each phase of its run keeps what the result is made of. -/
theorem decompressRunGivesItsResult : Obligations.DecompressRunGivesItsResult := by
  intro s hw hcap
  obtain ⟨t, ⟨k, hk⟩, hdone⟩ := decompressed_of_issued hw hcap
  refine ⟨k, t, hk, hdone.host, hdone.completed, hdone.result, ?_⟩
  rw [decodeHdr_eq]
  by_cases h5 : 5 ≤ (inputOf s).length
  · rw [if_pos h5]
    obtain ⟨horig, hn⟩ := hdone.header h5
    exact ⟨horig, hn, hdone.empty h5⟩
  · rw [if_neg h5]
    exact hdone.short (Nat.lt_of_not_le h5)

/-- A command that an idle block rejects completes in its first step (45 R191). -/
theorem completes_of_rejected {s : State} {c : Byte} (hw : Waiting s)
    (h : commandWrite c (newTurn { s with host := [] }) =
      .next (reject .invalidInput (newTurn { s with host := [] }))) :
    ∃ k t, runFor k (issued s c) = .next t ∧ t.host = [] ∧ Completed t := by
  obtain ⟨hb, hp⟩ := hw
  exact ⟨1, _, runFor_of_step ((step_issued s c hb).trans h) 0, rfl, hb, rfl, hp⟩

/-- Settles O56: an accepted command runs to its result, and a rejected one completes at once. -/
theorem everyCommandCompletes : Obligations.EveryCommandCompletes := by
  intro s c hw
  obtain ⟨-, hcompBad, -⟩ := compressAcceptance
  obtain ⟨-, hdecBad, -⟩ := decompressAcceptance
  have hb : (newTurn { s with host := [] }).busy = false := hw.1
  by_cases hres : c ≠ 0x01#8 ∧ c ≠ 0x02#8
  · exact completes_of_rejected hw (commandWrite_of_reserved hb hres)
  by_cases h1 : c = 0x01#8
  · subst h1
    by_cases hfits : s.inLen ≤ s.params.inCap ∧ s.inLen.toNat < 2 ^ 32
    · obtain ⟨t, ⟨k, hk⟩, hdone⟩ := compressed_of_issued hw hfits.1 hfits.2
      exact ⟨k, t, hk, hdone.host, hdone.completed⟩
    · have hbad : s.params.inCap < s.inLen ∨ 2 ^ 32 ≤ s.inLen.toNat :=
        (not_and_or.1 hfits).imp BitVec.not_le.1 Nat.le_of_not_lt
      exact completes_of_rejected hw (hcompBad _ hb hbad)
  · obtain rfl : c = 0x02#8 := by
      by_contra h2
      exact hres ⟨h1, h2⟩
    by_cases hcap : s.inLen ≤ s.params.inCap
    · obtain ⟨t, ⟨k, hk⟩, hdone⟩ := decompressed_of_issued hw hcap
      exact ⟨k, t, hk, hdone.host, hdone.completed⟩
    · exact completes_of_rejected hw (hdecBad _ hb (BitVec.not_le.1 hcap))

/-! ## The round trip of the machine -/

/-- Two ends of the same run are the same state: after the earlier one nothing changes. -/
theorem ended_unique {s t t' : State} {k k' : Nat} (hx : runFor k s = .next t) (ht : Completed t ∧ t.host = [])
    (hx' : runFor k' s = .next t') (ht' : Completed t' ∧ t'.host = []) : t = t' := by
  have hlater : ∀ {j d : Nat} {u u' : State}, runFor j s = .next u → Completed u ∧ u.host = [] →
      runFor (j + d) s = .next u' → u = u' := fun {j d u u'} hu hend hu' => by
    obtain ⟨v, hv, hv'⟩ := (runFor_add_eq_next j d s u').1 hu'
    obtain rfl : u = v := by simpa [hu] using hv
    rw [runFor_of_ended hend] at hv'
    simpa using hv'
  rcases Nat.le_total k k' with hle | hle
  · obtain ⟨d, rfl⟩ := Nat.exists_eq_add_of_le hle
    exact hlater hx ht hx'
  · obtain ⟨d, rfl⟩ := Nat.exists_eq_add_of_le hle
    exact (hlater hx' ht' hx).symm

/-- Settles O59: the two runs give the results of the two functions, whose round trip is O7. -/
theorem machineRoundTrip : Obligations.MachineRoundTrip := by
  intro s t u k hw hcap hlen hrun hhost hcompleted herr hw' hcap' hinput hroom
  obtain ⟨t', ⟨j, hj⟩, hdone⟩ := compressed_of_issued hw hcap hlen
  obtain rfl := ended_unique hrun ⟨hcompleted, hhost⟩ hj ⟨hdone.completed, hdone.host⟩
  have hlength := length_inputOf s
  have hbuffer : inputOf u = compressBytes (inputOf s) := by
    have hresult := hdone.result
    rw [compressResult, herr] at hresult
    split at hresult
    · cases hresult
    · rw [hinput]
      exact congrArg Prod.snd hresult
  obtain ⟨v, ⟨k', hk'⟩, hdone'⟩ := decompressed_of_issued hw' hcap'
  have hresult := hdone'.result
  rw [hbuffer, codecRoundTrip (inputOf s) _ (hlength ▸ hlen) (hlength ▸ BitVec.le_def.1 hroom),
    Prod.mk.injEq] at hresult
  obtain ⟨hok, hout⟩ := hresult
  exact ⟨k', v, hk', hdone'.host, hdone'.completed, hok, hout⟩

end Sys2Proof.Machine
end

section
/-! PROOFS. The completion sequence (60_exceptions.md R226). -/

namespace Sys2Proof.Machine

/-- With OK the given output length stands. -/
theorem complete_ok (k : Addr) (s : State) :
    complete .ok k s = { s with err := .ok, outLen := k, busy := false, done := true, phase := .idle } := rfl

/-- An error leaves no output, whatever length the completion was given. -/
theorem complete_of_ne_ok {e : ErrCode} (he : e ≠ .ok) (k : Addr) (s : State) :
    complete e k s = { s with err := e, outLen := 0, busy := false, done := true, phase := .idle } := by
  simp only [complete, if_neg he]

/-- Settles O19: by whether the completion carries an error, and a raised error is one with length 0. -/
theorem completionSequence : Obligations.CompletionSequence :=
  ⟨fun s k => complete_ok k s, fun s _ k he => complete_of_ne_ok he k s, fun s e => raiseError_eq e s⟩

end Sys2Proof.Machine
end

section
/-! PROOFS. The reset event (70_reset_and_hazards.md R250 to R253). -/

namespace Sys2Proof.Machine

/-- The status byte of a block just reset: not busy, not done, no error. -/
theorem statusByte_applyReset (s : State) : statusByte (applyReset s) = 0x00#8 := by
  rw [statusByte, applyReset_err, applyReset_done, applyReset_busy]
  decide

/-- The host's reset move is the reset event, once the move is taken. -/
theorem step_reset {s : State} {rest : List HostMove} (h : s.host = .reset :: rest) :
    step s = .next (applyReset { s with host := rest }) := by
  rw [step_of_host h, hostTurn]

/-- Settles O45: the step is the reset event, whose fields its own laws give. -/
theorem resetEventRestoresResetValues : Obligations.ResetEventRestoresResetValues := by
  intro s rest h
  exact ⟨_, step_reset h, by simp [nil, statusByte_applyReset]⟩

end Sys2Proof.Machine
end
